-- ==== Sys2Proof/Word.lean ====
section
/-! DEFINITION. The words of the engine: a serial or SPI byte, a window bound, a glyph index, a line level. -/

namespace Sys2Proof

/-- An unsigned byte (00_scope.md R13). -/
abbrev Byte := BitVec 8

/-- A window bound, a 16-bit unsigned value (30_encoding.md R89). -/
abbrev Bound := BitVec 16

/-- A glyph index, `b mod 32 = b[4:0]`, in [0, 32) (30_encoding.md R86). -/
abbrev GlyphIndex := BitVec 5

/-- The level of a control line. Chip-select is asserted `low` (10_state.md R28). -/
inductive Level where
  | low
  | high
deriving DecidableEq, Repr

end Sys2Proof
end

