-- ==== Sys2Proof/Config.lean ====
section
/-! DEFINITION. The open parameters of 00_scope.md R12 and the size of the controller's memory (20_memory.md R68).
They are fields of a record that every state carries and no step changes, so that a statement about every state
holds for every value of them (assumption 6). -/

namespace Sys2Proof

/-- The configuration of a run (00_scope.md R12, 10_state.md R38). -/
structure Config where
  /-- `FONT`: 32 glyphs of 6 bytes, byte c of a glyph its column c (40_glyph_font.md R110). -/
  font       : List (List Byte)
  /-- `TX_DEPTH`: how many undelivered bytes the SPI transport can hold (20_memory.md R62). -/
  txDepth    : Nat
  /-- `DC_CMD_LEVEL`: the electrical level of the command/data line in command mode (10_state.md R27). -/
  dcCmdLevel : Level
  /-- `CUR_W`: the bit width of the two signed cursor registers (10_state.md R23). -/
  curW       : Nat
  /-- `BAUD`: the serial rate, used by no rule. -/
  baud       : Nat
  /-- Columns of the controller's frame memory, "left to the platform" (20_memory.md R68). -/
  panelCols  : Nat
  /-- Rows of the controller's frame memory. -/
  panelRows  : Nat
deriving DecidableEq, Repr

/-- The constraints the spec puts on the open parameters: the font's shape and its blank glyph 0 (40_glyph_font.md
R110, R114), the bounds of 00_scope.md R12, and a controller memory that holds the addressed 318 × 240 rectangle
(20_memory.md R52). -/
def Config.wf (c : Config) : Bool :=
  c.font.length == 32 && c.font.all (fun g => g.length == 6) &&
    c.font.headD [] == [0, 0, 0, 0, 0, 0] &&
    decide (1 ≤ c.txDepth) && decide (7 ≤ c.curW) && decide (1 ≤ c.baud) &&
    decide (318 ≤ c.panelCols) && decide (240 ≤ c.panelRows)

/-- The bytes of glyphs 1 to 31, which the spec does not give (40_glyph_font.md R118): no value is chosen. -/
opaque Config.openFontByte : Nat → Nat → Byte

/-- `TX_DEPTH - 1`, which the spec does not give (00_scope.md R12). -/
opaque Config.openTxDepth : Nat

/-- Whether command mode drives the line high, which the spec does not give (92_eei_decisions.md D16). -/
opaque Config.openDcCmdHigh : Bool

/-- `CUR_W - 7`, which the spec does not give (92_eei_decisions.md D5). -/
opaque Config.openCurW : Nat

/-- `BAUD - 1`, which the spec does not give (91_not_in_source.md N7). -/
opaque Config.openBaud : Nat

/-- Columns of the controller's memory beyond the 318 the engine addresses (91_not_in_source.md N4). -/
opaque Config.openPanelCols : Nat

/-- Rows of the controller's memory beyond the 240 the engine addresses (91_not_in_source.md N4). -/
opaque Config.openPanelRows : Nat

/-- What register number `k` of a controller that had left the path the spec defines holds when external reset number `n` begins
a new run, which the spec does not give (10_state.md R37, 20_memory.md R61): no value is chosen. -/
opaque Config.openPanelRegister : Nat → Nat → Nat

/-- The product's font as far as the spec gives it: glyph 0 is blank (40_glyph_font.md R114), the rest is open. -/
def Config.openFont : List (List Byte) :=
  (List.range 32).map fun g => (List.range 6).map fun c => if g = 0 then 0 else Config.openFontByte g c

/-- The configuration of the machine as the spec leaves it: every open parameter an open constant within its
constraint (assumption 6). -/
def Config.given : Config where
  font       := Config.openFont
  txDepth    := Config.openTxDepth + 1
  dcCmdLevel := if Config.openDcCmdHigh then .high else .low
  curW       := Config.openCurW + 7
  baud       := Config.openBaud + 1
  panelCols  := Config.openPanelCols + 318
  panelRows  := Config.openPanelRows + 240

end Sys2Proof
end

