-- ==== Sys2Proof/Syntax.lean ====
section
/-! DEFINITION. The instructions: the eight input instructions of level IN (30_encoding.md R85) and the six wire
commands of level W (30_encoding.md R88), one constructor for each row of the opcode table. -/

namespace Sys2Proof

/-- Mode of the command/data line (10_state.md R27). -/
inductive Mode where
  | cmd
  | data
deriving DecidableEq, Repr

/-- One item of a wire view: a byte with the mode it belongs to, `C:b` or `D:b` (00_scope.md R16). -/
structure WireItem where
  mode : Mode
  byte : Byte
deriving DecidableEq, Repr

/-- `C:b`. -/
abbrev WireItem.c (b : Byte) : WireItem := ⟨.cmd, b⟩

/-- `D:b`. -/
abbrev WireItem.d (b : Byte) : WireItem := ⟨.data, b⟩

/-- One pixel, its three bytes in wire order (30_encoding.md R90). -/
structure Pixel where
  blue  : Byte
  green : Byte
  red   : Byte
deriving DecidableEq, Repr

/-- The two encoded interfaces (30_encoding.md R80). -/
inductive InstrLevel where
  | input
  | wire
deriving DecidableEq, Repr

/-- The instruction set. `b2`, the ignored second byte of an escape sequence, is kept because its reception is an
event (00_scope.md R15); `b1` of `GLYPH` is kept whole for the same reason. -/
inductive Instr where
  /-- `CR` (R161). -/
  | cr
  /-- `ESC_UP` (R163). -/
  | escUp (b2 : Byte)
  /-- `ESC_DOWN` (R164). -/
  | escDown (b2 : Byte)
  /-- `ESC_RIGHT` (R165). -/
  | escRight (b2 : Byte)
  /-- `ESC_LEFT` (R166). -/
  | escLeft (b2 : Byte)
  /-- `ESC_NONE` (R167). -/
  | escNone (b2 : Byte) (b3 : Byte)
  /-- `DEL` (R168). -/
  | del
  /-- `GLYPH` (R169). -/
  | glyph (b1 : Byte)
  /-- `EXIT_SLEEP` (R128). -/
  | exitSleep
  /-- `DISPLAY_ON` (R129). -/
  | displayOn
  /-- `COL_ADDR_SET` with its two bounds (R130). -/
  | colAddrSet (first : Bound) (last : Bound)
  /-- `ROW_ADDR_SET` with its two bounds (R131). -/
  | rowAddrSet (first : Bound) (last : Bound)
  /-- `MEM_WRITE` with its pixel stream (R132). -/
  | memWrite (pixels : List Pixel)
  /-- `MEM_ACCESS_CTRL` with its parameter byte (R133). -/
  | memAccessCtrl (param : Byte)
deriving DecidableEq, Repr

/-- The level an instruction belongs to. -/
def Instr.level : Instr → InstrLevel
  | .cr => .input
  | .escUp _ => .input
  | .escDown _ => .input
  | .escRight _ => .input
  | .escLeft _ => .input
  | .escNone _ _ => .input
  | .del => .input
  | .glyph _ => .input
  | .exitSleep => .wire
  | .displayOn => .wire
  | .colAddrSet _ _ => .wire
  | .rowAddrSet _ _ => .wire
  | .memWrite _ => .wire
  | .memAccessCtrl _ => .wire

end Sys2Proof
end

