-- ==== Sys2Proof/WellFormed.lean ====
section
/-! DEFINITION. Which terms of `Instr` the encodings of 30_encoding.md can express. -/

namespace Sys2Proof

/-- `b3` values that move the cursor (30_encoding.md R85); an `ESC_NONE` has none of them. -/
def isMotionByte (b : Byte) : Bool :=
  b == 65 || b == 66 || b == 67 || b == 68

/-- `b1` values that are not a `GLYPH` (30_encoding.md R85). -/
def isReservedFirstByte (b : Byte) : Bool :=
  b == 13 || b == 27 || b == 127

/-- Well-formedness, the two catch-all rows of 30_encoding.md R85: `ESC_NONE` takes the 252 third bytes other than 65
to 68, `GLYPH` the 253 first bytes other than 13, 27 and 127. Every operand of the other rows is encodable
(R86, R87: bounds and parameters are any bytes, a pixel stream has any length). -/
def Instr.wf : Instr → Bool
  | .cr => true
  | .escUp _ => true
  | .escDown _ => true
  | .escRight _ => true
  | .escLeft _ => true
  | .escNone _ b3 => !isMotionByte b3
  | .del => true
  | .glyph b1 => !isReservedFirstByte b1
  | .exitSleep => true
  | .displayOn => true
  | .colAddrSet _ _ => true
  | .rowAddrSet _ _ => true
  | .memWrite _ => true
  | .memAccessCtrl _ => true

end Sys2Proof
end

