-- ==== Sys2Proof/Decode.lean ====
section
/-! DEFINITION. The encodings of 30_encoding.md: the decoder of the serial stream (level IN), the decoder of a wire
view (level W), total and rejecting by name, and the encoder written from the same tables. -/

namespace Sys2Proof

/-- `IN_CR` (00_scope.md R10). -/
def inCr : Byte := 13
/-- `IN_ESC`. -/
def inEsc : Byte := 27
/-- `IN_DEL`. -/
def inDel : Byte := 127
/-- `IN_UP`. -/
def inUp : Byte := 65
/-- `IN_DOWN`. -/
def inDown : Byte := 66
/-- `IN_RIGHT`. -/
def inRight : Byte := 67
/-- `IN_LEFT`. -/
def inLeft : Byte := 68

/-- `OP_EXIT_SLEEP` (30_encoding.md R88). -/
def opExitSleep : Byte := 0x11
/-- `OP_DISPLAY_ON`. -/
def opDisplayOn : Byte := 0x29
/-- `OP_COL_ADDR_SET`. -/
def opColAddrSet : Byte := 0x2A
/-- `OP_ROW_ADDR_SET`. -/
def opRowAddrSet : Byte := 0x2B
/-- `OP_MEM_WRITE`. -/
def opMemWrite : Byte := 0x2C
/-- `OP_MEM_ACCESS_CTRL`. -/
def opMemAccessCtrl : Byte := 0x36

/-- `hi = v[15:8]` of a window bound (30_encoding.md R89). -/
def hiByte (v : Bound) : Byte := v.extractLsb' 8 8

/-- `lo = v[7:0]` of a window bound (30_encoding.md R89). -/
def loByte (v : Bound) : Byte := v.extractLsb' 0 8

/-- The bound whose bytes are `hi` then `lo`, `hi ++ lo` (20_memory.md R57). -/
def boundOf (hi lo : Byte) : Bound := hi ++ lo

/-- The three bytes of a pixel in wire order, blue, green, red (30_encoding.md R90). -/
def pixelBytes (p : Pixel) : List Byte := [p.blue, p.green, p.red]

/-- Why bytes are not (yet) an instruction. Level IN has no illegal encoding (30_encoding.md R94): a stream is only ever
too short. Level W has the six commands of R88 with the parameter counts of R87 and nothing else (R96). -/
inductive DecodeError where
  /-- The stream has no byte: the engine waits at W0. -/
  | noInput
  /-- The stream ends inside an escape sequence: the engine waits at W1 or W2 (43_terminal_state_machine.md R174). -/
  | escapeIncomplete
  /-- A wire view that is empty or begins with a data byte. -/
  | noCommand
  /-- A command byte that is none of the six opcodes. -/
  | unknownOpcode (op : Byte)
  /-- A command with another number of parameters than its format has. -/
  | wrongParameterCount (op : Byte)
  /-- A pixel stream that ends inside a pixel. -/
  | partialPixel
deriving DecidableEq, Repr

/-- The five-way selection on the third byte (30_encoding.md R84). -/
def escInstr (b2 b3 : Byte) : Instr :=
  if b3 = inUp then .escUp b2
  else if b3 = inDown then .escDown b2
  else if b3 = inRight then .escRight b2
  else if b3 = inLeft then .escLeft b2
  else .escNone b2 b3

/-- The next input instruction of a serial stream and the bytes after it: the length rule of 30_encoding.md R83 and the
decode order of R84. -/
def decodeStream : List Byte → Except DecodeError (Instr × List Byte)
  | [] => .error .noInput
  | b1 :: rest =>
    if b1 = inCr then .ok (.cr, rest)
    else if b1 = inEsc then
      match rest with
      | b2 :: b3 :: rest' => .ok (escInstr b2 b3, rest')
      | _ => .error .escapeIncomplete
    else if b1 = inDel then .ok (.del, rest)
    else .ok (.glyph b1, rest)

/-- The data bytes a wire view begins with, and the items from its next command on. -/
def dataPrefix : List WireItem → List Byte × List WireItem
  | [] => ([], [])
  | ⟨.data, b⟩ :: rest => (b :: (dataPrefix rest).1, (dataPrefix rest).2)
  | ⟨.cmd, b⟩ :: rest => ([], ⟨.cmd, b⟩ :: rest)

/-- Data bytes grouped in threes, blue, green, red (30_encoding.md R90). -/
def pixelsOf : List Byte → Option (List Pixel)
  | [] => some []
  | b :: g :: r :: rest => (pixelsOf rest).map (⟨b, g, r⟩ :: ·)
  | _ => none

/-- The command with opcode `op` and the data bytes `ps` (30_encoding.md R87, R88). -/
def wireInstr (op : Byte) (ps : List Byte) : Except DecodeError Instr :=
  if op = opExitSleep then
    match ps with
    | [] => .ok .exitSleep
    | _ => .error (.wrongParameterCount op)
  else if op = opDisplayOn then
    match ps with
    | [] => .ok .displayOn
    | _ => .error (.wrongParameterCount op)
  else if op = opColAddrSet then
    match ps with
    | [p0, p1, p2, p3] => .ok (.colAddrSet (boundOf p0 p1) (boundOf p2 p3))
    | _ => .error (.wrongParameterCount op)
  else if op = opRowAddrSet then
    match ps with
    | [p0, p1, p2, p3] => .ok (.rowAddrSet (boundOf p0 p1) (boundOf p2 p3))
    | _ => .error (.wrongParameterCount op)
  else if op = opMemWrite then
    match pixelsOf ps with
    | some px => .ok (.memWrite px)
    | none => .error .partialPixel
  else if op = opMemAccessCtrl then
    match ps with
    | [p0] => .ok (.memAccessCtrl p0)
    | _ => .error (.wrongParameterCount op)
  else .error (.unknownOpcode op)

/-- The next wire command of a wire view and the items after it: a command byte and the data bytes up to the next
command byte (30_encoding.md R87). -/
def decodeWire : List WireItem → Except DecodeError (Instr × List WireItem)
  | [] => .error .noCommand
  | ⟨.data, _⟩ :: _ => .error .noCommand
  | ⟨.cmd, op⟩ :: rest =>
    match wireInstr op (dataPrefix rest).1 with
    | .ok i => .ok (i, (dataPrefix rest).2)
    | .error e => .error e

/-- Encoded instructions: bytes of the serial stream, or items of a wire view (30_encoding.md R80). -/
inductive Encoded where
  | stream (bytes : List Byte)
  | wire (items : List WireItem)
deriving DecidableEq, Repr

/-- Decode at the level the encoding belongs to. -/
def decode : Encoded → Except DecodeError (Instr × Encoded)
  | .stream bs =>
    match decodeStream bs with
    | .ok (i, rest) => .ok (i, .stream rest)
    | .error e => .error e
  | .wire ws =>
    match decodeWire ws with
    | .ok (i, rest) => .ok (i, .wire rest)
    | .error e => .error e

/-- The items `D:b` of a list of data bytes. -/
def dataItems (bs : List Byte) : List WireItem := bs.map fun b => ⟨.data, b⟩

/-- The four parameter bytes of a window command: two big-endian bounds (30_encoding.md R87, R89). -/
def boundBytes (first last : Bound) : List Byte :=
  [hiByte first, loByte first, hiByte last, loByte last]

/-- The bytes of an input instruction in arrival order (30_encoding.md R81, R82, R85); none for a wire command. -/
def streamBytes : Instr → List Byte
  | .cr => [inCr]
  | .escUp b2 => [inEsc, b2, inUp]
  | .escDown b2 => [inEsc, b2, inDown]
  | .escRight b2 => [inEsc, b2, inRight]
  | .escLeft b2 => [inEsc, b2, inLeft]
  | .escNone b2 b3 => [inEsc, b2, b3]
  | .del => [inDel]
  | .glyph b1 => [b1]
  | .exitSleep => []
  | .displayOn => []
  | .colAddrSet _ _ => []
  | .rowAddrSet _ _ => []
  | .memWrite _ => []
  | .memAccessCtrl _ => []

/-- The wire view of a wire command (30_encoding.md R87, R88); none for an input instruction. -/
def wireItems : Instr → List WireItem
  | .cr => []
  | .escUp _ => []
  | .escDown _ => []
  | .escRight _ => []
  | .escLeft _ => []
  | .escNone _ _ => []
  | .del => []
  | .glyph _ => []
  | .exitSleep => [.c opExitSleep]
  | .displayOn => [.c opDisplayOn]
  | .colAddrSet a b => .c opColAddrSet :: dataItems (boundBytes a b)
  | .rowAddrSet a b => .c opRowAddrSet :: dataItems (boundBytes a b)
  | .memWrite px => .c opMemWrite :: dataItems (px.flatMap pixelBytes)
  | .memAccessCtrl p => [.c opMemAccessCtrl, .d p]

/-- The encoding of an instruction at its own level. -/
def encode (i : Instr) : Encoded :=
  match i.level with
  | .input => .stream (streamBytes i)
  | .wire => .wire (wireItems i)

/-- Whether a byte is one of the six wire opcodes (30_encoding.md R88). -/
def isWireOpcode (b : Byte) : Bool :=
  b == opExitSleep || b == opDisplayOn || b == opColAddrSet || b == opRowAddrSet || b == opMemWrite ||
    b == opMemAccessCtrl

/-- The bytes of a table word: its first byte is the most significant one (30_encoding.md R82, `W = b1 ++ b2 ++ b3`). -/
def tableBytes (nbits w : Nat) : List Byte :=
  (List.range (nbits / 8)).map fun k => BitVec.ofNat 8 (w >>> (8 * (nbits / 8 - 1 - k)))

/-- The parameter bytes, all zero, of a wire command of which the table gives the opcode byte only; the pixel stream of
`MEM_WRITE`, which may have any length (30_encoding.md R87), is empty (assumption 14). -/
def zeroParameters (op : Byte) : List Byte :=
  if op = opColAddrSet ∨ op = opRowAddrSet then [0, 0, 0, 0]
  else if op = opMemAccessCtrl then [0]
  else []

/-- The instruction of a table word. The table lists both levels in one list; its catch-all row `GLYPH` is tried after
every other row, so a word of one byte that is a wire opcode is that wire command (assumption 13).

DESIGN CHOICE (assumption 26), for words that are no whole row of the table, of which the spec says nothing: bytes that are
missing are zeros, so that the one byte 1B is `ESC_NONE 0 0`, and bytes after the first instruction are dropped, so that a word
of three bytes whose first is not 27 is the instruction of its first byte. -/
def decodeTableWord (nbits w : Nat) : Option Instr :=
  match tableBytes nbits w with
  | [] => none
  | [b] =>
    if isWireOpcode b then
      match decodeWire (.c b :: dataItems (zeroParameters b)) with
      | .ok (i, _) => some i
      | .error _ => none
    else
      match decodeStream [b, 0, 0] with
      | .ok (i, _) => some i
      | .error _ => none
  | bs =>
    match decodeStream (bs ++ [0, 0]) with
    | .ok (i, _) => some i
    | .error _ => none

end Sys2Proof
end

