-- ==== Sys2Proof/Machine/State.lean ====
section
/-! DEFINITION. The state of the machine as plain data: the engine, the SPI transport, the serial input and the display
controller (10_state.md), with the reset values of 10_state.md R37. -/

namespace Sys2Proof.Machine

/-- The primitives DisplayProtocol is made of (00_scope.md R17, 41_display_protocol.md R121 to R124). -/
inductive Prim where
  /-- `set_dc(m)`. -/
  | dc (m : Mode)
  /-- `set_cs(l)`. -/
  | cs (l : Level)
  /-- `TX(b)`. -/
  | tx (b : Byte)
  /-- `wait_drained()`. -/
  | drain
deriving DecidableEq, Repr

/-- The observable events of 00_scope.md R15. -/
inductive Event where
  | rx (b : Byte)
  | dc (m : Mode)
  | cs (l : Level)
  | tx (b : Byte)
  | drain
deriving DecidableEq, Repr

/-- `tsm.phase` (10_state.md R25). -/
inductive Phase where
  | normal
  | escapeSeen
deriving DecidableEq, Repr

/-- What an arm of the dispatch does to the cursor (43_terminal_state_machine.md R161 to R169). -/
inductive Motion where
  /-- `row + 1`, `col <- 0` (`CR`). -/
  | newline
  /-- `row − 1` (`ESC_UP`). -/
  | up
  /-- `row + 1` (`ESC_DOWN`). -/
  | down
  /-- `col + 1` (`ESC_RIGHT`, `GLYPH`). -/
  | right
  /-- `col − 1` (`ESC_LEFT`, `DEL`). -/
  | left
  /-- No motion (`ESC_NONE`). -/
  | stay
deriving DecidableEq, Repr

/-- `seq`, the position of the control flow in the loop (10_state.md R26). The position inside an operation, with the
loop counters of R30, is the list of primitives not yet executed, `State.todo`. -/
inductive Seq where
  /-- `INIT`: the start-up commands not yet begun. -/
  | init (commands : List Instr)
  /-- `S1`, the highlight not begun. -/
  | s1
  /-- `S1`, the highlight begun: done once `todo` is empty. -/
  | s1Draw
  /-- `S2`, wait point W0. -/
  | s2
  /-- `S3`, the erase begun, `b1` held for the dispatch. -/
  | s3 (b1 : Byte)
  /-- `S4`, the escape arm receiving: W1 or W2 by `escHave`. -/
  | s4Wait
  /-- `S4`, the arm's draw begun, its motion still to be made. -/
  | s4 (m : Motion)
  /-- `S5`, the wrap-around still to be applied. -/
  | s5
deriving DecidableEq, Repr

/-- What the transport does once its schedule is used up (assumption 3). -/
inductive Pace where
  /-- Every byte is delivered at once. -/
  | prompt
  /-- A byte is delivered only when the engine waits for it. -/
  | lazy
  /-- Nothing is delivered any more (93_implementation_defined.md U2). -/
  | stalled
deriving DecidableEq, Repr

/-- The SPI transport (20_memory.md R62 to R66). -/
structure Spi where
  /-- `spi.q`, oldest first, each byte with the mode current when it was handed over. -/
  q        : List WireItem
  /-- How many deliveries follow each coming primitive or poll of the engine. -/
  sched    : List Nat
  /-- What happens after the schedule. -/
  pace     : Pace
  /-- `TRANSPORT_DC_COHERENT` (20_memory.md R66). -/
  coherent : Bool
deriving DecidableEq, Repr

/-- The registers of the reference controller (10_state.md R32, R33). -/
structure Panel where
  xs    : Bound
  xe    : Bound
  ys    : Bound
  ye    : Bound
  mac   : Byte
  sleep : Bool
  on    : Bool
  /-- Nothing of the present run has been taken yet: what `cmd`, `idx` and `buf` hold is unspecified and does not matter
  (10_state.md R37, 90_conflicts.md C11). -/
  fresh : Bool
  cmd   : Option Byte
  idx   : Nat
  /-- The parameters p0, p1, … received so far (R57), or the pixel assembly buffer (R60). -/
  buf   : List Byte
  px    : Nat
  py    : Nat
  /-- `pan.frame`: (byte address, byte), addresses strictly rising, nothing listed where nothing was stored. -/
  frame : List Host.Cell
deriving DecidableEq, Repr

/-- The ways to leave what 20_memory.md R56 to R60 define (20_memory.md R61, 93_implementation_defined.md U4). -/
inductive PanelLoss where
  /-- An opcode other than the six. -/
  | unknownOpcode
  /-- A command byte where the previous command's parameters were not complete, or its burst did not fill its window. -/
  | cutShort
  /-- A data byte with no current command, or before the first command of the run. -/
  | noCommand
  /-- More data bytes than the command's parameters. -/
  | extraData
  /-- A memory write into a window with start above end or outside the controller's memory. -/
  | badWindow
  /-- A pixel after the window's last row. -/
  | pastWindow
  /-- A pixel while the controller sleeps. -/
  | asleep
deriving DecidableEq, Repr

/-- The controller: live, or lost, which is to say that the spec gives it no value any more (20_memory.md R61). -/
inductive PanelState where
  | live (p : Panel)
  | lost (why : PanelLoss)
deriving DecidableEq, Repr

/-- The machine. `INVENTORY.md` gives for each field the rule that names it. -/
structure State where
  cfg     : Config
  /-- `cur.row`. -/
  row     : Int
  /-- `cur.col`. -/
  col     : Int
  /-- `tsm.phase`. -/
  phase   : Phase
  /-- `tsm.esc_have`. -/
  escHave : Fin 2
  seq     : Seq
  todo    : List Prim
  /-- `dp.dc`. -/
  dc      : Mode
  /-- `dp.cs`. -/
  cs      : Level
  /-- `in`, the bytes not yet received. -/
  input   : List Byte
  /-- `ip`, the number of bytes received (10_state.md R24). -/
  ip      : Nat
  spi     : Spi
  pan     : PanelState
  /-- The events so far, newest first (the model's own history, assumption 11). -/
  trace   : List Event
  /-- The items the controller took so far, newest first (the model's own history, assumption 11). -/
  seen    : List WireItem
  /-- The external resets so far: the counter that the open values of a run are drawn at (assumption 25). -/
  resets  : Nat
deriving DecidableEq, Repr

/-- The set of exception causes is empty (60_exceptions.md R190): no constructor, nobody raises one, safe. -/
inductive Fault where
deriving DecidableEq, Repr

/-- Why the machine has no meaning to give. -/
inductive Refusal where
  /-- Raised by `exec` alone, for an instruction without a meaning yet; safe. -/
  | notModelled (mnemonic : String)
  /-- Raised by a draw operation on a cell outside 30 × 53 (42_pixel_streamer.md R148, 93_implementation_defined.md
  U13); no state that meets the cursor invariant raises it; safe. -/
  | drawOutsideGrid
deriving DecidableEq, Repr

/-- The controller before its first command: every value unspecified by 10_state.md R37 and named in assumption 8, the
frame without any value (assumption 9). -/
def Panel.reset : Panel where
  xs    := 0
  xe    := 0
  ys    := 0
  ye    := 0
  mac   := 0
  sleep := false
  on    := false
  fresh := true
  cmd   := none
  idx   := 0
  buf   := []
  px    := 0
  py    := 0
  frame := []

/-- The transport at reset: empty (10_state.md R37, 70_reset_and_hazards.md R218); the environment as assumptions 3 and 4
name it. -/
def Spi.reset : Spi where
  q        := []
  sched    := []
  pace     := .prompt
  coherent := true

/-- The machine right after reset (10_state.md R37), about to execute `initializationSequence` (70_reset_and_hazards.md
R217); `dp.dc` unspecified there and named in assumption 7. -/
def State.reset : State where
  cfg     := Config.given
  row     := 0
  col     := 0
  phase   := .normal
  escHave := 0
  seq     := .init [.exitSleep, .displayOn, .memAccessCtrl 0xE0]
  todo    := []
  dc      := .cmd
  cs      := .high
  input   := []
  ip      := 0
  spi     := Spi.reset
  pan     := .live Panel.reset
  trace   := []
  seen    := []
  resets  := 0

end Sys2Proof.Machine
end

