-- ==== Sys2Proof/Machine/Ops.lean ====
section
/-! DEFINITION. The named operations over the state: arithmetic on the cursor (00_scope.md R14), the frame memory, the
two line primitives, receive, the control position, and the external reset. The engine takes no exception and returns
from none (60_exceptions.md R190, R195, R196), so there is no operation for either. -/

namespace Sys2Proof.Machine

/-- `GRID_ROWS` (00_scope.md R10). -/
def gridRows : Nat := 30

/-- `GRID_COLS`. -/
def gridCols : Nat := 53

/-- The floored modulo of 00_scope.md R14, for n > 0. -/
def emod (a : Int) (n : Nat) : Int := a % (n : Int)

/-- Reading one byte of the frame memory: no value where nothing was stored (10_state.md R37: unspecified). -/
def readCell : List Host.Cell → Nat → Option Byte
  | [], _ => none
  | (k, v) :: m, a => if a = k then some v else if a < k then none else readCell m a

/-- Writing one byte of the frame memory, keeping the addresses strictly rising. -/
def writeCell : List Host.Cell → Nat → Byte → List Host.Cell
  | [], a, b => [(a, b)]
  | (k, v) :: m, a, b =>
    if a < k then (a, b) :: (k, v) :: m
    else if a = k then (a, b) :: m
    else (k, v) :: writeCell m a b

/-- The canonical form of the frame memory: addresses strictly rising. An unlisted address reads as no value, so no entry
can equal what an unlisted address reads as. -/
def memoryWf : List Host.Cell → Bool
  | [] => true
  | [_] => true
  | (a, _) :: (b, w) :: m => decide (a < b) && memoryWf ((b, w) :: m)

/-- The address of byte k (0 blue, 1 green, 2 red) of the pixel at column x and row y (assumption 9; a window bound has
16 bits, so a column is below 65536). -/
def frameAddr (x y k : Nat) : Nat := 3 * (65536 * y + x) + k

/-- `MemWrite(FRAME, (x, y), 3, (B, G, R))` (00_scope.md R17). -/
def writePixel (m : List Host.Cell) (x y : Nat) (p : Pixel) : List Host.Cell :=
  writeCell (writeCell (writeCell m (frameAddr x y 0) p.blue) (frameAddr x y 1) p.green) (frameAddr x y 2) p.red

/-- The pixel at (x, y), if its three bytes were stored. -/
def readPixel (m : List Host.Cell) (x y : Nat) : Option Pixel :=
  match readCell m (frameAddr x y 0), readCell m (frameAddr x y 1), readCell m (frameAddr x y 2) with
  | some b, some g, some r => some ⟨b, g, r⟩
  | _, _, _ => none

/-- The frame memory of a controller, empty of knowledge once the controller is lost. -/
def PanelState.frame : PanelState → List Host.Cell
  | .live p => p.frame
  | .lost _ => []

/-- One byte of the frame memory as the machine knows it. -/
def State.frameByte (s : State) (a : Nat) : Option Byte := readCell s.pan.frame a

/-- One pixel of the frame memory as the machine knows it. -/
def State.framePixel (s : State) (x y : Nat) : Option Pixel := readPixel s.pan.frame x y

/-- `emit e` (00_scope.md R15). -/
def State.emit (e : Event) (s : State) : State := { s with trace := e :: s.trace }

/-- `set_dc(m)` (41_display_protocol.md R121): it acts at once and waits for nothing. -/
def State.setDc (m : Mode) (s : State) : State := { s with dc := m, trace := .dc m :: s.trace }

/-- `set_cs(l)` (41_display_protocol.md R122). -/
def State.setCs (l : Level) (s : State) : State := { s with cs := l, trace := .cs l :: s.trace }

/-- `b <- RX()` where `b` is the byte the stream gives (20_memory.md R65): the event, and the byte is consumed. -/
def State.receive (b : Byte) (s : State) : State :=
  { s with input := s.input.tail, ip := s.ip + 1, trace := .rx b :: s.trace }

/-- The control flow moves to position `q`. -/
def State.setSeq (q : Seq) (s : State) : State := { s with seq := q }

/-- The primitives still to be executed. -/
def State.setTodo (ps : List Prim) (s : State) : State := { s with todo := ps }

/-- Both cursor registers. -/
def State.setCursor (row col : Int) (s : State) : State := { s with row := row, col := col }

/-- `phase` and `esc_have`. -/
def State.setPhase (p : Phase) (have_ : Fin 2) (s : State) : State := { s with phase := p, escHave := have_ }

/-- A controller of which nothing is known (10_state.md R37: every register and the frame unspecified): open values, and no
byte of the frame listed (assumption 25). -/
def Panel.unknown (n : Nat) : Panel where
  xs    := BitVec.ofNat 16 (Config.openPanelRegister n 0)
  xe    := BitVec.ofNat 16 (Config.openPanelRegister n 1)
  ys    := BitVec.ofNat 16 (Config.openPanelRegister n 2)
  ye    := BitVec.ofNat 16 (Config.openPanelRegister n 3)
  mac   := BitVec.ofNat 8 (Config.openPanelRegister n 4)
  sleep := Config.openPanelRegister n 5 == 0
  on    := Config.openPanelRegister n 6 == 0
  fresh := true
  cmd   := if Config.openPanelRegister n 7 = 0 then none else some (BitVec.ofNat 8 (Config.openPanelRegister n 8))
  idx   := Config.openPanelRegister n 9
  buf   := (List.range (Config.openPanelRegister n 10)).map fun k => BitVec.ofNat 8 (Config.openPanelRegister n (13 + k))
  px    := Config.openPanelRegister n 11
  py    := Config.openPanelRegister n 12
  frame := []

/-- The controller when external reset number `n` begins a new run. The engine does not reset it (70_reset_and_hazards.md
R221): its registers, its settings and its frame stay. What command it was in cannot matter to the run, whose first wire
item is a command byte (10_state.md R37, 90_conflicts.md C11), so `fresh` is set. One that had left the path
the spec defines has unspecified registers and is handled like any other (R221). Assumption 25. -/
def PanelState.newRun (n : Nat) : PanelState → PanelState
  | .live p => .live { p with fresh := true }
  | .lost _ => .live (Panel.unknown n)

/-- The external reset (60_exceptions.md R204): the engine takes the values of 10_state.md R37 and a new run begins, the
transport is idle (70_reset_and_hazards.md R218), the host's bytes are left as they are, and the controller is in a new run
(`PanelState.newRun`). The level of the command/data line is not specified; it is left as it is. Assumption 21. -/
def State.externalReset (s : State) : State :=
  { s with
    row := 0, col := 0, phase := .normal, escHave := 0,
    seq := State.reset.seq, todo := [], cs := .high, ip := 0,
    spi := { s.spi with q := [] }, pan := s.pan.newRun (s.resets + 1), trace := [], seen := [], resets := s.resets + 1 }

end Sys2Proof.Machine
end

