-- ==== Sys2Proof/Machine/Operands.lean ====
section
/-! DEFINITION. Operand assembly: the glyph index (30_encoding.md R86), the font bit (40_glyph_font.md R116), the cell
rectangle (42_pixel_streamer.md R140), the pixel values (00_scope.md R10) and the third byte's motion (R163 to R167). -/

namespace Sys2Proof.Machine

/-- `g = b1 mod 32 = b1[4:0]` (30_encoding.md R86). -/
def glyphIndex (b1 : Byte) : GlyphIndex := b1.extractLsb' 0 5

/-- `MemRead(FONT, (g, c), 1)`, the byte `FONT[g][c]` (20_memory.md R51). -/
def fontByte (cfg : Config) (g : GlyphIndex) (c : Nat) : Byte := (cfg.font.getD g.toNat []).getD c 0

/-- `FontBit(g, r, c) = FONT[g][c][r]` (40_glyph_font.md R116). -/
def fontBit (cfg : Config) (g : GlyphIndex) (r c : Nat) : Bool := (fontByte cfg g c).getLsbD r

/-- The glyph `eraseCell` draws (42_pixel_streamer.md R145), `BLANK_GLYPH`. -/
def blankGlyph : GlyphIndex := 0

/-- `C_ON`. -/
def colorOn : Pixel := ⟨0x00, 0xFF, 0x00⟩

/-- `C_OFF`. -/
def colorOff : Pixel := ⟨0x00, 0x00, 0x00⟩

/-- `C_CURSOR`. -/
def colorCursor : Pixel := ⟨0x00, 0x00, 0xFF⟩

/-- The pixel for bit (r, c) of glyph g (42_pixel_streamer.md R143). -/
def glyphPixel (cfg : Config) (g : GlyphIndex) (r c : Nat) : Pixel :=
  if fontBit cfg g r c then colorOn else colorOff

/-- The 48 pixels of a glyph, bitmap row outer, bitmap column inner (42_pixel_streamer.md R142). -/
def glyphPixels (cfg : Config) (g : GlyphIndex) : List Pixel :=
  (List.range 8).flatMap fun r => (List.range 6).map fun c => glyphPixel cfg g r c

/-- The 48 pixels of the cursor block (42_pixel_streamer.md R144). -/
def cursorPixels : List Pixel := List.replicate 48 colorCursor

/-- The rectangle of a cell: first and last pixel column, first and last pixel row. -/
structure CellRect where
  colStart : Bound
  colEnd   : Bound
  rowStart : Bound
  rowEnd   : Bound
deriving DecidableEq, Repr

/-- `cellRect(row, col)` (42_pixel_streamer.md R140). -/
def cellRect (row col : Nat) : CellRect where
  colStart := BitVec.ofNat 16 (6 * col)
  colEnd   := BitVec.ofNat 16 (6 * col + 5)
  rowStart := BitVec.ofNat 16 (8 * row)
  rowEnd   := BitVec.ofNat 16 (8 * row + 7)

/-- The domain of the draw operations' cell (42_pixel_streamer.md R148). -/
def inGrid (row col : Int) : Bool :=
  decide (0 ≤ row) && decide (row < gridRows) && decide (0 ≤ col) && decide (col < gridCols)

/-- The motion the third byte of an escape sequence selects (43_terminal_state_machine.md R163 to R167). -/
def motionOf (b3 : Byte) : Motion :=
  if b3 = inUp then .up
  else if b3 = inDown then .down
  else if b3 = inRight then .right
  else if b3 = inLeft then .left
  else .stay

end Sys2Proof.Machine
end

