-- ==== Sys2Proof/Machine/Flags.lean ====
section
/-! DEFINITION. The engine has no flags (10_state.md R29): no instruction computes one. The status bits it polls are
functions of the transports' state (20_memory.md R63), and its wait points are functions of its position (10_state.md R25). -/

namespace Sys2Proof.Machine

/-- `spi.txe`, "transmit buffer empty": the transport can take a byte (20_memory.md R63). -/
def State.txe (s : State) : Bool := decide (s.spi.q.length < s.cfg.txDepth)

/-- `spi.bsy`, "busy": something is undelivered. -/
def State.bsy (s : State) : Bool := !s.spi.q.isEmpty

/-- Drained: transmit buffer empty and not busy (90_conflicts.md C4). -/
def State.drained (s : State) : Bool := s.txe && !s.bsy

/-- The serial receiver has a byte (10_state.md R29). -/
def State.byteAvailable (s : State) : Bool := !s.input.isEmpty

/-- The electrical level of the command/data line (10_state.md R27, parameter `DC_CMD_LEVEL`). -/
def State.dcLine (s : State) : Level :=
  match s.dc, s.cfg.dcCmdLevel with
  | .cmd, l => l
  | .data, .low => .high
  | .data, .high => .low

/-- The three wait points (10_state.md R25). -/
inductive WaitPoint where
  | w0
  | w1
  | w2
deriving DecidableEq, Repr

/-- The wait point the engine is at, if it is at one. -/
def State.waitPoint (s : State) : Option WaitPoint :=
  match s.todo, s.seq with
  | [], .s2 => some .w0
  | [], .s4Wait => if s.escHave = 0 then some .w1 else some .w2
  | _, _ => none

/-- The quiescent state of a run (43_terminal_state_machine.md R174): every byte consumed, blocked at a wait point, the
transport empty. -/
def State.quiescent (s : State) : Bool :=
  s.waitPoint.isSome && s.input.isEmpty && s.spi.q.isEmpty

end Sys2Proof.Machine
end

