-- ==== Sys2Proof/Machine/Panel.lean ====
section
/-! DEFINITION. The reference model of the display controller (20_memory.md R56 to R61): one item of what it takes at a
time. Off the path those rules define it is lost (R61, 93_implementation_defined.md U4). -/

namespace Sys2Proof.Machine

/-- The command the controller is in: none where nothing of the present run has been taken, whatever an earlier run left in
`pan.cmd` (10_state.md R37, 90_conflicts.md C11: it cannot matter). -/
def Panel.current (p : Panel) : Option Byte := if p.fresh then none else p.cmd

/-- Whether the current command has all its data bytes, so that another command may follow (30_encoding.md R87 for the
counts, 42_pixel_streamer.md R146 for a burst: the pointer stands just past its window and no pixel is half sent). -/
def Panel.complete (p : Panel) : Bool :=
  match p.current with
  | none => true
  | some op =>
    if op = opColAddrSet then p.idx == 4
    else if op = opRowAddrSet then p.idx == 4
    else if op = opMemAccessCtrl then p.idx == 1
    else if op = opMemWrite then p.buf.isEmpty && p.px == p.xs.toNat && p.py == p.ye.toNat + 1
    else p.idx == 0

/-- Whether the window is one a burst may be written into (20_memory.md R61: start not above end, inside the memory). -/
def Panel.windowOk (cfg : Config) (p : Panel) : Bool :=
  decide (p.xs ≤ p.xe) && decide (p.ys ≤ p.ye) &&
    decide (p.xe.toNat < cfg.panelCols) && decide (p.ye.toNat < cfg.panelRows)

/-- A new command takes over: `pan.cmd <- b`, `pan.idx <- 0`, nothing assembled yet (20_memory.md R56). -/
def Panel.latch (op : Byte) (p : Panel) : Panel := { p with fresh := false, cmd := some op, idx := 0, buf := [] }

/-- An item `C:op` (20_memory.md R56, R59, R60). -/
def panelCommand (cfg : Config) (op : Byte) (p : Panel) : PanelState :=
  if p.complete = false then .lost .cutShort
  else if op = opExitSleep then .live { p.latch op with sleep := false }
  else if op = opDisplayOn then .live { p.latch op with on := true }
  else if op = opColAddrSet then .live (p.latch op)
  else if op = opRowAddrSet then .live (p.latch op)
  else if op = opMemAccessCtrl then .live (p.latch op)
  else if op = opMemWrite then
    if p.windowOk cfg then .live { p.latch op with px := p.xs.toNat, py := p.ys.toNat } else .lost .badWindow
  else .lost .unknownOpcode

/-- The pointer after a pixel (20_memory.md R60): the next column, or the first column of the next row. -/
def Panel.advance (p : Panel) : Panel :=
  if p.px = p.xe.toNat then { p with px := p.xs.toNat, py := p.py + 1 } else { p with px := p.px + 1 }

/-- The controller stores a pixel at its pointer and moves the pointer (20_memory.md R60). -/
def Panel.store (v : Pixel) (p : Panel) : Panel :=
  { p with frame := writePixel p.frame p.px p.py v }.advance

/-- A payload byte of a memory write: pixels are grouped in threes (20_memory.md R60). -/
def panelPayload (b : Byte) (p : Panel) : PanelState :=
  if p.sleep then .lost .asleep
  else if p.ye.toNat < p.py then .lost .pastWindow
  else
    match p.buf with
    | [blue, green] => .live { p.store ⟨blue, green, b⟩ with buf := [], idx := p.idx + 1 }
    | _ => .live { p with buf := p.buf ++ [b], idx := p.idx + 1 }

/-- A parameter byte of a window command, its four bytes collected in `buf` (20_memory.md R57, R58). -/
def panelBound (set : Bound → Bound → Panel → Panel) (b : Byte) (p : Panel) : PanelState :=
  match p.buf with
  | [p0, p1, p2] => .live { set (boundOf p0 p1) (boundOf p2 b) p with buf := [p0, p1, p2, b], idx := p.idx + 1 }
  | [_, _, _, _] => .lost .extraData
  | _ => .live { p with buf := p.buf ++ [b], idx := p.idx + 1 }

/-- `pan.xs`, `pan.xe` (20_memory.md R57). -/
def Panel.setCols (a b : Bound) (p : Panel) : Panel := { p with xs := a, xe := b }

/-- `pan.ys`, `pan.ye` (20_memory.md R58). -/
def Panel.setRows (a b : Bound) (p : Panel) : Panel := { p with ys := a, ye := b }

/-- An item `D:b` by the rule of the current command (20_memory.md R56 to R60). -/
def panelData (b : Byte) (p : Panel) : PanelState :=
  match p.current with
  | none => .lost .noCommand
  | some op =>
    if op = opColAddrSet then panelBound Panel.setCols b p
    else if op = opRowAddrSet then panelBound Panel.setRows b p
    else if op = opMemAccessCtrl then
      if p.idx = 0 then .live { p with mac := b, idx := 1 } else .lost .extraData
    else if op = opMemWrite then panelPayload b p
    else .lost .extraData

/-- The controller takes one item (20_memory.md R56); once lost it stays lost. -/
def panelItem (cfg : Config) (w : WireItem) (ps : PanelState) : PanelState :=
  match ps with
  | .lost why => .lost why
  | .live p =>
    match w.mode with
    | .cmd => panelCommand cfg w.byte p
    | .data => panelData w.byte p

/-- The controller takes a list of items in order (20_memory.md R56, R64). -/
def panelItems (cfg : Config) : List WireItem → PanelState → PanelState
  | [], ps => ps
  | w :: ws, ps => panelItems cfg ws (panelItem cfg w ps)

end Sys2Proof.Machine
end

