-- ==== Sys2Proof/Machine/Transport.lean ====
section
/-! DEFINITION. The SPI transport (20_memory.md R62 to R66) and the execution of DisplayProtocol's primitives over it,
with their blocking points (60_exceptions.md R193). -/

namespace Sys2Proof.Machine

/-- The item the controller takes when a byte is delivered: under the mode of its hand-over if
`TRANSPORT_DC_COHERENT` holds, else under the line's present mode (20_memory.md R66). -/
def State.takenAs (s : State) (w : WireItem) : WireItem := if s.spi.coherent then w else ⟨s.dc, w.byte⟩

/-- `deliver` (20_memory.md R62): the head of the queue goes to the controller. -/
def State.deliver (s : State) : State :=
  match s.spi.q with
  | [] => s
  | w :: ws =>
    { s with
      spi := { s.spi with q := ws }
      pan := panelItem s.cfg (s.takenAs w) s.pan
      seen := s.takenAs w :: s.seen }

/-- `n` deliveries. -/
def deliverN : Nat → State → State
  | 0, s => s
  | n + 1, s => deliverN n s.deliver

/-- The rest of the environment's schedule. -/
def State.setSched (ns : List Nat) (s : State) : State := { s with spi := { s.spi with sched := ns } }

/-- What the environment does after a primitive of the engine (assumption 3). -/
def State.envTurn (s : State) : State :=
  match s.spi.sched with
  | n :: ns => deliverN n (s.setSched ns)
  | [] =>
    match s.spi.pace with
    | .prompt => deliverN s.spi.q.length s
    | .lazy => s
    | .stalled => s

/-- What the environment does while the engine waits for a byte (20_memory.md R64: a non-empty queue is eventually
delivered from, unless the transport is stalled). -/
def State.idleTurn (s : State) : State :=
  match s.spi.sched with
  | n :: ns => deliverN n (s.setSched ns)
  | [] =>
    match s.spi.pace with
    | .prompt => deliverN s.spi.q.length s
    | .lazy => deliverN s.spi.q.length s
    | .stalled => s

/-- Deliveries, at most `n`, until the awaited predicate holds. -/
def deliverUntil (ready : State → Bool) : Nat → State → State
  | 0, s => s
  | n + 1, s => if ready s then s else deliverUntil ready n s.deliver

/-- The engine spins on a status predicate (60_exceptions.md R193): each poll gives the environment a turn of its
schedule; after the schedule, bytes are delivered until the wait is over, or never (assumption 3). -/
def pollUntil (ready : State → Bool) : List Nat → State → State
  | [], s =>
    match s.spi.pace with
    | .prompt => deliverUntil ready s.spi.q.length s
    | .lazy => deliverUntil ready s.spi.q.length s
    | .stalled => s
  | n :: ns, s => if ready s then s else pollUntil ready ns (deliverN n (s.setSched ns))

/-- The state after the engine's polling for a status predicate. -/
def State.poll (ready : State → Bool) (s : State) : State := pollUntil ready s.spi.sched s

/-- `TX(b)` once the transport accepts: the byte joins the queue with the present mode (20_memory.md R62, R66). -/
def State.pushTx (b : Byte) (s : State) : State :=
  { s with spi := { s.spi with q := s.spi.q ++ [⟨s.dc, b⟩] }, trace := .tx b :: s.trace }

/-- How a run of primitives ends: executed, or blocked at one of them, where the control flow stays (60_exceptions.md
R193), or refused. -/
inductive Run where
  | done (s : State)
  | parked (s : State)
  | refused (r : Refusal)
deriving DecidableEq, Repr

/-- Going on after a run that was executed. -/
def Run.andThen (r : Run) (f : State → Run) : Run :=
  match r with
  | .done s => f s
  | .parked s => .parked s
  | .refused e => .refused e

/-- The outcome of a step: a blocked control flow is a state like any other, a hang is no fault (60_exceptions.md R193). -/
def Run.outcome : Run → Host.Outcome State Fault Refusal
  | .done s => .next s
  | .parked s => .next s
  | .refused e => .refused e

/-- One primitive (41_display_protocol.md R121 to R124, 00_scope.md R17): executed, or blocked after the polls the
environment answered. -/
def State.prim (p : Prim) (s : State) : Run :=
  match p with
  | .dc m => .done (s.setDc m).envTurn
  | .cs l => .done (s.setCs l).envTurn
  | .tx b =>
    let t := s.poll State.txe
    if t.txe then .done (t.pushTx b).envTurn else .parked t
  | .drain =>
    let t := s.poll State.drained
    if t.drained then .done (t.emit .drain).envTurn else .parked t

/-- Primitives in program order; at a blocked one the control flow stays, with that one and the rest still to do. -/
def runPrims : List Prim → State → Run
  | [], s => .done s
  | p :: ps, s =>
    match s.prim p with
    | .done t => runPrims ps t
    | .parked t => .parked (t.setTodo (p :: ps))
    | .refused e => .refused e

end Sys2Proof.Machine
end

