-- ==== Sys2Proof/Machine/Display.lean ====
section
/-! DEFINITION. DisplayProtocol (41_display_protocol.md): its five operations as the primitives they execute, and the
meanings of the six wire commands, each issued through them. -/

namespace Sys2Proof.Machine

/-- `MAC_PARAM` (30_encoding.md R92). -/
def macParam : Byte := 0xE0

/-- `sendCommand(opcode)` (41_display_protocol.md R123). -/
def sendCommand (op : Byte) : List Prim := [.dc .cmd, .cs .low, .tx op, .drain, .cs .high]

/-- `sendData(byte)` (41_display_protocol.md R124). -/
def sendData (b : Byte) : List Prim := [.dc .data, .cs .low, .tx b]

/-- `sendData` of several bytes in order. -/
def sendAll (bs : List Byte) : List Prim := bs.flatMap sendData

/-- `setAddressWindow(colStart, colEnd, rowStart, rowEnd)` (41_display_protocol.md R125). -/
def setAddressWindow (w : CellRect) : List Prim :=
  sendCommand opColAddrSet ++ sendAll (boundBytes w.colStart w.colEnd) ++
    (sendCommand opRowAddrSet ++ sendAll (boundBytes w.rowStart w.rowEnd))

/-- `beginMemoryWrite()` (41_display_protocol.md R126). -/
def beginMemoryWrite : List Prim := sendCommand opMemWrite

/-- `initializationSequence()` (41_display_protocol.md R127). -/
def initializationSequence : List Prim :=
  sendCommand opExitSleep ++ sendCommand opDisplayOn ++ sendCommand opMemAccessCtrl ++ sendData macParam

/-- The primitives that issue a command with its parameters or payload (30_encoding.md R87). -/
def issue (op : Byte) (params : List Byte) : List Prim := sendCommand op ++ sendAll params

/-- `EXIT_SLEEP` (41_display_protocol.md R128). -/
def execExitSleep (s : State) : Host.Outcome State Fault Refusal :=
  (runPrims (issue opExitSleep []) s).outcome

/-- `DISPLAY_ON` (41_display_protocol.md R129). -/
def execDisplayOn (s : State) : Host.Outcome State Fault Refusal :=
  (runPrims (issue opDisplayOn []) s).outcome

/-- `COL_ADDR_SET` (41_display_protocol.md R130). -/
def execColAddrSet (first last : Bound) (s : State) : Host.Outcome State Fault Refusal :=
  (runPrims (issue opColAddrSet (boundBytes first last)) s).outcome

/-- `ROW_ADDR_SET` (41_display_protocol.md R131). -/
def execRowAddrSet (first last : Bound) (s : State) : Host.Outcome State Fault Refusal :=
  (runPrims (issue opRowAddrSet (boundBytes first last)) s).outcome

/-- `MEM_WRITE` (41_display_protocol.md R132). -/
def execMemWrite (pixels : List Pixel) (s : State) : Host.Outcome State Fault Refusal :=
  (runPrims (issue opMemWrite (pixels.flatMap pixelBytes)) s).outcome

/-- `MEM_ACCESS_CTRL` (41_display_protocol.md R133). -/
def execMemAccessCtrl (param : Byte) (s : State) : Host.Outcome State Fault Refusal :=
  (runPrims (issue opMemAccessCtrl [param]) s).outcome

end Sys2Proof.Machine
end

