-- ==== Sys2Proof/Machine/Pixel.lean ====
section
/-! DEFINITION. PixelStreamer (42_pixel_streamer.md): the three draw operations, as the primitives they execute, or none
outside their domain (R148). -/

namespace Sys2Proof.Machine

/-- A draw operation: window set, memory write, burst (42_pixel_streamer.md R141, R144). -/
def drawCell (row col : Nat) (pixels : List Pixel) : List Prim :=
  setAddressWindow (cellRect row col) ++ beginMemoryWrite ++ sendAll (pixels.flatMap pixelBytes)

/-- `drawGlyphCell(row, col, g)` (42_pixel_streamer.md R141). -/
def drawGlyphCell (cfg : Config) (row col : Int) (g : GlyphIndex) : Option (List Prim) :=
  if inGrid row col then some (drawCell row.toNat col.toNat (glyphPixels cfg g)) else none

/-- `drawCursorCell(row, col)` (42_pixel_streamer.md R144). -/
def drawCursorCell (row col : Int) : Option (List Prim) :=
  if inGrid row col then some (drawCell row.toNat col.toNat cursorPixels) else none

/-- `eraseCell(row, col)` (42_pixel_streamer.md R145). -/
def eraseCell (cfg : Config) (row col : Int) : Option (List Prim) := drawGlyphCell cfg row col blankGlyph

/-- Executing a draw operation; outside its domain the spec gives no meaning (93_implementation_defined.md U13). -/
def draw (op : Option (List Prim)) (s : State) : Run :=
  match op with
  | some ps => runPrims ps s
  | none => .refused .drawOutsideGrid

end Sys2Proof.Machine
end

