-- ==== Sys2Proof/Machine/Terminal.lean ====
section
/-! DEFINITION. TerminalStateMachine (43_terminal_state_machine.md): the steps of the loop, the arms of the dispatch, the
wrap-around, and the meanings of the eight input instructions, each one iteration from wait point W0. -/

namespace Sys2Proof.Machine

/-- The motion of an arm (43_terminal_state_machine.md R161 to R169), which ends step 4. -/
def State.move (m : Motion) (s : State) : State :=
  match m with
  | .newline => (s.setCursor (s.row + 1) 0).setSeq .s5
  | .up => (s.setCursor (s.row - 1) s.col).setSeq .s5
  | .down => (s.setCursor (s.row + 1) s.col).setSeq .s5
  | .right => (s.setCursor s.row (s.col + 1)).setSeq .s5
  | .left => (s.setCursor s.row (s.col - 1)).setSeq .s5
  | .stay => s.setSeq .s5

/-- The row after the carry of step 5 (43_terminal_state_machine.md R170). -/
def carriedRow (row col : Int) : Int :=
  if col ≥ gridCols then row + 1 else if col < 0 then row - 1 else row

/-- `wrap()`, step 5 (43_terminal_state_machine.md R170): one carry, then the two reductions. -/
def State.wrap (s : State) : State :=
  (s.setCursor (emod (carriedRow s.row s.col) gridRows) (emod s.col gridCols)).setSeq .s1

/-- Steps 2 and 3 (43_terminal_state_machine.md R158, R159): `b1` is received, the highlight erased where it was drawn. -/
def beginIteration (b1 : Byte) (s : State) : Run :=
  draw (eraseCell s.cfg s.row s.col) ((s.receive b1).setSeq (.s3 b1))

/-- An arm's draw of step 4, then its motion and step 5. -/
def drawThenMove (op : Option (List Prim)) (m : Motion) (s : State) : Run :=
  (draw op (s.setSeq (.s4 m))).andThen fun t => .done (t.move m).wrap

/-- The `CR` arm (43_terminal_state_machine.md R161). -/
def armCr (s : State) : Run := drawThenMove (eraseCell s.cfg s.row s.col) .newline s

/-- The `DEL` arm (43_terminal_state_machine.md R168). -/
def armDel (s : State) : Run := drawThenMove (eraseCell s.cfg s.row s.col) .left s

/-- The `GLYPH` arm (43_terminal_state_machine.md R169). -/
def armGlyph (b1 : Byte) (s : State) : Run :=
  drawThenMove (drawGlyphCell s.cfg s.row s.col (glyphIndex b1)) .right s

/-- The escape arm begins (43_terminal_state_machine.md R162): wait point W1. -/
def State.enterEscape (s : State) : State := (s.setPhase .escapeSeen 0).setSeq .s4Wait

/-- The second byte is received and discarded: wait point W2. -/
def State.receiveSecond (b2 : Byte) (s : State) : State := (s.receive b2).setPhase .escapeSeen 1

/-- The third byte is received: the phase is `Normal` again. -/
def State.receiveThird (b3 : Byte) (s : State) : State := (s.receive b3).setPhase .normal 0

/-- The rest of the escape arm once both bytes are there: the erase and the motion (43_terminal_state_machine.md R162). -/
def armEscape (m : Motion) (s : State) : Run := drawThenMove (eraseCell s.cfg s.row s.col) m s

/-- The two receives of an escape sequence whose bytes are there (43_terminal_state_machine.md R162). -/
def receiveEscape (b2 b3 : Byte) (s : State) : State := (s.enterEscape.receiveSecond b2).receiveThird b3

/-- `CR` (43_terminal_state_machine.md R161). -/
def execCr (s : State) : Host.Outcome State Fault Refusal :=
  ((beginIteration inCr s).andThen armCr).outcome

/-- `DEL` (43_terminal_state_machine.md R168). -/
def execDel (s : State) : Host.Outcome State Fault Refusal :=
  ((beginIteration inDel s).andThen armDel).outcome

/-- `GLYPH` (43_terminal_state_machine.md R169). -/
def execGlyph (b1 : Byte) (s : State) : Host.Outcome State Fault Refusal :=
  ((beginIteration b1 s).andThen (armGlyph b1)).outcome

/-- `ESC_UP` (43_terminal_state_machine.md R163). -/
def execEscUp (b2 : Byte) (s : State) : Host.Outcome State Fault Refusal :=
  ((beginIteration inEsc s).andThen fun t => armEscape .up (receiveEscape b2 inUp t)).outcome

/-- `ESC_DOWN` (43_terminal_state_machine.md R164). -/
def execEscDown (b2 : Byte) (s : State) : Host.Outcome State Fault Refusal :=
  ((beginIteration inEsc s).andThen fun t => armEscape .down (receiveEscape b2 inDown t)).outcome

/-- `ESC_RIGHT` (43_terminal_state_machine.md R165). -/
def execEscRight (b2 : Byte) (s : State) : Host.Outcome State Fault Refusal :=
  ((beginIteration inEsc s).andThen fun t => armEscape .right (receiveEscape b2 inRight t)).outcome

/-- `ESC_LEFT` (43_terminal_state_machine.md R166). -/
def execEscLeft (b2 : Byte) (s : State) : Host.Outcome State Fault Refusal :=
  ((beginIteration inEsc s).andThen fun t => armEscape .left (receiveEscape b2 inLeft t)).outcome

/-- `ESC_NONE` (43_terminal_state_machine.md R167). -/
def execEscNone (b2 b3 : Byte) (s : State) : Host.Outcome State Fault Refusal :=
  ((beginIteration inEsc s).andThen fun t => armEscape .stay (receiveEscape b2 b3 t)).outcome

end Sys2Proof.Machine
end

