-- ==== Sys2Proof/Machine/Dispatch.lean ====
section
/-! DEFINITION. The meaning of an instruction: one arm for each constructor. -/

namespace Sys2Proof.Machine

def exec (i : Instr) (s : State) : Host.Outcome State Fault Refusal :=
  match i with
  | .cr => Sys2Proof.Machine.execCr s
  | .escUp b2 => Sys2Proof.Machine.execEscUp b2 s
  | .escDown b2 => Sys2Proof.Machine.execEscDown b2 s
  | .escRight b2 => Sys2Proof.Machine.execEscRight b2 s
  | .escLeft b2 => Sys2Proof.Machine.execEscLeft b2 s
  | .escNone b2 b3 => Sys2Proof.Machine.execEscNone b2 b3 s
  | .del => Sys2Proof.Machine.execDel s
  | .glyph b1 => Sys2Proof.Machine.execGlyph b1 s
  | .exitSleep => Sys2Proof.Machine.execExitSleep s
  | .displayOn => Sys2Proof.Machine.execDisplayOn s
  | .colAddrSet first last => Sys2Proof.Machine.execColAddrSet first last s
  | .rowAddrSet first last => Sys2Proof.Machine.execRowAddrSet first last s
  | .memWrite pixels => Sys2Proof.Machine.execMemWrite pixels s
  | .memAccessCtrl param => Sys2Proof.Machine.execMemAccessCtrl param s

end Sys2Proof.Machine
end

