-- ==== Sys2Proof/Machine/Loop.lean ====
section
/-! DEFINITION. The positions of the loop between instructions (43_terminal_state_machine.md R156): start of the loop,
highlight, waits, and the continuation of an iteration that was blocked or whose input came in parts. -/

namespace Sys2Proof.Machine

/-- The start of `terminal_loop()` (43_terminal_state_machine.md R156). -/
def State.enterLoop (s : State) : State := ((s.setCursor 0 0).setPhase .normal 0).setSeq .s1

/-- Step 1 (43_terminal_state_machine.md R157): the highlight, then wait point W0. -/
def highlight (s : State) : Run :=
  (draw (drawCursorCell s.row s.col) (s.setSeq .s1Draw)).andThen fun t => .done (t.setSeq .s2)

/-- Step 4 for a `b1` whose step 3 has ended (43_terminal_state_machine.md R160). -/
def dispatch (b1 : Byte) (s : State) : Run :=
  if b1 = inCr then armCr s
  else if b1 = inEsc then .done s.enterEscape
  else if b1 = inDel then armDel s
  else armGlyph b1 s

/-- Wait points W1 and W2 (43_terminal_state_machine.md R162): one byte is received if there is one. -/
def escapeWait (s : State) : Run :=
  match s.input with
  | [] => .done s.idleTurn
  | b :: _ => if s.escHave = 0 then .done (s.receiveSecond b) else armEscape (motionOf b) (s.receiveThird b)

/-- Wait point W0 with no whole instruction in the stream (43_terminal_state_machine.md R158, R162, R174): idle with no
byte; with a lone escape byte, steps 2 and 3 and then the wait of the escape arm. -/
def partialIteration (s : State) : Run :=
  match s.input with
  | [] => .done s.idleTurn
  | b1 :: _ => (beginIteration b1 s).andThen (dispatch b1)

/-- The engine goes on with the primitives it was blocked in. -/
def resume (s : State) : Run := runPrims s.todo (s.setTodo [])

/-- Where step finds its instruction: the next command of the start-up sequence (INIT), or the front of the serial stream
(wait point W0); nowhere else (10_state.md R24, R26). -/
def fetch (s : State) : Option (Instr × State) :=
  match s.todo, s.seq with
  | [], .init (c :: cs) => some (c, s.setSeq (.init cs))
  | [], .s2 =>
    match decodeStream s.input with
    | .ok (i, _) => some (i, s)
    | .error _ => none
  | _, _ => none

/-- The step where no instruction is fetched. -/
def between (s : State) : Run :=
  match s.todo with
  | _ :: _ => resume s
  | [] =>
    match s.seq with
    | .init _ => .done s.enterLoop
    | .s1 => highlight s
    | .s1Draw => .done (s.setSeq .s2)
    | .s2 => partialIteration s
    | .s3 b1 => dispatch b1 s
    | .s4Wait => escapeWait s
    | .s4 m => .done (s.move m).wrap
    | .s5 => .done s.wrap

/-- A table word placed where step fetches: an input instruction at the front of the serial stream with the engine at
wait point W0, a wire command as the one start-up command left (assumptions 12, 15). -/
def placeWord (s : State) (nbits w : Nat) : State :=
  match decodeTableWord nbits w with
  | none => s
  | some i =>
    match i.level with
    | .input =>
      { s with seq := .s2, todo := [], phase := .normal, escHave := 0, input := streamBytes i ++ s.input }
    | .wire => { s with seq := .init [i], todo := [] }

end Sys2Proof.Machine
end

