-- ==== Sys2Proof/Machine/Step.lean ====
section
/-! DEFINITION. One step of the machine. -/

namespace Sys2Proof.Machine

/-- One step: the instruction that is fetched, or what the loop does between instructions. -/
def step (s : State) : Host.Outcome State Fault Refusal :=
  match fetch s with
  | some (i, t) => exec i t
  | none => (between s).outcome

/-- `s` with a table word where its next step fetches. -/
def State.withFetchWord (s : State) (nbits w : Nat) : State := placeWord s nbits w

end Sys2Proof.Machine
end

