-- ==== Sys2Proof/Machine/Font.lean ====
section
/-! DEFINITION. GlyphFont: the construction of the font from glyph art (40_glyph_font.md R111 to R113). It happens at build
time; the machine's font is a parameter (40_glyph_font.md R118). -/

namespace Sys2Proof.Machine

/-- The textual art of one glyph: its lines, each a list of characters (40_glyph_font.md R111). -/
abbrev GlyphArt := List (List Char)

/-- The shape an art must have, 8 lines of 6 characters (40_glyph_font.md R113). -/
def artShape (art : GlyphArt) : Bool := art.length == 8 && art.all fun line => line.length == 6

/-- `on(g, r, c)`: the mark at line r, position c is not blank (40_glyph_font.md R111). -/
def artOn (art : GlyphArt) (r c : Nat) : Bool := (art.getD r []).getD c ' ' != ' '

/-- The sum over the rows of one column of art (40_glyph_font.md R112). -/
def artColumn (art : GlyphArt) (c : Nat) : Byte :=
  (List.range 8).foldl (fun acc r => acc ||| (if artOn art r c then (1 : Byte) <<< r else 0)) 0

/-- The six bytes of a glyph, or the build-time error (40_glyph_font.md R112, R113). -/
def buildGlyph (art : GlyphArt) : Option (List Byte) :=
  if artShape art then some ((List.range 6).map (artColumn art)) else none

/-- The font built from its 32 glyph definitions, or the build-time error. -/
def buildFont (arts : List GlyphArt) : Option (List (List Byte)) :=
  if arts.length = 32 then arts.mapM buildGlyph else none

end Sys2Proof.Machine
end

