-- ==== Sys2Proof/Machine/Trace.lean ====
section
/-! DEFINITION. Reading a trace (00_scope.md R15, R16): its reduced form, its wire view, and its counts. -/

namespace Sys2Proof.Machine

/-- The trace in the order the events were issued. -/
def State.events (s : State) : List Event := s.trace.reverse

/-- The event a primitive emits (00_scope.md R17). -/
def Prim.event : Prim → Event
  | .dc m => .dc m
  | .cs l => .cs l
  | .tx b => .tx b
  | .drain => .drain

/-- `reduce(t)` (00_scope.md R15), from the levels the lines had before: `none` where no level is known, so that the first
`DC` event of a run is kept (70_reset_and_hazards.md R220). -/
def reduceFrom (dc : Option Mode) (cs : Option Level) : List Event → List Event
  | [] => []
  | .dc m :: t => if dc = some m then reduceFrom dc cs t else .dc m :: reduceFrom (some m) cs t
  | .cs l :: t => if cs = some l then reduceFrom dc cs t else .cs l :: reduceFrom dc (some l) t
  | .rx b :: t => .rx b :: reduceFrom dc cs t
  | .tx b :: t => .tx b :: reduceFrom dc cs t
  | .drain :: t => .drain :: reduceFrom dc cs t

/-- The reduced trace of a run from reset (70_reset_and_hazards.md R220). -/
def reduce (t : List Event) : List Event := reduceFrom none (some .high) t

/-- `wire(t)` (00_scope.md R16), each transmitted byte with the mode of the most recent `DC` event, `m` before the first. -/
def wireFrom (m : Mode) : List Event → List WireItem
  | [] => []
  | .dc m' :: t => wireFrom m' t
  | .tx b :: t => ⟨m, b⟩ :: wireFrom m t
  | .cs _ :: t => wireFrom m t
  | .rx _ :: t => wireFrom m t
  | .drain :: t => wireFrom m t

/-- The mode after a trace: that of its last `DC` event, or `m`. -/
def modeAfter (m : Mode) : List Event → Mode
  | [] => m
  | .dc m' :: t => modeAfter m' t
  | .tx _ :: t => modeAfter m t
  | .cs _ :: t => modeAfter m t
  | .rx _ :: t => modeAfter m t
  | .drain :: t => modeAfter m t

/-- The chip-select level after a trace: that of its last `CS` event, or `l`. -/
def levelAfter (l : Level) : List Event → Level
  | [] => l
  | .cs l' :: t => levelAfter l' t
  | .dc _ :: t => levelAfter l t
  | .tx _ :: t => levelAfter l t
  | .rx _ :: t => levelAfter l t
  | .drain :: t => levelAfter l t

/-- The bytes handed to the transport. -/
def txBytes : List Event → List Byte
  | [] => []
  | .tx b :: t => b :: txBytes t
  | .dc _ :: t => txBytes t
  | .cs _ :: t => txBytes t
  | .rx _ :: t => txBytes t
  | .drain :: t => txBytes t

/-- The bytes received. -/
def rxBytes : List Event → List Byte
  | [] => []
  | .rx b :: t => b :: rxBytes t
  | .dc _ :: t => rxBytes t
  | .cs _ :: t => rxBytes t
  | .tx _ :: t => rxBytes t
  | .drain :: t => rxBytes t

/-- The number of drains. -/
def drains : List Event → Nat
  | [] => 0
  | .drain :: t => drains t + 1
  | .dc _ :: t => drains t
  | .cs _ :: t => drains t
  | .tx _ :: t => drains t
  | .rx _ :: t => drains t

end Sys2Proof.Machine
end

