-- ==== Sys2Proof/Safety.lean ====
section
/-! DEFINITION. The terms statements are written in: when an instruction completes, the invariants of a run, the cursor table
of 43_terminal_state_machine.md R173, the cut of a stream into instructions, and the picture of a cell. -/

namespace Sys2Proof.Machine

/-- The fairness premise of 20_memory.md R64: a non-empty queue is eventually delivered from. -/
abbrev State.Fair (s : State) : Prop := s.spi.pace ≠ .stalled

/-- What a run of DisplayProtocol's primitives needs to be executed: fairness and a transport that can hold a byte
(`TX_DEPTH ≥ 1`, 00_scope.md R12). -/
abbrev State.CanTransmit (s : State) : Prop := s.Fair ∧ 1 ≤ s.cfg.txDepth

/-- What an iteration needs to be executed: that, and the cursor invariant (10_state.md R22). -/
abbrev State.CanDraw (s : State) : Prop := inGrid s.row s.col = true ∧ s.CanTransmit

/-- The engine stands at the start of step 1, the cursor phase `Normal`, nothing left to execute: where an iteration ends. -/
abbrev State.AtLoopTop (s : State) : Prop := s.seq = .s1 ∧ s.todo = [] ∧ s.phase = .normal ∧ s.escHave = 0

/-- The engine stands at wait point W0 (10_state.md R25), the phase `Normal`: where an input instruction begins. -/
abbrev State.AtW0 (s : State) : Prop := s.seq = .s2 ∧ s.todo = [] ∧ s.phase = .normal ∧ s.escHave = 0

/-- What every completed iteration of `n` bytes leaves: the engine at the top of the loop, both lines as the last `sendData`
left them, the `n` bytes consumed, the configuration and the environment's nature unchanged. -/
structure IterationEnds (s t : State) (n : Nat) : Prop where
  top      : t.AtLoopTop
  dc       : t.dc = .data
  cs       : t.cs = .low
  input    : t.input = s.input.drop n
  ip       : t.ip = s.ip + n
  cfg      : t.cfg = s.cfg
  resets   : t.resets = s.resets
  pace     : t.spi.pace = s.spi.pace
  coherent : t.spi.coherent = s.spi.coherent

/-- `t` differs from `s` in what DisplayProtocol and the environment own: the lines, the transport, the controller, and the
histories. -/
structure SameTerminal (s t : State) : Prop where
  cfg     : t.cfg = s.cfg
  resets  : t.resets = s.resets
  row     : t.row = s.row
  col     : t.col = s.col
  phase   : t.phase = s.phase
  escHave : t.escHave = s.escHave
  seq     : t.seq = s.seq
  todo    : t.todo = s.todo
  input   : t.input = s.input
  ip      : t.ip = s.ip

/-- The controller once every queued byte has been delivered under `TRANSPORT_DC_COHERENT` (20_memory.md R66). -/
def State.settled (s : State) : PanelState := panelItems s.cfg s.spi.q s.pan

/-- The width of the controller's window. -/
def Panel.width (p : Panel) : Nat := p.xe.toNat - p.xs.toNat + 1

/-- The height of the controller's window. -/
def Panel.height (p : Panel) : Nat := p.ye.toNat - p.ys.toNat + 1

/-- A controller that can take a draw operation: awake, and done with its previous command. -/
abbrev Panel.Ready (p : Panel) : Prop := p.complete = true ∧ p.sleep = false

/-- The premises of a statement about the picture (20_memory.md R66, 00_scope.md R12): coherence, a controller memory that
holds the addressed rectangle, and, once everything queued is delivered, a live controller `p` ready for a command. -/
abbrev State.PictureOk (s : State) (p : Panel) : Prop :=
  s.spi.coherent = true ∧ s.cfg.wf = true ∧ s.settled = .live p ∧ p.Ready

/-- The events of a draw operation of `pixels` into a cell (42_pixel_streamer.md R141, R144). -/
def drawEvents (row col : Int) (pixels : List Pixel) : List Event :=
  (drawCell row.toNat col.toNat pixels).map Prim.event

/-- What the arm of an input instruction draws into the current cell: `GLYPH` its glyph, every other instruction the blank one
(43_terminal_state_machine.md R161 to R169). A wire command draws nothing. -/
def armPixels (cfg : Config) : Instr → List Pixel
  | .cr => glyphPixels cfg 0
  | .escUp _ => glyphPixels cfg 0
  | .escDown _ => glyphPixels cfg 0
  | .escRight _ => glyphPixels cfg 0
  | .escLeft _ => glyphPixels cfg 0
  | .escNone _ _ => glyphPixels cfg 0
  | .del => glyphPixels cfg 0
  | .glyph b1 => glyphPixels cfg (BitVec.ofNat 5 (b1.toNat % 32))
  | .exitSleep => []
  | .displayOn => []
  | .colAddrSet _ _ => []
  | .rowAddrSet _ _ => []
  | .memWrite _ => []
  | .memAccessCtrl _ => []

/-- The last thing that was emitted between `s` and `t` is a draw operation of `pixels` into the cell that is the cursor of `s`. -/
abbrev EndsWithDraw (s t : State) (pixels : List Pixel) : Prop :=
  ∃ es, t.events = s.events ++ es ++ drawEvents s.row s.col pixels

/-- The address of a byte of the cell's rectangle (20_memory.md R53). -/
abbrev InCell (row col : Int) (a : Nat) : Prop :=
  ∃ r < 8, ∃ c < 6, ∃ k < 3, a = frameAddr (6 * col.toNat + c) (8 * row.toNat + r) k

/-- The cell shows `colour r c` at bitmap row r and column c, and every byte of the frame outside the cell reads as in the
frame `before` (42_pixel_streamer.md R147). -/
def CellShows (before after : List Host.Cell) (row col : Int) (colour : Nat → Nat → Pixel) : Prop :=
  (∀ r < 8, ∀ c < 6, readPixel after (6 * col.toNat + c) (8 * row.toNat + r) = some (colour r c)) ∧
    ∀ a, ¬ InCell row col a → readCell after a = readCell before a

/-- The controller registers a draw operation leaves alone. -/
abbrev Panel.SameSettings (p q : Panel) : Prop := q.mac = p.mac ∧ q.sleep = p.sleep ∧ q.on = p.on

/-- The table of 43_terminal_state_machine.md R173: the cursor after one iteration. A wire command moves no cursor. -/
def nextCursor (i : Instr) (row col : Int) : Int × Int :=
  match i with
  | .cr => (emod (row + 1) 30, 0)
  | .escUp _ => (emod (row - 1) 30, col)
  | .escDown _ => (emod (row + 1) 30, col)
  | .escRight _ => if col < 52 then (row, col + 1) else (emod (row + 1) 30, 0)
  | .escLeft _ => if 0 < col then (row, col - 1) else (emod (row - 1) 30, 52)
  | .escNone _ _ => (row, col)
  | .del => if 0 < col then (row, col - 1) else (emod (row - 1) 30, 52)
  | .glyph _ => if col < 52 then (row, col + 1) else (emod (row + 1) 30, 0)
  | .exitSleep => (row, col)
  | .displayOn => (row, col)
  | .colAddrSet _ _ => (row, col)
  | .rowAddrSet _ _ => (row, col)
  | .memWrite _ => (row, col)
  | .memAccessCtrl _ => (row, col)

/-- The cursor bounds between the dispatch and the end of step 5 (43_terminal_state_machine.md R172). -/
def transient (row col : Int) : Bool :=
  decide (-1 ≤ row) && decide (row ≤ 30) && decide (-1 ≤ col) && decide (col ≤ 53) &&
    ((decide (0 ≤ row) && decide (row < 30)) || (decide (0 ≤ col) && decide (col < 53)))

/-- The cursor is in the grid, but for step 5 (10_state.md R22, R23). -/
def State.cursorOk (s : State) : Bool :=
  match s.seq with
  | .s5 => transient s.row s.col
  | _ => inGrid s.row s.col

/-- `phase` is `EscapeSeen` exactly in the escape arm's waits, and `esc_have` is 0 elsewhere (10_state.md R25). -/
def State.phaseOk (s : State) : Bool :=
  match s.seq with
  | .s4Wait => s.phase == .escapeSeen
  | _ => s.phase == .normal && s.escHave == 0

/-- Primitives are left only inside `INIT` and the draws of steps 1, 3 and 4 (10_state.md R26), and the start-up commands
are wire commands. -/
def State.positionOk (s : State) : Bool :=
  match s.seq with
  | .init cs => cs.all fun c => c.level == .wire
  | .s1 => s.todo.isEmpty
  | .s1Draw => true
  | .s2 => s.todo.isEmpty
  | .s3 _ => true
  | .s4Wait => s.todo.isEmpty
  | .s4 _ => true
  | .s5 => s.todo.isEmpty

/-- The invariant of the machine: the parameters within their constraints, the cursor, the phase, the position, no more
queued than the transport holds, and the frame memory in its canonical form. -/
structure State.Inv (s : State) : Prop where
  config   : s.cfg.wf = true
  cursor   : s.cursorOk = true
  phase    : s.phaseOk = true
  position : s.positionOk = true
  queue    : s.spi.q.length ≤ s.cfg.txDepth
  memory   : memoryWf s.pan.frame = true

/-- Chip-select framing of a trace from level `l` (41_display_protocol.md R135): bytes are transmitted with chip-select low,
it rises exactly after a drain, and nothing stands between a drain and that rise. -/
def framedFrom (l : Level) (afterDrain : Bool) : List Event → Bool
  | [] => !afterDrain
  | .cs .high :: t => afterDrain && framedFrom .high false t
  | .cs .low :: t => !afterDrain && framedFrom .low false t
  | .tx _ :: t => !afterDrain && l == .low && framedFrom l false t
  | .drain :: t => !afterDrain && framedFrom l true t
  | .dc _ :: t => !afterDrain && framedFrom l false t
  | .rx _ :: t => !afterDrain && framedFrom l false t

/-- The events so far and those of the primitives still to be executed. -/
def State.plannedEvents (s : State) : List Event := s.events ++ s.todo.map Prim.event

/-- The wire commands the engine issues (30_encoding.md R96): the start-up commands, the windows of the grid's cells, and
bursts of 48 pixels of the three colours. -/
def isEngineCommand : Instr → Bool
  | .exitSleep => true
  | .displayOn => true
  | .memAccessCtrl p => p == 0xE0
  | .colAddrSet a b => decide (a.toNat % 6 = 0) && decide (b.toNat = a.toNat + 5) && decide (b.toNat ≤ 317)
  | .rowAddrSet a b => decide (a.toNat % 8 = 0) && decide (b.toNat = a.toNat + 7) && decide (b.toNat ≤ 239)
  | .memWrite px => px.length == 48 && px.all fun p => p == colorOn || p == colorOff || p == colorCursor
  | .cr => false
  | .escUp _ => false
  | .escDown _ => false
  | .escRight _ => false
  | .escLeft _ => false
  | .escNone _ _ => false
  | .del => false
  | .glyph _ => false

/-- The wire view of a run, from the line level `m` before its first event, is a sequence of the engine's commands, and so
are the start-up commands not yet begun. -/
def State.WireGrammar (m : Mode) (s : State) : Prop :=
  (∃ cmds : List Instr, (∀ c ∈ cmds, isEngineCommand c = true) ∧
    wireFrom m s.plannedEvents = cmds.flatMap wireItems) ∧
  ∀ cs, s.seq = .init cs → ∀ c ∈ cs, isEngineCommand c = true

/-- Everything handed to the transport is delivered or queued, in order, as it was handed over (20_memory.md R64, R66),
`m` being the line's mode before the trace. -/
def State.WireView (m : Mode) (s : State) : Prop :=
  modeAfter m s.events = s.dc ∧ s.seen.reverse ++ s.spi.q = wireFrom m s.events

/-- The items the engine still sends in the operation it is inside. -/
def State.pendingItems (s : State) : List WireItem := s.spi.q ++ wireFrom s.dc (s.todo.map Prim.event)

/-- Once the operation the engine is inside has been sent and delivered, the controller is live and ready. -/
def State.PanelServed (s : State) : Prop := ∃ p, panelItems s.cfg s.pendingItems s.pan = .live p ∧ p.Ready

/-- The wait point a stream ends at, cut from an instruction boundary (43_terminal_state_machine.md R174): `skip` bytes
still belong to an escape sequence. -/
def endsAt : Nat → List Byte → WaitPoint
  | 0, [] => .w0
  | 1, [] => .w2
  | _ + 2, [] => .w1
  | 0, b :: bs => if b = 27 then endsAt 2 bs else endsAt 0 bs
  | n + 1, _ :: bs => endsAt n bs

/-- The cursor after a stream, cut into instructions as in `endsAt` (30_encoding.md R83), by the table of
43_terminal_state_machine.md R173; an escape sequence that the stream ends inside moves nothing. -/
def cursorAfter : Nat → List Byte → Int × Int → Int × Int
  | _, [], c => c
  | 0, b :: bs, c =>
    if b = 27 then cursorAfter 2 bs c
    else if b = 13 then cursorAfter 0 bs (nextCursor .cr c.1 c.2)
    else if b = 127 then cursorAfter 0 bs (nextCursor .del c.1 c.2)
    else cursorAfter 0 bs (nextCursor (.glyph b) c.1 c.2)
  | 1, b3 :: bs, c => cursorAfter 0 bs (nextCursor (escInstr 0 b3) c.1 c.2)
  | n + 2, _ :: bs, c => cursorAfter (n + 1) bs c

end Sys2Proof.Machine
end

