-- ==== Sys2Proof/Certificates/Slice0/Obligations.lean ====
section
/-! DEFINITION. The statements for the provers. Numbers of bytes, opcodes and colours are written out here from the spec, not
taken from the model's own constants, wherever a statement says what the spec says. -/

open Sys2Proof Sys2Proof.Machine

/-! ## Level IN: what each input instruction does -/

/-- R161, `CR`: from W0 with byte 13 next, the step runs `CR` and it completes: the cursor goes to the start of the next row,
from the last row to the first, and the last thing emitted is the erase of the cell it was at. -/
def Obligations.CarriageReturnErasesAndStartsNextRow : Prop :=
  ∀ (s : State) (rest : List Byte), s.AtW0 → s.CanDraw → s.input = 13 :: rest →
    step s = exec .cr s ∧
    ∃ t, exec .cr s = .next t ∧ t.row = emod (s.row + 1) 30 ∧ t.col = 0 ∧ IterationEnds s t 1 ∧
      EndsWithDraw s t (glyphPixels s.cfg 0)

/-- R168, `DEL`: the cell under the cursor is erased and the cursor goes one column back, from column 0 to column 52 of the
row above. -/
def Obligations.DeleteErasesAndMovesLeft : Prop :=
  ∀ (s : State) (rest : List Byte), s.AtW0 → s.CanDraw → s.input = 127 :: rest →
    step s = exec .del s ∧
    ∃ t, exec .del s = .next t ∧
      (0 < s.col → t.row = s.row ∧ t.col = s.col - 1) ∧ (s.col = 0 → t.row = emod (s.row - 1) 30 ∧ t.col = 52) ∧
      IterationEnds s t 1 ∧ EndsWithDraw s t (glyphPixels s.cfg 0)

/-- R169, `GLYPH`: any byte other than 13, 27, 127 draws glyph `b1 mod 32` at the current cell, and the cursor goes one column
on, from column 52 to column 0 of the next row. -/
def Obligations.GlyphDrawsAndMovesRight : Prop :=
  ∀ (s : State) (b1 : Byte) (rest : List Byte), s.AtW0 → s.CanDraw → b1 ≠ 13 → b1 ≠ 27 → b1 ≠ 127 →
    s.input = b1 :: rest →
    step s = exec (.glyph b1) s ∧
    ∃ t, exec (.glyph b1) s = .next t ∧
      (s.col < 52 → t.row = s.row ∧ t.col = s.col + 1) ∧ (s.col = 52 → t.row = emod (s.row + 1) 30 ∧ t.col = 0) ∧
      IterationEnds s t 1 ∧ EndsWithDraw s t (glyphPixels s.cfg (BitVec.ofNat 5 (b1.toNat % 32)))

/-- R163, `ESC_UP`: third byte 65, whatever the second: the cell is erased and the cursor goes one row up, from row 0 to row
29. -/
def Obligations.EscapeUpMovesUp : Prop :=
  ∀ (s : State) (b2 : Byte) (rest : List Byte), s.AtW0 → s.CanDraw → s.input = 27 :: b2 :: 65 :: rest →
    step s = exec (.escUp b2) s ∧
    ∃ t, exec (.escUp b2) s = .next t ∧ t.row = emod (s.row - 1) 30 ∧ t.col = s.col ∧ IterationEnds s t 3 ∧
      EndsWithDraw s t (glyphPixels s.cfg 0)

/-- R164, `ESC_DOWN`: third byte 66. -/
def Obligations.EscapeDownMovesDown : Prop :=
  ∀ (s : State) (b2 : Byte) (rest : List Byte), s.AtW0 → s.CanDraw → s.input = 27 :: b2 :: 66 :: rest →
    step s = exec (.escDown b2) s ∧
    ∃ t, exec (.escDown b2) s = .next t ∧ t.row = emod (s.row + 1) 30 ∧ t.col = s.col ∧ IterationEnds s t 3 ∧
      EndsWithDraw s t (glyphPixels s.cfg 0)

/-- R165, `ESC_RIGHT`: third byte 67. -/
def Obligations.EscapeRightMovesRight : Prop :=
  ∀ (s : State) (b2 : Byte) (rest : List Byte), s.AtW0 → s.CanDraw → s.input = 27 :: b2 :: 67 :: rest →
    step s = exec (.escRight b2) s ∧
    ∃ t, exec (.escRight b2) s = .next t ∧
      (s.col < 52 → t.row = s.row ∧ t.col = s.col + 1) ∧ (s.col = 52 → t.row = emod (s.row + 1) 30 ∧ t.col = 0) ∧
      IterationEnds s t 3 ∧ EndsWithDraw s t (glyphPixels s.cfg 0)

/-- R166, `ESC_LEFT`: third byte 68. -/
def Obligations.EscapeLeftMovesLeft : Prop :=
  ∀ (s : State) (b2 : Byte) (rest : List Byte), s.AtW0 → s.CanDraw → s.input = 27 :: b2 :: 68 :: rest →
    step s = exec (.escLeft b2) s ∧
    ∃ t, exec (.escLeft b2) s = .next t ∧
      (0 < s.col → t.row = s.row ∧ t.col = s.col - 1) ∧ (s.col = 0 → t.row = emod (s.row - 1) 30 ∧ t.col = 52) ∧
      IterationEnds s t 3 ∧ EndsWithDraw s t (glyphPixels s.cfg 0)

/-- R167, `ESC_NONE`: any other third byte: the three bytes are consumed, the cell is erased, the cursor stays. -/
def Obligations.EscapeNoneKeepsCursor : Prop :=
  ∀ (s : State) (b2 b3 : Byte) (rest : List Byte), s.AtW0 → s.CanDraw → b3 ≠ 65 → b3 ≠ 66 → b3 ≠ 67 → b3 ≠ 68 →
    s.input = 27 :: b2 :: b3 :: rest →
    step s = exec (.escNone b2 b3) s ∧
    ∃ t, exec (.escNone b2 b3) s = .next t ∧ t.row = s.row ∧ t.col = s.col ∧ IterationEnds s t 3 ∧
      EndsWithDraw s t (glyphPixels s.cfg 0)

/-- The whole trace of an iteration after its highlight (R178): the first byte is received, the cell erased (step 3, R159), the
other bytes of an escape sequence received, the arm's draw emitted, and nothing else. That step 3 is a draw of its own, before
the arm's, and that the two receives of an escape sequence come before its arm's erase, are the spec's decisions
(90_conflicts.md C2, 92_eei_decisions.md D24; log 18). -/
def Obligations.IterationEmitsItsTrace : Prop :=
  ∀ (i : Instr) (s : State), i.level = .input → s.CanDraw →
    ∃ t b1 bs, exec i s = .next t ∧ streamBytes i = b1 :: bs ∧
      t.events = s.events ++ [.rx b1] ++ drawEvents s.row s.col (glyphPixels s.cfg 0) ++ bs.map .rx ++
        drawEvents s.row s.col (armPixels s.cfg i)

/-- R173 with its linear form: an iteration of any input instruction moves the cursor by the table, and with
p = 53·row + col, `ESC_RIGHT` and `GLYPH` go to emod(p + 1, 1590), `ESC_LEFT` and `DEL` to emod(p − 1, 1590). -/
def Obligations.CursorFollowsNetTable : Prop :=
  ∀ (i : Instr) (s : State), i.level = .input → s.CanDraw →
    ∃ t, exec i s = .next t ∧ (t.row, t.col) = nextCursor i s.row s.col ∧
      (∀ b, (i = .escRight b ∨ i = .glyph b) → 53 * t.row + t.col = emod (53 * s.row + s.col + 1) 1590) ∧
      (∀ b, (i = .escLeft b ∨ i = .del) → 53 * t.row + t.col = emod (53 * s.row + s.col - 1) 1590)

/-- The picture after `GLYPH` (R147, R169): once everything is delivered under coherence the current cell shows the glyph,
green where the font bit is set and black elsewhere, every other byte of the frame and the controller's settings are
unchanged, and the window is the cell. -/
def Obligations.GlyphPaintsItsCell : Prop :=
  ∀ (s : State) (b1 : Byte) (p : Panel), s.CanDraw → s.PictureOk p →
    ∃ t q, exec (.glyph b1) s = .next t ∧ t.settled = .live q ∧ q.Ready ∧ p.SameSettings q ∧
      CellShows p.frame q.frame s.row s.col (fun r c =>
        if fontBit s.cfg (BitVec.ofNat 5 (b1.toNat % 32)) r c then ⟨0x00, 0xFF, 0x00⟩ else ⟨0x00, 0x00, 0x00⟩) ∧
      (q.xs.toNat : Int) = 6 * s.col ∧ (q.xe.toNat : Int) = 6 * s.col + 5 ∧
      (q.ys.toNat : Int) = 8 * s.row ∧ (q.ye.toNat : Int) = 8 * s.row + 7

/-- The picture after every other input instruction (R147, R176): the cell the iteration started on is blank, every other
byte of the frame and the controller's settings are unchanged, and the window is the cell. -/
def Obligations.OtherInputInstructionsBlankTheirCell : Prop :=
  ∀ (i : Instr) (s : State) (p : Panel), i.level = .input → (∀ b, i ≠ .glyph b) → s.CanDraw → s.PictureOk p →
    ∃ t q, exec i s = .next t ∧ t.settled = .live q ∧ q.Ready ∧ p.SameSettings q ∧
      CellShows p.frame q.frame s.row s.col (fun _ _ => ⟨0x00, 0x00, 0x00⟩) ∧
      (q.xs.toNat : Int) = 6 * s.col ∧ (q.xe.toNat : Int) = 6 * s.col + 5 ∧
      (q.ys.toNat : Int) = 8 * s.row ∧ (q.ye.toNat : Int) = 8 * s.row + 7

/-- R95, R162: the second byte of an escape sequence is never examined: two sequences that differ in it leave states that
differ in their traces only, and those in the one event of its reception only, or not at all where the engine is blocked
before it. -/
def Obligations.EscapeSecondByteIsIgnored : Prop :=
  ∀ (s t t' : State) (b2 b2' : Byte) (mk : Byte → Instr),
    (mk = .escUp ∨ mk = .escDown ∨ mk = .escRight ∨ mk = .escLeft ∨ ∃ b3, mk = fun b => .escNone b b3) →
    exec (mk b2) s = .next t → exec (mk b2') s = .next t' →
    t' = { t with trace := t'.trace } ∧
      (t'.trace = t.trace ∨ ∃ after before,
        t.trace = after ++ .rx b2 :: (before ++ s.trace) ∧ t'.trace = after ++ .rx b2' :: (before ++ s.trace))

/-- R26, R162, R174: an escape sequence whose bytes come in parts. With only 27 there the engine waits at W1, the highlight
erased and nothing else emitted; with the second byte at W2, nothing emitted but its reception; with the third, the step ends
as one step over the whole sequence does. That this is one step when the bytes are there is the model's granularity (log 1). -/
def Obligations.EscapeInPartsAgreesWithWhole : Prop :=
  ∀ (s : State) (b2 b3 : Byte) (rest : List Byte), s.AtW0 → s.CanDraw →
    ∃ t1 t2, step { s with input := [27] } = .next t1 ∧ t1.waitPoint = some .w1 ∧ t1.phase = .escapeSeen ∧
      t1.events = s.events ++ [.rx 27] ++ drawEvents s.row s.col (glyphPixels s.cfg 0) ∧
      step { t1 with input := [b2] } = .next t2 ∧ t2.waitPoint = some .w2 ∧ t2.phase = .escapeSeen ∧
      t2.events = t1.events ++ [.rx b2] ∧
      step { t2 with input := b3 :: rest } = step { s with input := 27 :: b2 :: b3 :: rest }

/-- 93 U13: outside the grid a draw has no meaning, so an input instruction is refused by name: the
model's choice (log 10). -/
def Obligations.DrawOutsideGridIsRefused : Prop :=
  ∀ (i : Instr) (s : State), i.level = .input → inGrid s.row s.col = false → exec i s = .refused .drawOutsideGrid

/-! ## Level W: what each wire command does -/

/-- R128, `EXIT_SLEEP`: wire view `C:11`, drained, chip-select high on return; the controller leaves sleep mode. -/
def Obligations.ExitSleepWakesController : Prop :=
  ∀ s : State, s.CanTransmit → ∃ t, exec .exitSleep s = .next t ∧ SameTerminal s t ∧
    t.events = s.events ++ [.dc .cmd, .cs .low, .tx 0x11, .drain, .cs .high] ∧
    t.dc = .cmd ∧ t.cs = .high ∧ t.spi.q = [] ∧
    ∀ p, s.spi.coherent = true → s.settled = .live p → p.complete = true →
      t.pan = .live { p with sleep := false, fresh := false, cmd := some 0x11, idx := 0, buf := [] }

/-- R129, `DISPLAY_ON`: wire view `C:29`; the controller's display is on. -/
def Obligations.DisplayOnTurnsDisplayOn : Prop :=
  ∀ s : State, s.CanTransmit → ∃ t, exec .displayOn s = .next t ∧ SameTerminal s t ∧
    t.events = s.events ++ [.dc .cmd, .cs .low, .tx 0x29, .drain, .cs .high] ∧
    t.dc = .cmd ∧ t.cs = .high ∧ t.spi.q = [] ∧
    ∀ p, s.spi.coherent = true → s.settled = .live p → p.complete = true →
      t.pan = .live { p with on := true, fresh := false, cmd := some 0x29, idx := 0, buf := [] }

/-- R57, R130, `COL_ADDR_SET`: wire view `C:2A` and two big-endian bounds; once delivered the controller's column range is
theirs and nothing else of its registers and frame has changed. -/
def Obligations.ColumnAddressSetSetsColumnRange : Prop :=
  ∀ (s : State) (a b : Bound), s.CanTransmit → ∃ t, exec (.colAddrSet a b) s = .next t ∧ SameTerminal s t ∧
    wireFrom s.dc (t.events.drop s.events.length) =
      [.c 0x2A, .d (BitVec.ofNat 8 (a.toNat / 256)), .d (BitVec.ofNat 8 (a.toNat % 256)),
        .d (BitVec.ofNat 8 (b.toNat / 256)), .d (BitVec.ofNat 8 (b.toNat % 256))] ∧
    t.dc = .data ∧ t.cs = .low ∧
    ∀ p, s.spi.coherent = true → s.settled = .live p → p.complete = true →
      ∃ q, t.settled = .live q ∧ q.complete = true ∧
        q = { p with xs := a, xe := b, fresh := false, cmd := some 0x2A, idx := 4, buf := q.buf }

/-- R58, R131, `ROW_ADDR_SET`: as `COL_ADDR_SET`, with `C:2B` and the row range. -/
def Obligations.RowAddressSetSetsRowRange : Prop :=
  ∀ (s : State) (a b : Bound), s.CanTransmit → ∃ t, exec (.rowAddrSet a b) s = .next t ∧ SameTerminal s t ∧
    wireFrom s.dc (t.events.drop s.events.length) =
      [.c 0x2B, .d (BitVec.ofNat 8 (a.toNat / 256)), .d (BitVec.ofNat 8 (a.toNat % 256)),
        .d (BitVec.ofNat 8 (b.toNat / 256)), .d (BitVec.ofNat 8 (b.toNat % 256))] ∧
    t.dc = .data ∧ t.cs = .low ∧
    ∀ p, s.spi.coherent = true → s.settled = .live p → p.complete = true →
      ∃ q, t.settled = .live q ∧ q.complete = true ∧
        q = { p with ys := a, ye := b, fresh := false, cmd := some 0x2B, idx := 4, buf := q.buf }

/-- R60, R132, `MEM_WRITE`: wire view `C:2C` and the pixels, blue, green, red; once delivered, pixel k is at
(xs + k mod w, ys + k div w) of the window, every other byte of the frame, the window and the settings are unchanged. -/
def Obligations.MemoryWriteFillsWindowRowMajor : Prop :=
  ∀ (s : State) (px : List Pixel), s.CanTransmit → ∃ t, exec (.memWrite px) s = .next t ∧ SameTerminal s t ∧
    wireFrom s.dc (t.events.drop s.events.length) =
      .c 0x2C :: px.flatMap (fun v => [.d v.blue, .d v.green, .d v.red]) ∧
    (px ≠ [] → t.dc = .data ∧ t.cs = .low) ∧ (px = [] → t.dc = .cmd ∧ t.cs = .high) ∧
    ∀ p, s.spi.coherent = true → s.settled = .live p → p.Ready → p.xs ≤ p.xe → p.ys ≤ p.ye →
      p.xe.toNat < s.cfg.panelCols → p.ye.toNat < s.cfg.panelRows → px.length ≤ p.width * p.height →
      ∃ q, t.settled = .live q ∧ p.SameSettings q ∧ q.xs = p.xs ∧ q.xe = p.xe ∧ q.ys = p.ys ∧ q.ye = p.ye ∧
        q.fresh = false ∧ q.cmd = some 0x2C ∧
        (∀ k v, px[k]? = some v → readPixel q.frame (p.xs.toNat + k % p.width) (p.ys.toNat + k / p.width) = some v) ∧
        ∀ a, (∀ k < px.length, ∀ i < 3,
            a ≠ frameAddr (p.xs.toNat + k % p.width) (p.ys.toNat + k / p.width) i) →
          readCell q.frame a = readCell p.frame a

/-- R59, R133, `MEM_ACCESS_CTRL`: wire view `C:36` and one byte; once delivered it is in `pan.mac` and nothing else of the
controller's registers and frame has changed. -/
def Obligations.MemoryAccessControlSetsMac : Prop :=
  ∀ (s : State) (b : Byte), s.CanTransmit → ∃ t, exec (.memAccessCtrl b) s = .next t ∧ SameTerminal s t ∧
    wireFrom s.dc (t.events.drop s.events.length) = [.c 0x36, .d b] ∧ t.dc = .data ∧ t.cs = .low ∧
    ∀ p, s.spi.coherent = true → s.settled = .live p → p.complete = true →
      t.settled = .live { p with mac := b, fresh := false, cmd := some 0x36, idx := 1, buf := [] }

/-- The frame of the commands that store nothing: once everything is delivered, every byte of the frame reads as it would
have without the command. -/
def Obligations.OtherWireCommandsStoreNothing : Prop :=
  ∀ (i : Instr) (s t : State) (p : Panel), i.level = .wire → (∀ px, i ≠ .memWrite px) → s.CanTransmit →
    s.spi.coherent = true → s.settled = .live p → p.complete = true → exec i s = .next t →
    ∀ a, readCell t.settled.frame a = readCell p.frame a

/-! ## DisplayProtocol and PixelStreamer -/

/-- R123, `sendCommand(opcode)`: command mode, chip-select low, the opcode, the drain, chip-select high, in this order; on
return the transport is empty; under a fair environment it returns; it blocks at its transmit or its drain and nowhere else. -/
def Obligations.SendCommandDrainsAndRaisesChipSelect : Prop :=
  ∀ (s : State) (op : Byte),
    (s.CanTransmit → ∃ t, runPrims (sendCommand op) s = .done t ∧
      t.events = s.events ++ [.dc .cmd, .cs .low, .tx op, .drain, .cs .high] ∧
      t.dc = .cmd ∧ t.cs = .high ∧ t.spi.q = [] ∧ SameTerminal s t) ∧
    ∀ t, runPrims (sendCommand op) s = .parked t → t.todo = [.tx op, .drain, .cs .high] ∨ t.todo = [.drain, .cs .high]

/-- R124, `sendData(byte)`: data mode, chip-select low, the byte; no drain, chip-select stays low, and up to `TX_DEPTH`
bytes, this one included, may be queued on return (with an empty queue before and an environment that delivers nothing, this
one is); it blocks at its transmit and nowhere else. -/
def Obligations.SendDataDoesNotDrain : Prop :=
  ∀ (s : State) (b : Byte),
    (s.CanTransmit → s.spi.q.length ≤ s.cfg.txDepth → ∃ t, runPrims (sendData b) s = .done t ∧
      t.events = s.events ++ [.dc .data, .cs .low, .tx b] ∧
      t.dc = .data ∧ t.cs = .low ∧ t.spi.q.length ≤ t.cfg.txDepth ∧ SameTerminal s t ∧
      (s.spi.pace = .lazy → s.spi.sched = [] → s.spi.q = [] → t.spi.q = [.d b])) ∧
    ∀ t, runPrims (sendData b) s = .parked t → t.todo = [.tx b]

/-- R93: the window wire image of a cell of the grid. -/
def Obligations.WindowImageOfACell : Prop :=
  ∀ (m : Mode) (row col : Nat), row < 30 → col < 53 →
    wireFrom m ((setAddressWindow (cellRect row col)).map Prim.event) =
      [.c 0x2A, .d (BitVec.ofNat 8 (6 * col / 256)), .d (BitVec.ofNat 8 (6 * col % 256)),
        .d (BitVec.ofNat 8 ((6 * col + 5) / 256)), .d (BitVec.ofNat 8 ((6 * col + 5) % 256)),
        .c 0x2B, .d 0x00, .d (BitVec.ofNat 8 (8 * row)), .d 0x00, .d (BitVec.ofNat 8 (8 * row + 7))]

/-- R11, R146, R178: a draw operation of 48 pixels hands 155 bytes to the transport and drains three times, and its wire
view is the window, `C:2C`, and the pixels, blue, green, red. -/
def Obligations.DrawOperationIsWindowThenBurst : Prop :=
  ∀ (m : Mode) (row col : Nat) (px : List Pixel), px.length = 48 →
    (txBytes ((drawCell row col px).map Prim.event)).length = 155 ∧
    drains ((drawCell row col px).map Prim.event) = 3 ∧
    wireFrom m ((drawCell row col px).map Prim.event) =
      wireFrom m ((setAddressWindow (cellRect row col)).map Prim.event) ++
        .c 0x2C :: px.flatMap (fun v => [.d v.blue, .d v.green, .d v.red])

/-- R142, R143: pixel number 6·r + c of a glyph is green where font bit (r, c) is set, black elsewhere, 48 pixels in all. -/
def Obligations.GlyphPixelsReproduceTheFont : Prop :=
  ∀ (cfg : Config) (g : GlyphIndex), (glyphPixels cfg g).length = 48 ∧ ∀ r < 8, ∀ c < 6,
    (glyphPixels cfg g)[6 * r + c]? =
      some (if ((cfg.font.getD g.toNat []).getD c 0).getLsbD r then ⟨0x00, 0xFF, 0x00⟩ else ⟨0x00, 0x00, 0x00⟩)

/-- R114, R145: erasing a cell sends 48 black pixels. -/
def Obligations.EraseSendsBlackPixels : Prop :=
  ∀ (cfg : Config) (row col : Int), cfg.wf = true → inGrid row col = true →
    eraseCell cfg row col = some (drawCell row.toNat col.toNat (List.replicate 48 ⟨0x00, 0x00, 0x00⟩))

/-- R112, R117: the byte built for column c of a glyph's art has bit r set exactly where the art is marked. -/
def Obligations.BuiltGlyphReproducesItsArt : Prop :=
  ∀ (art : GlyphArt) (bytes : List Byte), buildGlyph art = some bytes →
    bytes.length = 6 ∧ ∀ r < 8, ∀ c < 6, (bytes.getD c 0).getLsbD r = artOn art r c

/-- R113: a font is built exactly from 32 arts of 8 lines of 6 characters; one that is not fails the build. -/
def Obligations.FontBuildFailsUnlessEightBySix : Prop :=
  ∀ arts : List GlyphArt, (buildFont arts).isSome = true ↔
    arts.length = 32 ∧ ∀ art ∈ arts, art.length = 8 ∧ ∀ line ∈ art, line.length = 6

/-! ## The loop -/

/-- A step runs the decoded instruction: at W0 the one at the front of the stream, in the start-up sequence its next
command, which the position then has behind it. That a step is one whole instruction is the model's choice (log 1), and so is
that a start-up command is fetched as an instruction (log 15). -/
def Obligations.StepRunsDecodedInstruction : Prop :=
  (∀ (s : State) (i : Instr) (rest : List Byte), s.seq = .s2 → s.todo = [] → decodeStream s.input = .ok (i, rest) →
    step s = exec i s) ∧
  ∀ (s : State) (i : Instr) (is : List Instr), s.seq = .init (i :: is) → s.todo = [] →
    step s = exec i { s with seq := .init is }

/-- R157: step 1 draws the highlight at the cursor and the engine then waits at W0; once delivered, the cell is red and
every other byte of the frame unchanged. -/
def Obligations.HighlightPaintsCursorCell : Prop :=
  ∀ s : State, s.AtLoopTop → s.CanDraw → ∃ t, step s = .next t ∧ t.AtW0 ∧ t.row = s.row ∧ t.col = s.col ∧
    t.input = s.input ∧ t.ip = s.ip ∧ t.cfg = s.cfg ∧ t.dc = .data ∧ t.cs = .low ∧
    t.events = s.events ++ drawEvents s.row s.col (List.replicate 48 ⟨0x00, 0x00, 0xFF⟩) ∧
    ∀ p, s.PictureOk p → ∃ q, t.settled = .live q ∧ q.Ready ∧ p.SameSettings q ∧
      CellShows p.frame q.frame s.row s.col (fun _ _ => ⟨0x00, 0x00, 0xFF⟩)

/-- R127, R156, R217: the start-up sequence sends exit-sleep, display-on and memory-access-control with 0xE0, and then the loop
starts at cursor (0, 0); once delivered, the controller is awake, on, and has 0xE0. That this takes three steps and one more
to enter the loop is the model's choice (logs 1 and 15). -/
def Obligations.StartUpSendsInitializationSequence : Prop :=
  ∀ s : State, s.seq = .init [.exitSleep, .displayOn, .memAccessCtrl 0xE0] → s.todo = [] → s.CanTransmit →
    ∃ t u, core.run 3 s = .next t ∧ t.dc = .data ∧ t.cs = .low ∧
      t.events = s.events ++
        [.dc .cmd, .cs .low, .tx 0x11, .drain, .cs .high, .dc .cmd, .cs .low, .tx 0x29, .drain, .cs .high,
          .dc .cmd, .cs .low, .tx 0x36, .drain, .cs .high, .dc .data, .cs .low, .tx 0xE0] ∧
      step t = .next u ∧ u.AtLoopTop ∧ u.row = 0 ∧ u.col = 0 ∧ u.events = t.events ∧
      ∀ p, s.spi.coherent = true → s.settled = .live p → p.complete = true →
        ∃ q, t.settled = .live q ∧ q.sleep = false ∧ q.on = true ∧ q.mac = 0xE0 ∧ q.complete = true

/-- R170: step 5, one carry by the column the dispatch left, then the two reductions; it is applied once, and the next
iteration begins. -/
def Obligations.WrapCarriesOnceThenReduces : Prop :=
  ∀ s : State,
    s.wrap.col = emod s.col 53 ∧
    (53 ≤ s.col → s.wrap.row = emod (s.row + 1) 30) ∧ (s.col < 0 → s.wrap.row = emod (s.row - 1) 30) ∧
    (0 ≤ s.col → s.col < 53 → s.wrap.row = emod s.row 30) ∧
    (s.seq = .s5 → s.todo = [] → step s = .next s.wrap ∧ s.wrap.seq = .s1)

/-- R23, R171, R172: from a cursor in the grid, no motion and no carry leaves [−1, 53], so registers of any width from 7
bits hold every value, and the column a motion leaves is at most one outside the grid. -/
def Obligations.CursorFitsSevenBits : Prop :=
  ∀ (s : State) (m : Motion) (w : Nat), inGrid s.row s.col = true → 7 ≤ w →
    transient (s.move m).row (s.move m).col = true ∧
    ∀ v ∈ [(s.move m).row, (s.move m).col, carriedRow (s.move m).row (s.move m).col],
      -1 ≤ v ∧ v ≤ 53 ∧ -(2 : Int) ^ (w - 1) ≤ v ∧ v < (2 : Int) ^ (w - 1)

/-- R158: waiting with no byte there, the engine emits nothing and keeps all its state; only the environment may act. -/
def Obligations.WaitingEngineEmitsNothing : Prop :=
  ∀ s : State, s.waitPoint.isSome = true → s.input = [] →
    ∃ t, step s = .next t ∧ t = { s with spi := t.spi, pan := t.pan, seen := t.seen }

/-- R193: at each of the three blocking points, with the awaited predicate false for ever, the control flow stays there and
nothing changes, however many steps are taken: a transmit into a transport that is full and delivers no more, a drain of one
that is not empty and delivers no more, a receive with no byte. -/
def Obligations.HangIsForever : Prop :=
  ∀ s : State, s.spi.pace = .stalled → s.spi.sched = [] →
    ((∃ b ps, s.todo = .tx b :: ps) ∧ s.cfg.txDepth ≤ s.spi.q.length ∨ (∃ ps, s.todo = .drain :: ps) ∧ s.spi.q ≠ [] ∨
      s.waitPoint.isSome = true ∧ s.input = []) →
    ∀ k, core.run k s = .next s

/-- R63: the status queries are functions of the queue; drained is both, which is the empty queue; a drain returns only in a
state where every byte handed over was delivered. -/
def Obligations.StatusQueriesReadTheQueue : Prop :=
  ∀ s : State, (s.txe = true ↔ s.spi.q.length < s.cfg.txDepth) ∧ (s.bsy = true ↔ s.spi.q ≠ []) ∧
    (s.drained = true ↔ s.txe = true ∧ s.bsy = false) ∧ (1 ≤ s.cfg.txDepth → (s.drained = true ↔ s.spi.q = [])) ∧
    ∀ t, s.prim .drain = .done t → t.spi.q = [] ∧
      ((s.seen.reverse ++ s.spi.q).map WireItem.byte = txBytes s.events →
        t.seen.reverse.map WireItem.byte = txBytes t.events)

/-! ## Encoding -/

/-- Decode and encode agree at level IN, for every well-formed input instruction and whatever follows it. -/
def Obligations.StreamDecodeOfEncode : Prop :=
  ∀ (i : Instr) (rest : List Byte), i.level = .input → i.wf = true →
    decodeStream (streamBytes i ++ rest) = .ok (i, rest)

/-- Decode and encode agree at level W, for every wire command and whatever follows it from the next command byte on. -/
def Obligations.WireDecodeOfEncode : Prop :=
  ∀ (i : Instr) (rest : List WireItem), i.level = .wire → (∀ b ws, rest ≠ .d b :: ws) →
    decodeWire (wireItems i ++ rest) = .ok (i, rest)

/-- The other direction at both levels: what decodes is the encoding of a well-formed instruction of that level, so every
encoding has one meaning (R83, R85). -/
def Obligations.EncodeOfDecode : Prop :=
  (∀ bs i rest, decodeStream bs = .ok (i, rest) → i.level = .input ∧ i.wf = true ∧ bs = streamBytes i ++ rest) ∧
  ∀ ws i rest, decodeWire ws = .ok (i, rest) → i.level = .wire ∧ i.wf = true ∧ ws = wireItems i ++ rest

/-- R83, R94: no byte sequence is illegal at level IN: a stream that is long enough for the length rule decodes, three bytes
being taken exactly if the first is 27, and one otherwise. -/
def Obligations.EveryStreamDecodes : Prop :=
  ∀ (b1 : Byte) (bs : List Byte), (b1 = 27 → 2 ≤ bs.length) →
    ∃ i, decodeStream (b1 :: bs) = .ok (i, bs.drop (if b1 = 27 then 2 else 0))

/-- A few words written out from 30_encoding.md R85 and R88. That the table word 2A is the wire command and not a glyph is the
model's reading of a list of two levels (log 13), and the zero parameters of 2A and 36 are the model's choice (log 14). -/
def Obligations.SampleWordsDecode : Prop :=
  decodeTableWord 8 0b00001101 = some .cr ∧ decodeTableWord 8 0b01111111 = some .del ∧
    decodeTableWord 8 0b11001000 = some (.glyph 200) ∧
    decodeTableWord 24 0b000110110101101101000001 = some (.escUp 0x5B) ∧
    decodeTableWord 24 0b000110110000110101111111 = some (.escNone 0x0D 0x7F) ∧
    decodeTableWord 8 0b00101010 = some (.colAddrSet 0 0) ∧ decodeTableWord 8 0b00110110 = some (.memAccessCtrl 0)

/-! ## Reset and invariants -/

/-- The values 10_state.md R37 gives for reset and the spec's start of the sequence. That the frame lists no byte is the
model's choice (log 9), since R37 leaves the frame unspecified; of the other values it leaves unspecified nothing is stated. -/
def Obligations.ResetHasTheSpecifiedValues : Prop :=
  State.reset.row = 0 ∧ State.reset.col = 0 ∧ State.reset.phase = .normal ∧ State.reset.escHave = 0 ∧
    State.reset.seq = .init [.exitSleep, .displayOn, .memAccessCtrl 0xE0] ∧ State.reset.cs = .high ∧
    State.reset.spi.q = [] ∧ State.reset.txe = true ∧ State.reset.bsy = false ∧ State.reset.pan.frame = []

/-- R204, R215, R221: the external reset gives the engine its reset values from any state, and leaves the controller's registers
and frame, the configuration and the host's bytes alone; a new run begins for the controller. That it is an operation beside
the step is the model's choice (log 21), and so is the open register set, with no byte of the frame known, of a controller
that was lost (log 25). -/
def Obligations.ExternalResetLeavesController : Prop :=
  ∀ s : State, s.externalReset.row = 0 ∧ s.externalReset.col = 0 ∧ s.externalReset.phase = .normal ∧
    s.externalReset.escHave = 0 ∧ s.externalReset.seq = .init [.exitSleep, .displayOn, .memAccessCtrl 0xE0] ∧
    s.externalReset.todo = [] ∧ s.externalReset.cs = .high ∧ s.externalReset.spi.q = [] ∧
    s.externalReset.cfg = s.cfg ∧ s.externalReset.input = s.input ∧
    (∀ p, s.pan = .live p → s.externalReset.pan = .live { p with fresh := true }) ∧
    ∀ why, s.pan = .lost why → ∃ p, s.externalReset.pan = .live p ∧ p.fresh = true ∧ p.frame = []

/-- R37, R221, C11: the controller an earlier run left, in whatever command, burst or loss, is handled like any other: after an
external reset and the start-up sequence, once delivered, it is awake, on, has 0xE0 and is in the command 36; its window
and its frame are what they were. What `pan.cmd`, `pan.idx` and `buf` held before the run cannot matter to its first command.
The external reset is the model's operation (log 21), three steps its granularity (log 1), a lost controller's return log 25. -/
def Obligations.StartUpSettlesAnyController : Prop :=
  (∀ s : State, s.CanTransmit → s.spi.coherent = true →
    ∃ t q, core.run 3 s.externalReset = .next t ∧ t.settled = .live q ∧
      q.sleep = false ∧ q.on = true ∧ q.mac = 0xE0 ∧ q.fresh = false ∧ q.cmd = some 0x36 ∧ q.idx = 1 ∧
      q.complete = true ∧ q.frame = s.pan.frame ∧
      ∀ p, s.pan = .live p → q.xs = p.xs ∧ q.xe = p.xe ∧ q.ys = p.ys ∧ q.ye = p.ye) ∧
  ∀ (cfg : Config) (op : Byte) (p : Panel) (cmd : Option Byte) (idx : Nat) (buf : List Byte), p.fresh = true →
    panelItem cfg (.c op) (.live { p with cmd := cmd, idx := idx, buf := buf }) = panelItem cfg (.c op) (.live p)

/-- The reset state meets every invariant of this section. -/
def Obligations.ResetMeetsInvariants : Prop :=
  State.reset.Inv ∧ State.reset.WireView State.reset.dc ∧
    framedFrom State.reset.cs false State.reset.plannedEvents = true ∧
    State.reset.WireGrammar State.reset.dc

/-- Every step keeps the invariant: the cursor in the grid but for step 5 (R22, R172), the phase (R25), the position, the
queue's bound, the frame's canonical form. -/
def Obligations.StepKeepsInvariant : Prop :=
  ∀ s t : State, s.Inv → step s = .next t → t.Inv

/-- R190: under the invariant a step always answers a next state: nothing faults and nothing is refused. -/
def Obligations.StepNeverStops : Prop :=
  ∀ s : State, s.Inv → ∃ t, step s = .next t

/-- R115, R12: no step changes the font or any other parameter. -/
def Obligations.StepKeepsConfiguration : Prop :=
  ∀ s t : State, step s = .next t → t.cfg = s.cfg

/-- R24, R65, R73: a step only takes bytes off the front of the stream, and its receptions are those bytes, in order. -/
def Obligations.StepConsumesStreamInOrder : Prop :=
  ∀ s t : State, s.positionOk = true → step s = .next t → ∃ bs, s.input = bs ++ t.input ∧ t.ip = s.ip + bs.length ∧
    rxBytes t.events = rxBytes s.events ++ bs

/-- R64, without any premise on the command/data line: every byte handed over is delivered or queued, once, unchanged, in
order. -/
def Obligations.StepKeepsDeliveryOrder : Prop :=
  ∀ s t : State, (s.seen.reverse ++ s.spi.q).map WireItem.byte = txBytes s.events → step s = .next t →
    (t.seen.reverse ++ t.spi.q).map WireItem.byte = txBytes t.events

/-- R16, R66: under `TRANSPORT_DC_COHERENT` what the controller takes is the wire view of the trace. -/
def Obligations.StepKeepsWireView : Prop :=
  ∀ (m : Mode) (s t : State), s.spi.coherent = true → s.WireView m → step s = .next t →
    t.spi.coherent = true ∧ t.WireView m

/-- R135: every byte is transmitted with chip-select low, and chip-select rises exactly after the drain of a command; `l` is
the level before the trace. -/
def Obligations.StepKeepsChipSelectFraming : Prop :=
  ∀ (l : Level) (s t : State), levelAfter l s.events = s.cs →
    framedFrom l false s.plannedEvents = true → step s = .next t →
    levelAfter l t.events = t.cs ∧ framedFrom l false t.plannedEvents = true

/-- R96: the wire view of a run is a sequence of the engine's commands: only the six opcodes, only their parameter counts,
0xE0 alone for `MEM_ACCESS_CTRL`, windows of cells, bursts of 48 pixels of the three colours; `m` is the line's mode before
the trace. -/
def Obligations.StepKeepsWireGrammar : Prop :=
  ∀ (m : Mode) (s t : State), s.Inv → modeAfter m s.events = s.dc → s.WireGrammar m → step s = .next t →
    modeAfter m t.events = t.dc ∧ t.WireGrammar m

/-- R61: under `TRANSPORT_DC_COHERENT` the loop never takes the controller off the path the spec defines; the lost
controller is the model's way to give no value (log 5). -/
def Obligations.StepKeepsControllerOnPath : Prop :=
  ∀ s t : State, s.Inv → s.spi.coherent = true → (∀ cs, s.seq ≠ .init cs) → s.PanelServed → step s = .next t →
    t.spi.coherent = true ∧ (∀ cs, t.seq ≠ .init cs) ∧ t.PanelServed

/-- R226, the schedule of 95_test_vectors.md 2.8: without `TRANSPORT_DC_COHERENT` there is a step of the loop in which a byte
sent as data is taken as an opcode, which no item was before, and the controller leaves the path the spec defines; the same
step from the same state with coherence keeps the controller on it. That the premise is a flag of the state is log 4, that
there the controller is `lost` is log 5. -/
def Obligations.IncoherentTransportCanLoseController : Prop :=
  ∃ s t t' : State, s.Inv ∧ s.AtLoopTop ∧ s.spi.coherent = false ∧ s.PanelServed ∧ WireItem.c 0x05 ∉ s.seen ∧
    step s = .next t ∧ WireItem.d 0x05 ∈ wireFrom s.dc (t.events.drop s.events.length) ∧
    WireItem.c 0x05 ∈ t.seen ∧ (∃ why, t.pan = .lost why) ∧
    step { s with spi := { s.spi with coherent := true } } = .next t' ∧ ∃ q, t'.pan = .live q

/-- Two machines that agree on the font, the cursor and the trace, and differ in transport, depth, schedule and controller,
issue the same events for the same instruction and move the cursor alike (00_scope.md R15: the trace does not depend on the
transport). -/
def Obligations.TraceDoesNotDependOnTransport : Prop :=
  ∀ (i : Instr) (s s' : State), s.CanDraw → s'.CanDraw → s.cfg.font = s'.cfg.font → s.row = s'.row → s.col = s'.col →
    s.trace = s'.trace → ∃ t t', exec i s = .next t ∧ exec i s' = .next t' ∧ t.trace = t'.trace ∧
      t.row = t'.row ∧ t.col = t'.col ∧ t.dc = t'.dc ∧ t.cs = t'.cs

/-- R174, under the fairness premise of R64: from the top of the loop a finite stream is consumed to its last byte, and the
engine comes to rest, the transport empty, at W0, W1 or W2 as the stream's cut into instructions says, with the cursor where
the instructions take it. -/
def Obligations.FiniteStreamComesToRest : Prop :=
  ∀ s : State, s.Inv → s.Fair → s.AtLoopTop →
    ∃ k t, core.run k s = .next t ∧ t.quiescent = true ∧ t.waitPoint = some (endsAt 0 s.input) ∧
      (t.row, t.col) = cursorAfter 0 s.input (s.row, s.col) ∧
      rxBytes t.events = rxBytes s.events ++ s.input

/-- R174: the quiescent state is a rest: with the environment's schedule used up, no step changes anything. -/
def Obligations.QuiescentStateIsARest : Prop :=
  ∀ s : State, s.quiescent = true → s.spi.sched = [] → ∀ k, core.run k s = .next s
end

