-- ==== Sys2Proof/Laws/State.lean ====
section
/-! SUPPORT. One lemma for each field of the state and each update, so that no proof unfolds a record update. -/

namespace Sys2Proof.Machine

variable (s : State)

@[simp] theorem State.emit_cfg (e : Event) : (s.emit e).cfg = s.cfg := rfl
@[simp] theorem State.emit_row (e : Event) : (s.emit e).row = s.row := rfl
@[simp] theorem State.emit_col (e : Event) : (s.emit e).col = s.col := rfl
@[simp] theorem State.emit_phase (e : Event) : (s.emit e).phase = s.phase := rfl
@[simp] theorem State.emit_escHave (e : Event) : (s.emit e).escHave = s.escHave := rfl
@[simp] theorem State.emit_seq (e : Event) : (s.emit e).seq = s.seq := rfl
@[simp] theorem State.emit_todo (e : Event) : (s.emit e).todo = s.todo := rfl
@[simp] theorem State.emit_dc (e : Event) : (s.emit e).dc = s.dc := rfl
@[simp] theorem State.emit_cs (e : Event) : (s.emit e).cs = s.cs := rfl
@[simp] theorem State.emit_input (e : Event) : (s.emit e).input = s.input := rfl
@[simp] theorem State.emit_ip (e : Event) : (s.emit e).ip = s.ip := rfl
@[simp] theorem State.emit_spi (e : Event) : (s.emit e).spi = s.spi := rfl
@[simp] theorem State.emit_pan (e : Event) : (s.emit e).pan = s.pan := rfl
@[simp] theorem State.emit_trace (e : Event) : (s.emit e).trace = e :: s.trace := rfl
@[simp] theorem State.emit_seen (e : Event) : (s.emit e).seen = s.seen := rfl
@[simp] theorem State.emit_resets (e : Event) : (s.emit e).resets = s.resets := rfl

@[simp] theorem State.setDc_cfg (m : Mode) : (s.setDc m).cfg = s.cfg := rfl
@[simp] theorem State.setDc_row (m : Mode) : (s.setDc m).row = s.row := rfl
@[simp] theorem State.setDc_col (m : Mode) : (s.setDc m).col = s.col := rfl
@[simp] theorem State.setDc_phase (m : Mode) : (s.setDc m).phase = s.phase := rfl
@[simp] theorem State.setDc_escHave (m : Mode) : (s.setDc m).escHave = s.escHave := rfl
@[simp] theorem State.setDc_seq (m : Mode) : (s.setDc m).seq = s.seq := rfl
@[simp] theorem State.setDc_todo (m : Mode) : (s.setDc m).todo = s.todo := rfl
@[simp] theorem State.setDc_dc (m : Mode) : (s.setDc m).dc = m := rfl
@[simp] theorem State.setDc_cs (m : Mode) : (s.setDc m).cs = s.cs := rfl
@[simp] theorem State.setDc_input (m : Mode) : (s.setDc m).input = s.input := rfl
@[simp] theorem State.setDc_ip (m : Mode) : (s.setDc m).ip = s.ip := rfl
@[simp] theorem State.setDc_spi (m : Mode) : (s.setDc m).spi = s.spi := rfl
@[simp] theorem State.setDc_pan (m : Mode) : (s.setDc m).pan = s.pan := rfl
@[simp] theorem State.setDc_trace (m : Mode) : (s.setDc m).trace = .dc m :: s.trace := rfl
@[simp] theorem State.setDc_seen (m : Mode) : (s.setDc m).seen = s.seen := rfl
@[simp] theorem State.setDc_resets (m : Mode) : (s.setDc m).resets = s.resets := rfl

@[simp] theorem State.setCs_cfg (l : Level) : (s.setCs l).cfg = s.cfg := rfl
@[simp] theorem State.setCs_row (l : Level) : (s.setCs l).row = s.row := rfl
@[simp] theorem State.setCs_col (l : Level) : (s.setCs l).col = s.col := rfl
@[simp] theorem State.setCs_phase (l : Level) : (s.setCs l).phase = s.phase := rfl
@[simp] theorem State.setCs_escHave (l : Level) : (s.setCs l).escHave = s.escHave := rfl
@[simp] theorem State.setCs_seq (l : Level) : (s.setCs l).seq = s.seq := rfl
@[simp] theorem State.setCs_todo (l : Level) : (s.setCs l).todo = s.todo := rfl
@[simp] theorem State.setCs_dc (l : Level) : (s.setCs l).dc = s.dc := rfl
@[simp] theorem State.setCs_cs (l : Level) : (s.setCs l).cs = l := rfl
@[simp] theorem State.setCs_input (l : Level) : (s.setCs l).input = s.input := rfl
@[simp] theorem State.setCs_ip (l : Level) : (s.setCs l).ip = s.ip := rfl
@[simp] theorem State.setCs_spi (l : Level) : (s.setCs l).spi = s.spi := rfl
@[simp] theorem State.setCs_pan (l : Level) : (s.setCs l).pan = s.pan := rfl
@[simp] theorem State.setCs_trace (l : Level) : (s.setCs l).trace = .cs l :: s.trace := rfl
@[simp] theorem State.setCs_seen (l : Level) : (s.setCs l).seen = s.seen := rfl
@[simp] theorem State.setCs_resets (l : Level) : (s.setCs l).resets = s.resets := rfl

@[simp] theorem State.receive_cfg (b : Byte) : (s.receive b).cfg = s.cfg := rfl
@[simp] theorem State.receive_row (b : Byte) : (s.receive b).row = s.row := rfl
@[simp] theorem State.receive_col (b : Byte) : (s.receive b).col = s.col := rfl
@[simp] theorem State.receive_phase (b : Byte) : (s.receive b).phase = s.phase := rfl
@[simp] theorem State.receive_escHave (b : Byte) : (s.receive b).escHave = s.escHave := rfl
@[simp] theorem State.receive_seq (b : Byte) : (s.receive b).seq = s.seq := rfl
@[simp] theorem State.receive_todo (b : Byte) : (s.receive b).todo = s.todo := rfl
@[simp] theorem State.receive_dc (b : Byte) : (s.receive b).dc = s.dc := rfl
@[simp] theorem State.receive_cs (b : Byte) : (s.receive b).cs = s.cs := rfl
@[simp] theorem State.receive_input (b : Byte) : (s.receive b).input = s.input.tail := rfl
@[simp] theorem State.receive_ip (b : Byte) : (s.receive b).ip = s.ip + 1 := rfl
@[simp] theorem State.receive_spi (b : Byte) : (s.receive b).spi = s.spi := rfl
@[simp] theorem State.receive_pan (b : Byte) : (s.receive b).pan = s.pan := rfl
@[simp] theorem State.receive_trace (b : Byte) : (s.receive b).trace = .rx b :: s.trace := rfl
@[simp] theorem State.receive_seen (b : Byte) : (s.receive b).seen = s.seen := rfl
@[simp] theorem State.receive_resets (b : Byte) : (s.receive b).resets = s.resets := rfl

@[simp] theorem State.setSeq_cfg (q : Seq) : (s.setSeq q).cfg = s.cfg := rfl
@[simp] theorem State.setSeq_row (q : Seq) : (s.setSeq q).row = s.row := rfl
@[simp] theorem State.setSeq_col (q : Seq) : (s.setSeq q).col = s.col := rfl
@[simp] theorem State.setSeq_phase (q : Seq) : (s.setSeq q).phase = s.phase := rfl
@[simp] theorem State.setSeq_escHave (q : Seq) : (s.setSeq q).escHave = s.escHave := rfl
@[simp] theorem State.setSeq_seq (q : Seq) : (s.setSeq q).seq = q := rfl
@[simp] theorem State.setSeq_todo (q : Seq) : (s.setSeq q).todo = s.todo := rfl
@[simp] theorem State.setSeq_dc (q : Seq) : (s.setSeq q).dc = s.dc := rfl
@[simp] theorem State.setSeq_cs (q : Seq) : (s.setSeq q).cs = s.cs := rfl
@[simp] theorem State.setSeq_input (q : Seq) : (s.setSeq q).input = s.input := rfl
@[simp] theorem State.setSeq_ip (q : Seq) : (s.setSeq q).ip = s.ip := rfl
@[simp] theorem State.setSeq_spi (q : Seq) : (s.setSeq q).spi = s.spi := rfl
@[simp] theorem State.setSeq_pan (q : Seq) : (s.setSeq q).pan = s.pan := rfl
@[simp] theorem State.setSeq_trace (q : Seq) : (s.setSeq q).trace = s.trace := rfl
@[simp] theorem State.setSeq_seen (q : Seq) : (s.setSeq q).seen = s.seen := rfl
@[simp] theorem State.setSeq_resets (q : Seq) : (s.setSeq q).resets = s.resets := rfl

@[simp] theorem State.setTodo_cfg (ps : List Prim) : (s.setTodo ps).cfg = s.cfg := rfl
@[simp] theorem State.setTodo_row (ps : List Prim) : (s.setTodo ps).row = s.row := rfl
@[simp] theorem State.setTodo_col (ps : List Prim) : (s.setTodo ps).col = s.col := rfl
@[simp] theorem State.setTodo_phase (ps : List Prim) : (s.setTodo ps).phase = s.phase := rfl
@[simp] theorem State.setTodo_escHave (ps : List Prim) : (s.setTodo ps).escHave = s.escHave := rfl
@[simp] theorem State.setTodo_seq (ps : List Prim) : (s.setTodo ps).seq = s.seq := rfl
@[simp] theorem State.setTodo_todo (ps : List Prim) : (s.setTodo ps).todo = ps := rfl
@[simp] theorem State.setTodo_dc (ps : List Prim) : (s.setTodo ps).dc = s.dc := rfl
@[simp] theorem State.setTodo_cs (ps : List Prim) : (s.setTodo ps).cs = s.cs := rfl
@[simp] theorem State.setTodo_input (ps : List Prim) : (s.setTodo ps).input = s.input := rfl
@[simp] theorem State.setTodo_ip (ps : List Prim) : (s.setTodo ps).ip = s.ip := rfl
@[simp] theorem State.setTodo_spi (ps : List Prim) : (s.setTodo ps).spi = s.spi := rfl
@[simp] theorem State.setTodo_pan (ps : List Prim) : (s.setTodo ps).pan = s.pan := rfl
@[simp] theorem State.setTodo_trace (ps : List Prim) : (s.setTodo ps).trace = s.trace := rfl
@[simp] theorem State.setTodo_seen (ps : List Prim) : (s.setTodo ps).seen = s.seen := rfl
@[simp] theorem State.setTodo_resets (ps : List Prim) : (s.setTodo ps).resets = s.resets := rfl

@[simp] theorem State.setCursor_cfg (r c : Int) : (s.setCursor r c).cfg = s.cfg := rfl
@[simp] theorem State.setCursor_row (r c : Int) : (s.setCursor r c).row = r := rfl
@[simp] theorem State.setCursor_col (r c : Int) : (s.setCursor r c).col = c := rfl
@[simp] theorem State.setCursor_phase (r c : Int) : (s.setCursor r c).phase = s.phase := rfl
@[simp] theorem State.setCursor_escHave (r c : Int) : (s.setCursor r c).escHave = s.escHave := rfl
@[simp] theorem State.setCursor_seq (r c : Int) : (s.setCursor r c).seq = s.seq := rfl
@[simp] theorem State.setCursor_todo (r c : Int) : (s.setCursor r c).todo = s.todo := rfl
@[simp] theorem State.setCursor_dc (r c : Int) : (s.setCursor r c).dc = s.dc := rfl
@[simp] theorem State.setCursor_cs (r c : Int) : (s.setCursor r c).cs = s.cs := rfl
@[simp] theorem State.setCursor_input (r c : Int) : (s.setCursor r c).input = s.input := rfl
@[simp] theorem State.setCursor_ip (r c : Int) : (s.setCursor r c).ip = s.ip := rfl
@[simp] theorem State.setCursor_spi (r c : Int) : (s.setCursor r c).spi = s.spi := rfl
@[simp] theorem State.setCursor_pan (r c : Int) : (s.setCursor r c).pan = s.pan := rfl
@[simp] theorem State.setCursor_trace (r c : Int) : (s.setCursor r c).trace = s.trace := rfl
@[simp] theorem State.setCursor_seen (r c : Int) : (s.setCursor r c).seen = s.seen := rfl
@[simp] theorem State.setCursor_resets (r c : Int) : (s.setCursor r c).resets = s.resets := rfl

@[simp] theorem State.setPhase_cfg (p : Phase) (h : Fin 2) : (s.setPhase p h).cfg = s.cfg := rfl
@[simp] theorem State.setPhase_row (p : Phase) (h : Fin 2) : (s.setPhase p h).row = s.row := rfl
@[simp] theorem State.setPhase_col (p : Phase) (h : Fin 2) : (s.setPhase p h).col = s.col := rfl
@[simp] theorem State.setPhase_phase (p : Phase) (h : Fin 2) : (s.setPhase p h).phase = p := rfl
@[simp] theorem State.setPhase_escHave (p : Phase) (h : Fin 2) : (s.setPhase p h).escHave = h := rfl
@[simp] theorem State.setPhase_seq (p : Phase) (h : Fin 2) : (s.setPhase p h).seq = s.seq := rfl
@[simp] theorem State.setPhase_todo (p : Phase) (h : Fin 2) : (s.setPhase p h).todo = s.todo := rfl
@[simp] theorem State.setPhase_dc (p : Phase) (h : Fin 2) : (s.setPhase p h).dc = s.dc := rfl
@[simp] theorem State.setPhase_cs (p : Phase) (h : Fin 2) : (s.setPhase p h).cs = s.cs := rfl
@[simp] theorem State.setPhase_input (p : Phase) (h : Fin 2) : (s.setPhase p h).input = s.input := rfl
@[simp] theorem State.setPhase_ip (p : Phase) (h : Fin 2) : (s.setPhase p h).ip = s.ip := rfl
@[simp] theorem State.setPhase_spi (p : Phase) (h : Fin 2) : (s.setPhase p h).spi = s.spi := rfl
@[simp] theorem State.setPhase_pan (p : Phase) (h : Fin 2) : (s.setPhase p h).pan = s.pan := rfl
@[simp] theorem State.setPhase_trace (p : Phase) (h : Fin 2) : (s.setPhase p h).trace = s.trace := rfl
@[simp] theorem State.setPhase_seen (p : Phase) (h : Fin 2) : (s.setPhase p h).seen = s.seen := rfl
@[simp] theorem State.setPhase_resets (p : Phase) (h : Fin 2) : (s.setPhase p h).resets = s.resets := rfl

@[simp] theorem State.setSched_cfg (ns : List Nat) : (s.setSched ns).cfg = s.cfg := rfl
@[simp] theorem State.setSched_row (ns : List Nat) : (s.setSched ns).row = s.row := rfl
@[simp] theorem State.setSched_col (ns : List Nat) : (s.setSched ns).col = s.col := rfl
@[simp] theorem State.setSched_phase (ns : List Nat) : (s.setSched ns).phase = s.phase := rfl
@[simp] theorem State.setSched_escHave (ns : List Nat) : (s.setSched ns).escHave = s.escHave := rfl
@[simp] theorem State.setSched_seq (ns : List Nat) : (s.setSched ns).seq = s.seq := rfl
@[simp] theorem State.setSched_todo (ns : List Nat) : (s.setSched ns).todo = s.todo := rfl
@[simp] theorem State.setSched_dc (ns : List Nat) : (s.setSched ns).dc = s.dc := rfl
@[simp] theorem State.setSched_cs (ns : List Nat) : (s.setSched ns).cs = s.cs := rfl
@[simp] theorem State.setSched_input (ns : List Nat) : (s.setSched ns).input = s.input := rfl
@[simp] theorem State.setSched_ip (ns : List Nat) : (s.setSched ns).ip = s.ip := rfl
@[simp] theorem State.setSched_spi_q (ns : List Nat) : (s.setSched ns).spi.q = s.spi.q := rfl
@[simp] theorem State.setSched_spi_sched (ns : List Nat) : (s.setSched ns).spi.sched = ns := rfl
@[simp] theorem State.setSched_spi_pace (ns : List Nat) : (s.setSched ns).spi.pace = s.spi.pace := rfl
@[simp] theorem State.setSched_spi_coherent (ns : List Nat) : (s.setSched ns).spi.coherent = s.spi.coherent := rfl
@[simp] theorem State.setSched_pan (ns : List Nat) : (s.setSched ns).pan = s.pan := rfl
@[simp] theorem State.setSched_trace (ns : List Nat) : (s.setSched ns).trace = s.trace := rfl
@[simp] theorem State.setSched_seen (ns : List Nat) : (s.setSched ns).seen = s.seen := rfl
@[simp] theorem State.setSched_resets (ns : List Nat) : (s.setSched ns).resets = s.resets := rfl

@[simp] theorem State.pushTx_cfg (b : Byte) : (s.pushTx b).cfg = s.cfg := rfl
@[simp] theorem State.pushTx_row (b : Byte) : (s.pushTx b).row = s.row := rfl
@[simp] theorem State.pushTx_col (b : Byte) : (s.pushTx b).col = s.col := rfl
@[simp] theorem State.pushTx_phase (b : Byte) : (s.pushTx b).phase = s.phase := rfl
@[simp] theorem State.pushTx_escHave (b : Byte) : (s.pushTx b).escHave = s.escHave := rfl
@[simp] theorem State.pushTx_seq (b : Byte) : (s.pushTx b).seq = s.seq := rfl
@[simp] theorem State.pushTx_todo (b : Byte) : (s.pushTx b).todo = s.todo := rfl
@[simp] theorem State.pushTx_dc (b : Byte) : (s.pushTx b).dc = s.dc := rfl
@[simp] theorem State.pushTx_cs (b : Byte) : (s.pushTx b).cs = s.cs := rfl
@[simp] theorem State.pushTx_input (b : Byte) : (s.pushTx b).input = s.input := rfl
@[simp] theorem State.pushTx_ip (b : Byte) : (s.pushTx b).ip = s.ip := rfl
@[simp] theorem State.pushTx_spi_q (b : Byte) : (s.pushTx b).spi.q = s.spi.q ++ [⟨s.dc, b⟩] := rfl
@[simp] theorem State.pushTx_spi_sched (b : Byte) : (s.pushTx b).spi.sched = s.spi.sched := rfl
@[simp] theorem State.pushTx_spi_pace (b : Byte) : (s.pushTx b).spi.pace = s.spi.pace := rfl
@[simp] theorem State.pushTx_spi_coherent (b : Byte) : (s.pushTx b).spi.coherent = s.spi.coherent := rfl
@[simp] theorem State.pushTx_pan (b : Byte) : (s.pushTx b).pan = s.pan := rfl
@[simp] theorem State.pushTx_trace (b : Byte) : (s.pushTx b).trace = .tx b :: s.trace := rfl
@[simp] theorem State.pushTx_seen (b : Byte) : (s.pushTx b).seen = s.seen := rfl
@[simp] theorem State.pushTx_resets (b : Byte) : (s.pushTx b).resets = s.resets := rfl

@[simp] theorem State.externalReset_cfg : s.externalReset.cfg = s.cfg := rfl
@[simp] theorem State.externalReset_row : s.externalReset.row = 0 := rfl
@[simp] theorem State.externalReset_col : s.externalReset.col = 0 := rfl
@[simp] theorem State.externalReset_phase : s.externalReset.phase = .normal := rfl
@[simp] theorem State.externalReset_escHave : s.externalReset.escHave = 0 := rfl
@[simp] theorem State.externalReset_seq : s.externalReset.seq = State.reset.seq := rfl
@[simp] theorem State.externalReset_todo : s.externalReset.todo = [] := rfl
@[simp] theorem State.externalReset_dc : s.externalReset.dc = s.dc := rfl
@[simp] theorem State.externalReset_cs : s.externalReset.cs = .high := rfl
@[simp] theorem State.externalReset_input : s.externalReset.input = s.input := rfl
@[simp] theorem State.externalReset_ip : s.externalReset.ip = 0 := rfl
@[simp] theorem State.externalReset_spi_q : s.externalReset.spi.q = [] := rfl
@[simp] theorem State.externalReset_spi_sched : s.externalReset.spi.sched = s.spi.sched := rfl
@[simp] theorem State.externalReset_spi_pace : s.externalReset.spi.pace = s.spi.pace := rfl
@[simp] theorem State.externalReset_spi_coherent : s.externalReset.spi.coherent = s.spi.coherent := rfl
@[simp] theorem State.externalReset_pan : s.externalReset.pan = s.pan.newRun (s.resets + 1) := rfl
@[simp] theorem State.externalReset_trace : s.externalReset.trace = [] := rfl
@[simp] theorem State.externalReset_seen : s.externalReset.seen = [] := rfl
@[simp] theorem State.externalReset_resets : s.externalReset.resets = s.resets + 1 := rfl

end Sys2Proof.Machine
end

