-- ==== Sys2Proof/Laws/Memory.lean ====
section
/-! SUPPORT. The laws of the frame memory: a read after a write, a write leaves every other address alone, every write keeps
the canonical form, and distinct pixels have distinct addresses. -/

namespace Sys2Proof.Machine

open Host (Cell)

theorem readCell_writeCell_same (m : List Cell) (a : Nat) (b : Byte) : readCell (writeCell m a b) a = some b := by
  induction m with
  | nil => simp [writeCell, readCell]
  | cons e m ih =>
    obtain ⟨k, v⟩ := e
    simp only [writeCell]
    split
    · simp [readCell]
    · split
      · simp [readCell]
      · rename_i h1 h2
        simp [readCell, h1, h2, ih]

theorem readCell_writeCell_other (m : List Cell) {a c : Nat} (b : Byte) (h : c ≠ a) :
    readCell (writeCell m a b) c = readCell m c := by
  induction m with
  | nil => simp [writeCell, readCell, h]
  | cons e m ih =>
    obtain ⟨k, v⟩ := e
    simp only [writeCell]
    split
    · rename_i hak
      simp only [readCell, if_neg h]
      by_cases hca : c < a
      · have hck : c < k := by omega
        have hne : c ≠ k := by omega
        simp [hca, hck, hne]
      · simp [hca]
    · split
      · rename_i hak
        subst hak
        simp [readCell, h]
      · simp only [readCell, ih]

theorem memoryWf_writeCell_aux (m : List Cell) (a : Nat) (b : Byte) (h : memoryWf m = true) :
    memoryWf (writeCell m a b) = true ∧
      ∀ k v, memoryWf ((k, v) :: m) = true → k < a → memoryWf ((k, v) :: writeCell m a b) = true := by
  induction m with
  | nil => simp [writeCell, memoryWf]
  | cons e m ih =>
    obtain ⟨j, w⟩ := e
    have hm : memoryWf m = true := by
      cases m with
      | nil => rfl
      | cons x m => simp [memoryWf] at h; exact h.2
    obtain ⟨ih1, ih2⟩ := ih hm
    simp only [writeCell]
    split
    · rename_i haj
      refine ⟨by simp [memoryWf, haj, h], ?_⟩
      intro k v hk hka
      simp [memoryWf, hka, haj, h]
    · split
      · rename_i haj
        subst haj
        have key : ∀ m : List Cell, memoryWf ((a, w) :: m) = true → memoryWf ((a, b) :: m) = true := by
          intro m hm
          cases m with
          | nil => rfl
          | cons x m => simpa [memoryWf] using hm
        refine ⟨key _ h, ?_⟩
        intro k v hk hka
        simp [memoryWf, hka, key _ h]
      · rename_i h1 h2
        have hja : j < a := by omega
        refine ⟨ih2 _ _ h hja, ?_⟩
        intro k v hk hka
        have hkj : k < j := by simp [memoryWf] at hk; exact hk.1
        simp [memoryWf, hkj, ih2 _ _ h hja]

theorem memoryWf_writeCell {m : List Cell} (a : Nat) (b : Byte) (h : memoryWf m = true) :
    memoryWf (writeCell m a b) = true :=
  (memoryWf_writeCell_aux m a b h).1

theorem memoryWf_writePixel {m : List Cell} (x y : Nat) (p : Pixel) (h : memoryWf m = true) :
    memoryWf (writePixel m x y p) = true :=
  memoryWf_writeCell _ _ (memoryWf_writeCell _ _ (memoryWf_writeCell _ _ h))

/-- Pixels with distinct coordinates, columns below 65536, have distinct addresses. -/
theorem frameAddr_inj {x y k x' y' k' : Nat} (hx : x < 65536) (hx' : x' < 65536) (hk : k < 3) (hk' : k' < 3)
    (h : frameAddr x y k = frameAddr x' y' k') : x = x' ∧ y = y' ∧ k = k' := by
  unfold frameAddr at h
  omega

theorem readCell_writePixel_other (m : List Cell) (x y : Nat) (p : Pixel) {a : Nat}
    (h : ∀ k < 3, a ≠ frameAddr x y k) : readCell (writePixel m x y p) a = readCell m a := by
  unfold writePixel
  rw [readCell_writeCell_other _ _ (h 2 (by decide)), readCell_writeCell_other _ _ (h 1 (by decide)),
    readCell_writeCell_other _ _ (h 0 (by decide))]

theorem readPixel_writePixel_same (m : List Cell) (x y : Nat) (p : Pixel) :
    readPixel (writePixel m x y p) x y = some p := by
  have h01 : frameAddr x y 0 ≠ frameAddr x y 1 := by unfold frameAddr; omega
  have h02 : frameAddr x y 0 ≠ frameAddr x y 2 := by unfold frameAddr; omega
  have h12 : frameAddr x y 1 ≠ frameAddr x y 2 := by unfold frameAddr; omega
  simp [readPixel, writePixel, readCell_writeCell_same, readCell_writeCell_other, h01, h02, h12]

theorem readPixel_congr {m m' : List Cell} {x y : Nat}
    (h : ∀ k < 3, readCell m' (frameAddr x y k) = readCell m (frameAddr x y k)) :
    readPixel m' x y = readPixel m x y := by
  simp [readPixel, h 0 (by decide), h 1 (by decide), h 2 (by decide)]

theorem readPixel_writePixel_other (m : List Cell) {x y x' y' : Nat} (p : Pixel) (hx : x < 65536) (hx' : x' < 65536)
    (h : x' ≠ x ∨ y' ≠ y) : readPixel (writePixel m x y p) x' y' = readPixel m x' y' := by
  refine readPixel_congr fun k hk => readCell_writePixel_other m x y p fun k' hk' heq => ?_
  have := frameAddr_inj hx' hx hk hk' heq
  omega

end Sys2Proof.Machine
end

