-- ==== Sys2Proof/Laws/Panel.lean ====
section
/-! SUPPORT. What the controller does with the items of each wire command (20_memory.md R56 to R60). -/

namespace Sys2Proof.Machine

open Host (Cell)

variable {cfg : Config}

/-- A bound is put together from the two bytes it was split into (30_encoding.md R89). -/
theorem boundOf_hi_lo (v : Bound) : boundOf (hiByte v) (loByte v) = v := by
  apply BitVec.eq_of_getLsbD_eq
  intro i hi
  simp only [boundOf, hiByte, loByte, BitVec.getLsbD_append, BitVec.getLsbD_extractLsb']
  by_cases h : i < 8
  · simp [h]
  · have : 8 + (i - 8) = i := by omega
    have h8 : i - 8 < 8 := by omega
    simp [h, this, h8]

theorem panelItems_append (as bs : List WireItem) (ps : PanelState) :
    panelItems cfg (as ++ bs) ps = panelItems cfg bs (panelItems cfg as ps) := by
  induction as generalizing ps with
  | nil => rfl
  | cons a as ih => exact ih _

theorem panelItems_lost (ws : List WireItem) (why : PanelLoss) :
    panelItems cfg ws (.lost why) = .lost why := by
  induction ws with
  | nil => rfl
  | cons w ws ih => exact ih

/-- Nothing follows a lost controller, so what comes before a live one was live. -/
theorem panelItems_live {ws : List WireItem} {ps : PanelState} {q : Panel} (h : panelItems cfg ws ps = .live q) :
    ∃ p, ps = .live p := by
  cases ps with
  | live p => exact ⟨p, rfl⟩
  | lost why => rw [panelItems_lost] at h; cases h

/-! ## The canonical form of the frame -/

theorem store_wf {p : Panel} (v : Pixel) (h : memoryWf p.frame = true) : memoryWf (p.store v).frame = true := by
  unfold Panel.store Panel.advance
  split <;> exact memoryWf_writePixel _ _ _ h

theorem panelItem_wf (w : WireItem) {ps : PanelState} (h : memoryWf ps.frame = true) :
    memoryWf (panelItem cfg w ps).frame = true := by
  cases ps with
  | lost why => rfl
  | live p =>
    have hp : memoryWf p.frame = true := h
    obtain ⟨m, b⟩ := w
    cases m with
    | cmd =>
      simp only [panelItem, panelCommand]
      repeat' split
      all_goals first | rfl | exact hp
    | data =>
      simp only [panelItem, panelData, panelPayload, panelBound, Panel.setCols, Panel.setRows]
      repeat' split
      all_goals first | rfl | exact hp | exact store_wf _ hp

theorem panelItems_wf (ws : List WireItem) {ps : PanelState} (h : memoryWf ps.frame = true) :
    memoryWf (panelItems cfg ws ps).frame = true := by
  induction ws generalizing ps with
  | nil => exact h
  | cons w ws ih => exact ih (panelItem_wf w h)

/-! ## A new run -/

@[simp] theorem Panel.current_fresh {p : Panel} (h : p.fresh = true) : p.current = none := by simp [Panel.current, h]

theorem Panel.complete_fresh {p : Panel} (h : p.fresh = true) : p.complete = true := by simp [Panel.complete, h]

@[simp] theorem newRun_frame (n : Nat) (ps : PanelState) : (ps.newRun n).frame = ps.frame := by cases ps <;> rfl

/-- Whatever the controller was, a new run finds it live and ready for a command (10_state.md R37, 70_reset_and_hazards.md
R221). -/
theorem newRun_live (n : Nat) (ps : PanelState) : ∃ p, ps.newRun n = .live p ∧ p.fresh = true ∧ p.complete = true := by
  cases ps with
  | live p => exact ⟨_, rfl, rfl, Panel.complete_fresh rfl⟩
  | lost why => exact ⟨_, rfl, rfl, Panel.complete_fresh rfl⟩

/-- What an earlier run left in the command registers does not matter to the first command (90_conflicts.md C11). -/
theorem panelItem_fresh {p : Panel} (h : p.fresh = true) (op : Byte) (cmd : Option Byte) (idx : Nat) (buf : List Byte) :
    panelItem cfg (.c op) (.live { p with cmd := cmd, idx := idx, buf := buf }) = panelItem cfg (.c op) (.live p) := by
  simp [panelItem, panelCommand, Panel.complete, h, Panel.latch, Panel.windowOk, Panel.current]

/-! ## The commands -/

theorem panelItem_exitSleep {p : Panel} (h : p.complete = true) :
    panelItem cfg (.c opExitSleep) (.live p) = .live { p.latch opExitSleep with sleep := false } := by
  simp [panelItem, panelCommand, h]

theorem panelItem_displayOn {p : Panel} (h : p.complete = true) :
    panelItem cfg (.c opDisplayOn) (.live p) = .live { p.latch opDisplayOn with on := true } := by
  simp [panelItem, panelCommand, h, opDisplayOn, opExitSleep]

theorem panelItems_colAddrSet {p : Panel} (a b : Bound) (h : p.complete = true) :
    panelItems cfg (wireItems (.colAddrSet a b)) (.live p) =
      .live { p with xs := a, xe := b, fresh := false, cmd := some opColAddrSet, idx := 4, buf := boundBytes a b } := by
  simp [wireItems, dataItems, boundBytes, panelItems, panelItem, panelCommand, h, panelData, panelBound, Panel.current, Panel.latch,
    Panel.setCols, boundOf_hi_lo, opColAddrSet, opExitSleep, opDisplayOn]

theorem panelItems_rowAddrSet {p : Panel} (a b : Bound) (h : p.complete = true) :
    panelItems cfg (wireItems (.rowAddrSet a b)) (.live p) =
      .live { p with ys := a, ye := b, fresh := false, cmd := some opRowAddrSet, idx := 4, buf := boundBytes a b } := by
  simp [wireItems, dataItems, boundBytes, panelItems, panelItem, panelCommand, h, panelData, panelBound, Panel.current, Panel.latch,
    Panel.setRows, boundOf_hi_lo, opColAddrSet, opRowAddrSet, opExitSleep, opDisplayOn]

theorem panelItems_memAccessCtrl {p : Panel} (b : Byte) (h : p.complete = true) :
    panelItems cfg (wireItems (.memAccessCtrl b)) (.live p) =
      .live { p with mac := b, fresh := false, cmd := some opMemAccessCtrl, idx := 1, buf := [] } := by
  simp [wireItems, panelItems, panelItem, panelCommand, h, panelData, Panel.current, Panel.latch,
    opColAddrSet, opRowAddrSet, opExitSleep, opDisplayOn, opMemAccessCtrl]

theorem panelItem_memWrite {p : Panel} (h : p.complete = true) (hw : p.windowOk cfg = true) :
    panelItem cfg (.c opMemWrite) (.live p) =
      .live { p.latch opMemWrite with px := p.xs.toNat, py := p.ys.toNat } := by
  simp [panelItem, panelCommand, h, hw, opColAddrSet, opRowAddrSet, opExitSleep, opDisplayOn, opMemAccessCtrl, opMemWrite]

/-! ## A burst -/

/-- A controller in a memory write whose pointer stands at pixel number `k` of the burst (20_memory.md R60). -/
structure Panel.AtPixel (p : Panel) (k : Nat) : Prop where
  fresh  : p.fresh = false
  cmd    : p.cmd = some opMemWrite
  buf    : p.buf = []
  awake  : p.sleep = false
  cols   : p.xs ≤ p.xe
  rows   : p.ys ≤ p.ye
  column : p.px = p.xs.toNat + k % p.width
  row    : p.py = p.ys.toNat + k / p.width

/-- The controller after one whole pixel. -/
def Panel.pixel (p : Panel) (v : Pixel) : Panel := { p.store v with buf := [], idx := p.idx + 3 }

/-- The controller after a list of pixels. -/
def Panel.pixels (p : Panel) (vs : List Pixel) : Panel := vs.foldl Panel.pixel p

section Pixel
variable (p : Panel) (v : Pixel)
@[simp] theorem Panel.pixel_xs : (p.pixel v).xs = p.xs := by unfold Panel.pixel Panel.store Panel.advance; split <;> rfl
@[simp] theorem Panel.pixel_xe : (p.pixel v).xe = p.xe := by unfold Panel.pixel Panel.store Panel.advance; split <;> rfl
@[simp] theorem Panel.pixel_ys : (p.pixel v).ys = p.ys := by unfold Panel.pixel Panel.store Panel.advance; split <;> rfl
@[simp] theorem Panel.pixel_ye : (p.pixel v).ye = p.ye := by unfold Panel.pixel Panel.store Panel.advance; split <;> rfl
@[simp] theorem Panel.pixel_mac : (p.pixel v).mac = p.mac := by unfold Panel.pixel Panel.store Panel.advance; split <;> rfl
@[simp] theorem Panel.pixel_sleep : (p.pixel v).sleep = p.sleep := by unfold Panel.pixel Panel.store Panel.advance; split <;> rfl
@[simp] theorem Panel.pixel_on : (p.pixel v).on = p.on := by unfold Panel.pixel Panel.store Panel.advance; split <;> rfl
@[simp] theorem Panel.pixel_fresh : (p.pixel v).fresh = p.fresh := by unfold Panel.pixel Panel.store Panel.advance; split <;> rfl
@[simp] theorem Panel.pixel_cmd : (p.pixel v).cmd = p.cmd := by unfold Panel.pixel Panel.store Panel.advance; split <;> rfl
@[simp] theorem Panel.pixel_buf : (p.pixel v).buf = [] := by unfold Panel.pixel; rfl
@[simp] theorem Panel.pixel_idx : (p.pixel v).idx = p.idx + 3 := by unfold Panel.pixel; rfl
@[simp] theorem Panel.pixel_frame : (p.pixel v).frame = writePixel p.frame p.px p.py v := by
  unfold Panel.pixel Panel.store Panel.advance; split <;> rfl
theorem Panel.pixel_px : (p.pixel v).px = if p.px = p.xe.toNat then p.xs.toNat else p.px + 1 := by
  unfold Panel.pixel Panel.store Panel.advance; split <;> simp_all
theorem Panel.pixel_py : (p.pixel v).py = if p.px = p.xe.toNat then p.py + 1 else p.py := by
  unfold Panel.pixel Panel.store Panel.advance; split <;> simp_all
end Pixel

section Pixels
variable (p : Panel) (vs : List Pixel)
@[simp] theorem Panel.pixels_nil : p.pixels [] = p := rfl
@[simp] theorem Panel.pixels_cons (v : Pixel) : p.pixels (v :: vs) = (p.pixel v).pixels vs := rfl
@[simp] theorem Panel.pixels_xs : (p.pixels vs).xs = p.xs := by induction vs generalizing p <;> simp [*]
@[simp] theorem Panel.pixels_xe : (p.pixels vs).xe = p.xe := by induction vs generalizing p <;> simp [*]
@[simp] theorem Panel.pixels_ys : (p.pixels vs).ys = p.ys := by induction vs generalizing p <;> simp [*]
@[simp] theorem Panel.pixels_ye : (p.pixels vs).ye = p.ye := by induction vs generalizing p <;> simp [*]
@[simp] theorem Panel.pixels_mac : (p.pixels vs).mac = p.mac := by induction vs generalizing p <;> simp [*]
@[simp] theorem Panel.pixels_sleep : (p.pixels vs).sleep = p.sleep := by induction vs generalizing p <;> simp [*]
@[simp] theorem Panel.pixels_on : (p.pixels vs).on = p.on := by induction vs generalizing p <;> simp [*]
@[simp] theorem Panel.pixels_fresh : (p.pixels vs).fresh = p.fresh := by induction vs generalizing p <;> simp [*]
@[simp] theorem Panel.pixels_cmd : (p.pixels vs).cmd = p.cmd := by induction vs generalizing p <;> simp [*]
end Pixels

theorem Panel.width_pos (p : Panel) : 0 < p.width := by unfold Panel.width; omega

/-- Counting on inside a row of the window. -/
theorem next_in_row {k w : Nat} (h : k % w + 1 < w) : (k + 1) % w = k % w + 1 ∧ (k + 1) / w = k / w := by
  have e := Nat.div_add_mod k w
  have h2 : k + 1 = (k % w + 1) + w * (k / w) := by omega
  constructor
  · rw [h2, Nat.add_mul_mod_self_left, Nat.mod_eq_of_lt h]
  · conv_lhs => rw [h2]
    rw [Nat.add_mul_div_left _ _ (by omega), Nat.div_eq_of_lt h, Nat.zero_add]

/-- Counting on to the next row of the window. -/
theorem next_row {k w : Nat} (h : k % w + 1 = w) : (k + 1) % w = 0 ∧ (k + 1) / w = k / w + 1 := by
  have e := Nat.div_add_mod k w
  have h2 : k + 1 = w * (k / w + 1) := by rw [Nat.mul_add, Nat.mul_one]; omega
  constructor
  · rw [h2, Nat.mul_mod_right]
  · conv_lhs => rw [h2]
    rw [Nat.mul_div_cancel_left _ (by omega)]

theorem Panel.AtPixel.pixel {p : Panel} {k : Nat} (h : p.AtPixel k) (v : Pixel) : (p.pixel v).AtPixel (k + 1) := by
  have hw : (p.pixel v).width = p.width := by simp [Panel.width]
  have hlt : k % p.width < p.width := Nat.mod_lt _ p.width_pos
  have hc := h.column
  have hr := h.row
  have hcols : p.xs.toNat ≤ p.xe.toNat := h.cols
  have hwid : p.width = p.xe.toNat - p.xs.toNat + 1 := rfl
  refine ⟨by simp [h.fresh], by simp [h.cmd], by simp, by simp [h.awake], by simpa using h.cols, by simpa using h.rows, ?_, ?_⟩
  · rw [hw, Panel.pixel_px, Panel.pixel_xs]
    by_cases hend : p.px = p.xe.toNat
    · rw [if_pos hend, (next_row (k := k) (w := p.width) (by omega)).1, Nat.add_zero]
    · rw [if_neg hend, (next_in_row (k := k) (w := p.width) (by omega)).1]; omega
  · rw [hw, Panel.pixel_py, Panel.pixel_ys]
    by_cases hend : p.px = p.xe.toNat
    · rw [if_pos hend, (next_row (k := k) (w := p.width) (by omega)).2]; omega
    · rw [if_neg hend, (next_in_row (k := k) (w := p.width) (by omega)).2]; omega

theorem Panel.AtPixel.pixels {p : Panel} {k : Nat} (h : p.AtPixel k) (vs : List Pixel) :
    (p.pixels vs).AtPixel (k + vs.length) := by
  induction vs generalizing p k with
  | nil => exact h
  | cons v vs ih =>
    have := ih (h.pixel v)
    rwa [show k + (v :: vs).length = k + 1 + vs.length by simp only [List.length_cons]; omega]

theorem panelItems_pixel {p : Panel} {k : Nat} (h : p.AtPixel k) (hk : k < p.width * p.height) (v : Pixel) :
    panelItems cfg (dataItems (pixelBytes v)) (.live p) = .live (p.pixel v) := by
  have hpy : ¬ p.ye.toNat < p.py := by
    have h1 : k / p.width < p.height := Nat.div_lt_of_lt_mul hk
    have h2 := h.row
    have h3 : p.ys.toNat ≤ p.ye.toNat := h.rows
    unfold Panel.height at h1
    omega
  by_cases hpx : p.px = p.xe.toNat <;>
    simp [dataItems, pixelBytes, panelItems, panelItem, panelData, panelPayload, Panel.current, h.fresh, h.cmd, h.buf, h.awake, hpy, hpx,
      opMemWrite, opColAddrSet, opRowAddrSet, opMemAccessCtrl, Panel.pixel, Panel.store, Panel.advance]

/-- A burst that stays in its window is taken pixel by pixel (20_memory.md R60). -/
theorem panelItems_pixels {p : Panel} {k : Nat} (h : p.AtPixel k) (vs : List Pixel)
    (hk : k + vs.length ≤ p.width * p.height) :
    panelItems cfg (dataItems (vs.flatMap pixelBytes)) (.live p) = .live (p.pixels vs) := by
  induction vs generalizing p k with
  | nil => rfl
  | cons v vs ih =>
    simp only [List.length_cons] at hk
    have hw : (p.pixel v).width * (p.pixel v).height = p.width * p.height := by simp [Panel.width, Panel.height]
    rw [List.flatMap_cons, dataItems, List.map_append, panelItems_append]
    rw [show List.map _ (pixelBytes v) = dataItems (pixelBytes v) from rfl, panelItems_pixel h (by omega) v]
    exact ih (h.pixel v) (by rw [hw]; omega)

/-- The frame after a burst: pixel `j` at its place of the window, and no other byte touched (20_memory.md R60). -/
theorem pixels_frame {p : Panel} {k : Nat} (h : p.AtPixel k) (vs : List Pixel) :
    (∀ j (hj : j < vs.length), readPixel (p.pixels vs).frame (p.xs.toNat + (k + j) % p.width)
        (p.ys.toNat + (k + j) / p.width) = some vs[j]) ∧
    ∀ a, (∀ j < vs.length, ∀ i < 3, a ≠ frameAddr (p.xs.toNat + (k + j) % p.width) (p.ys.toNat + (k + j) / p.width) i) →
      readCell (p.pixels vs).frame a = readCell p.frame a := by
  induction vs generalizing p k with
  | nil => simp
  | cons v vs ih =>
    obtain ⟨ih1, ih2⟩ := ih (h.pixel v)
    have hw : (p.pixel v).width = p.width := by simp [Panel.width]
    simp only [hw, Panel.pixel_xs, Panel.pixel_ys] at ih1 ih2
    have hcol := h.column
    have hrow := h.row
    constructor
    · intro j hj
      cases j with
      | zero =>
        by_cases hagain : ∃ j, j < vs.length ∧ (k + 1 + j) % p.width = k % p.width ∧ (k + 1 + j) / p.width = k / p.width
        · obtain ⟨j, hj, h1, h2⟩ := hagain
          have e1 := Nat.div_add_mod (k + 1 + j) p.width
          have e2 := Nat.div_add_mod k p.width
          rw [h1, h2] at e1
          omega
        · have hpix : readPixel (p.pixel v).frame (p.xs.toNat + k % p.width) (p.ys.toNat + k / p.width) = some v := by
            rw [Panel.pixel_frame, hcol, hrow]
            exact readPixel_writePixel_same _ _ _ _
          simp only [Panel.pixels_cons, Nat.add_zero, List.getElem_cons_zero]
          rw [← hpix]
          refine readPixel_congr fun i hi => ih2 _ fun j hj i' hi' heq => hagain ⟨j, hj, ?_⟩
          have hxe : p.xe.toNat < 65536 := p.xe.isLt
          have hcols : p.xs.toNat ≤ p.xe.toNat := h.cols
          have l1 : k % p.width < p.width := Nat.mod_lt _ p.width_pos
          have l2 : (k + 1 + j) % p.width < p.width := Nat.mod_lt _ p.width_pos
          have hwid : p.width = p.xe.toNat - p.xs.toNat + 1 := rfl
          have := frameAddr_inj (by omega) (by omega) hi hi' heq
          omega
      | succ j =>
        simp only [List.length_cons] at hj
        have := ih1 j (by omega)
        simpa [Nat.add_assoc, Nat.add_comm 1 j] using this
    · intro a ha
      simp only [Panel.pixels_cons]
      rw [ih2 a, Panel.pixel_frame, readCell_writePixel_other]
      · intro i hi
        have := ha 0 (by simp) i hi
        rwa [hcol, hrow]
      · intro j hj i hi
        have := ha (j + 1) (by simpa using hj) i hi
        rwa [show k + (j + 1) = k + 1 + j by omega] at this

end Sys2Proof.Machine
end

