-- ==== Sys2Proof/Laws/Trace.lean ====
section
/-! SUPPORT. Reading a trace in two parts. -/

namespace Sys2Proof.Machine

theorem wireFrom_append (m : Mode) (a b : List Event) :
    wireFrom m (a ++ b) = wireFrom m a ++ wireFrom (modeAfter m a) b := by
  induction a generalizing m with
  | nil => rfl
  | cons e a ih => cases e <;> simp [wireFrom, modeAfter, ih]

theorem modeAfter_append (m : Mode) (a b : List Event) : modeAfter m (a ++ b) = modeAfter (modeAfter m a) b := by
  induction a generalizing m with
  | nil => rfl
  | cons e a ih => cases e <;> simp [modeAfter, ih]

theorem levelAfter_append (l : Level) (a b : List Event) : levelAfter l (a ++ b) = levelAfter (levelAfter l a) b := by
  induction a generalizing l with
  | nil => rfl
  | cons e a ih => cases e <;> simp [levelAfter, ih]

theorem txBytes_append (a b : List Event) : txBytes (a ++ b) = txBytes a ++ txBytes b := by
  induction a with
  | nil => rfl
  | cons e a ih => cases e <;> simp [txBytes, ih]

theorem rxBytes_append (a b : List Event) : rxBytes (a ++ b) = rxBytes a ++ rxBytes b := by
  induction a with
  | nil => rfl
  | cons e a ih => cases e <;> simp [rxBytes, ih]

theorem drains_append (a b : List Event) : drains (a ++ b) = drains a + drains b := by
  induction a with
  | nil => simp [drains]
  | cons e a ih => cases e <;> (simp only [List.cons_append, drains, ih]; try omega)

/-- The bytes of a wire view are the transmitted bytes. -/
theorem wireFrom_bytes (m : Mode) (t : List Event) : (wireFrom m t).map WireItem.byte = txBytes t := by
  induction t generalizing m with
  | nil => rfl
  | cons e t ih => cases e <;> simp [wireFrom, txBytes, ih]

/-- Primitives receive nothing. -/
theorem rxBytes_prims (ps : List Prim) : rxBytes (ps.map Prim.event) = [] := by
  induction ps with
  | nil => rfl
  | cons p ps ih => cases p <;> simpa [rxBytes, Prim.event] using ih

theorem events_of_trace {s t : State} {es : List Event} (h : t.trace = es.reverse ++ s.trace) :
    t.events = s.events ++ es := by
  simp [State.events, h]

end Sys2Proof.Machine
end

