-- ==== Sys2Proof/Laws/Transport.lean ====
section
/-! SUPPORT. Everything the environment can do between two primitives (`EnvOnly`), everything a run of primitives can do
(`Ran`), when such a run is executed, and where it blocks. -/

namespace Sys2Proof.Machine

/-- `t` differs from `s` by deliveries only: the engine is unchanged, what is delivered leaves the queue in order, and
under coherence the controller comes to the same state once everything is delivered. -/
structure EnvOnly (s t : State) : Prop where
  engine   : t = { s with spi := t.spi, pan := t.pan, seen := t.seen }
  pace     : t.spi.pace = s.spi.pace
  coherent : t.spi.coherent = s.spi.coherent
  settled  : s.spi.coherent = true → t.settled = s.settled
  items    : s.spi.coherent = true → t.seen.reverse ++ t.spi.q = s.seen.reverse ++ s.spi.q
  bytes    : (t.seen.reverse ++ t.spi.q).map WireItem.byte = (s.seen.reverse ++ s.spi.q).map WireItem.byte
  room     : t.spi.q.length ≤ s.spi.q.length
  memory   : memoryWf s.pan.frame = true → memoryWf t.pan.frame = true

namespace EnvOnly

theorem refl (s : State) : EnvOnly s s := ⟨rfl, rfl, rfl, fun _ => rfl, fun _ => rfl, rfl, le_rfl, id⟩

theorem trans {s t u : State} (h : EnvOnly s t) (k : EnvOnly t u) : EnvOnly s u where
  engine := by rw [k.engine, h.engine]
  pace := k.pace.trans h.pace
  coherent := k.coherent.trans h.coherent
  settled hc := (k.settled (h.coherent.trans hc)).trans (h.settled hc)
  items hc := (k.items (h.coherent.trans hc)).trans (h.items hc)
  bytes := k.bytes.trans h.bytes
  room := k.room.trans h.room
  memory hm := k.memory (h.memory hm)

variable {s t : State} (h : EnvOnly s t)
include h

theorem cfg : t.cfg = s.cfg := by rw [h.engine]
theorem resets : t.resets = s.resets := by rw [h.engine]
theorem row : t.row = s.row := by rw [h.engine]
theorem col : t.col = s.col := by rw [h.engine]
theorem phase : t.phase = s.phase := by rw [h.engine]
theorem escHave : t.escHave = s.escHave := by rw [h.engine]
theorem seq : t.seq = s.seq := by rw [h.engine]
theorem todo : t.todo = s.todo := by rw [h.engine]
theorem dc : t.dc = s.dc := by rw [h.engine]
theorem cs : t.cs = s.cs := by rw [h.engine]
theorem input : t.input = s.input := by rw [h.engine]
theorem ip : t.ip = s.ip := by rw [h.engine]
theorem trace : t.trace = s.trace := by rw [h.engine]

end EnvOnly

/-! ## The environment's operations -/

theorem envOnly_deliver (s : State) : EnvOnly s s.deliver := by
  unfold State.deliver
  split
  · exact .refl s
  · rename_i w ws hq
    refine ⟨rfl, rfl, rfl, fun hc => ?_, fun hc => ?_, ?_, ?_, fun hm => panelItem_wf _ hm⟩
    · simp [State.settled, State.takenAs, hc, hq, panelItems]
    · simp [State.takenAs, hc, hq]
    · by_cases hc : s.spi.coherent <;> simp [State.takenAs, hc, hq]
    · simp [hq]

theorem deliver_length (s : State) : s.deliver.spi.q.length = s.spi.q.length - 1 := by
  unfold State.deliver
  split <;> simp [*]

theorem envOnly_deliverN (n : Nat) (s : State) : EnvOnly s (deliverN n s) := by
  induction n generalizing s with
  | zero => exact .refl s
  | succ n ih => exact (envOnly_deliver s).trans (ih _)

theorem deliverN_length (n : Nat) (s : State) : (deliverN n s).spi.q.length = s.spi.q.length - n := by
  induction n generalizing s with
  | zero => rfl
  | succ n ih => simp only [deliverN, ih, deliver_length]; omega

theorem deliver_sched (s : State) : s.deliver.spi.sched = s.spi.sched := by
  unfold State.deliver
  split <;> rfl

theorem deliverN_sched (n : Nat) (s : State) : (deliverN n s).spi.sched = s.spi.sched := by
  induction n generalizing s with
  | zero => rfl
  | succ n ih => simp only [deliverN, ih, deliver_sched]

theorem envOnly_setSched (ns : List Nat) (s : State) : EnvOnly s (s.setSched ns) :=
  ⟨rfl, rfl, rfl, fun _ => rfl, fun _ => rfl, rfl, le_rfl, id⟩

theorem envOnly_envTurn (s : State) : EnvOnly s s.envTurn := by
  unfold State.envTurn
  split
  · exact (envOnly_setSched _ s).trans (envOnly_deliverN _ _)
  · split
    · exact envOnly_deliverN _ s
    · exact .refl s
    · exact .refl s

theorem envOnly_idleTurn (s : State) : EnvOnly s s.idleTurn := by
  unfold State.idleTurn
  split
  · exact (envOnly_setSched _ s).trans (envOnly_deliverN _ _)
  · split
    · exact envOnly_deliverN _ s
    · exact envOnly_deliverN _ s
    · exact .refl s

theorem envOnly_deliverUntil (ready : State → Bool) (n : Nat) (s : State) : EnvOnly s (deliverUntil ready n s) := by
  induction n generalizing s with
  | zero => exact .refl s
  | succ n ih =>
    unfold deliverUntil
    split
    · exact .refl s
    · exact (envOnly_deliver s).trans (ih _)

theorem envOnly_pollUntil (ready : State → Bool) (ns : List Nat) (s : State) : EnvOnly s (pollUntil ready ns s) := by
  induction ns generalizing s with
  | nil =>
    unfold pollUntil
    split
    · exact envOnly_deliverUntil _ _ _
    · exact envOnly_deliverUntil _ _ _
    · exact .refl s
  | cons n ns ih =>
    unfold pollUntil
    split
    · exact .refl s
    · exact ((envOnly_setSched _ s).trans (envOnly_deliverN _ _)).trans (ih _)

theorem envOnly_poll (ready : State → Bool) (s : State) : EnvOnly s (s.poll ready) := envOnly_pollUntil _ _ _

/-- Deliveries until the predicate end with the predicate, if it holds once everything is delivered. -/
theorem deliverUntil_ready {ready : State → Bool} {n : Nat} {s : State} (hn : s.spi.q.length ≤ n)
    (h : ∀ t, EnvOnly s t → t.spi.q = [] → ready t = true) : ready (deliverUntil ready n s) = true := by
  induction n generalizing s with
  | zero => exact h s (.refl s) (List.length_eq_zero_iff.mp (by omega))
  | succ n ih =>
    unfold deliverUntil
    split
    · assumption
    · refine ih (by rw [deliver_length]; omega) fun t ht => h t ((envOnly_deliver s).trans ht)

/-- Under a fair environment a wait ends (20_memory.md R64). -/
theorem pollUntil_ready {ready : State → Bool} {ns : List Nat} {s : State} (hf : s.Fair)
    (h : ∀ t, EnvOnly s t → t.spi.q = [] → ready t = true) : ready (pollUntil ready ns s) = true := by
  induction ns generalizing s with
  | nil =>
    unfold pollUntil
    split
    · exact deliverUntil_ready le_rfl h
    · exact deliverUntil_ready le_rfl h
    · contradiction
  | cons n ns ih =>
    unfold pollUntil
    split
    · assumption
    · have e : EnvOnly s (deliverN n (s.setSched ns)) := (envOnly_setSched _ s).trans (envOnly_deliverN _ _)
      exact ih (by unfold State.Fair; rw [e.pace]; exact hf) fun t ht => h t (e.trans ht)

theorem poll_txe {s : State} (h : s.CanTransmit) : (s.poll State.txe).txe = true :=
  pollUntil_ready h.1 fun t ht hq => by
    have := h.2
    simp [State.txe, hq, ht.cfg]; omega

theorem poll_drained {s : State} (h : s.CanTransmit) : (s.poll State.drained).drained = true :=
  pollUntil_ready h.1 fun t ht hq => by
    have := h.2
    simp [State.drained, State.txe, State.bsy, hq, ht.cfg]; omega

theorem drained_queue {s : State} (h : s.drained = true) : s.spi.q = [] := by
  simp [State.drained, State.bsy] at h
  exact h.2

/-- After a schedule, a stalled transport leaves everything as it is. -/
theorem poll_stalled {s : State} (ready : State → Bool) (hp : s.spi.pace = .stalled) (hs : s.spi.sched = []) :
    s.poll ready = s := by
  simp [State.poll, hs, pollUntil, hp]

/-! ## A run of primitives -/

/-- What a run of primitives `ps` from `s` leaves in `t`, but for the primitives then still to do. -/
structure Ran (ps : List Prim) (s t : State) : Prop where
  engine   : t = { s with
    todo := t.todo, dc := t.dc, cs := t.cs, trace := t.trace, spi := t.spi, pan := t.pan, seen := t.seen }
  trace    : t.trace = (ps.map Prim.event).reverse ++ s.trace
  dc       : t.dc = modeAfter s.dc (ps.map Prim.event)
  cs       : t.cs = levelAfter s.cs (ps.map Prim.event)
  pace     : t.spi.pace = s.spi.pace
  coherent : t.spi.coherent = s.spi.coherent
  settled  : s.spi.coherent = true → t.settled = panelItems s.cfg (wireFrom s.dc (ps.map Prim.event)) s.settled
  items    : s.spi.coherent = true →
    t.seen.reverse ++ t.spi.q = s.seen.reverse ++ s.spi.q ++ wireFrom s.dc (ps.map Prim.event)
  bytes    : (t.seen.reverse ++ t.spi.q).map WireItem.byte =
    (s.seen.reverse ++ s.spi.q).map WireItem.byte ++ txBytes (ps.map Prim.event)
  queue    : s.spi.q.length ≤ s.cfg.txDepth → t.spi.q.length ≤ s.cfg.txDepth
  memory   : memoryWf s.pan.frame = true → memoryWf t.pan.frame = true

namespace Ran

section
variable {ps : List Prim} {s t : State} (h : Ran ps s t)
include h

theorem cfg : t.cfg = s.cfg := by rw [h.engine]
theorem resets : t.resets = s.resets := by rw [h.engine]
theorem row : t.row = s.row := by rw [h.engine]
theorem col : t.col = s.col := by rw [h.engine]
theorem phase : t.phase = s.phase := by rw [h.engine]
theorem escHave : t.escHave = s.escHave := by rw [h.engine]
theorem seq : t.seq = s.seq := by rw [h.engine]
theorem input : t.input = s.input := by rw [h.engine]
theorem ip : t.ip = s.ip := by rw [h.engine]

theorem events : t.events = s.events ++ ps.map Prim.event := events_of_trace h.trace

end

theorem of_env {s t : State} (h : EnvOnly s t) : Ran [] s t where
  engine := by rw [h.engine]
  trace := h.trace
  dc := h.dc
  cs := h.cs
  pace := h.pace
  coherent := h.coherent
  settled := h.settled
  items hc := by rw [h.items hc]; simp [wireFrom]
  bytes := by rw [h.bytes]; simp [txBytes]
  queue := h.room.trans
  memory := h.memory

theorem trans {ps qs : List Prim} {s t u : State} (h : Ran ps s t) (k : Ran qs t u) : Ran (ps ++ qs) s u where
  engine := by rw [k.engine, h.engine]
  trace := by rw [k.trace, h.trace]; simp
  dc := by rw [k.dc, h.dc, List.map_append, modeAfter_append]
  cs := by rw [k.cs, h.cs, List.map_append, levelAfter_append]
  pace := k.pace.trans h.pace
  coherent := k.coherent.trans h.coherent
  settled hc := by
    rw [k.settled (h.coherent.trans hc), h.settled hc, h.cfg, h.dc, List.map_append, wireFrom_append, panelItems_append]
  items hc := by
    rw [k.items (h.coherent.trans hc), h.items hc, h.dc, List.map_append, wireFrom_append, List.append_assoc]
  bytes := by rw [k.bytes, h.bytes, List.map_append (l₁ := ps), txBytes_append, ← List.append_assoc]
  queue hq := by have := k.queue; rw [h.cfg] at this; exact this (h.queue hq)
  memory hm := k.memory (h.memory hm)

theorem setTodo {ps : List Prim} {s t : State} (h : Ran ps s t) (qs : List Prim) : Ran ps s (t.setTodo qs) :=
  ⟨by rw [h.engine]; rfl, h.trace, h.dc, h.cs, h.pace, h.coherent, h.settled, h.items, h.bytes, h.queue, h.memory⟩

/-- One primitive's own effect between two turns of the environment. -/
theorem single {p : Prim} {s t u v : State} (h : EnvOnly s t) (e : Ran [p] t u) (k : EnvOnly u v) : Ran [p] s v := by
  simpa using ((of_env h).trans e).trans (of_env k)

end Ran

theorem ran_setDc (m : Mode) (s : State) : Ran [.dc m] s (s.setDc m) :=
  ⟨rfl, rfl, rfl, rfl, rfl, rfl, fun _ => rfl, fun _ => by simp [wireFrom, Prim.event],
    by simp [txBytes, Prim.event], id, id⟩

theorem ran_setCs (l : Level) (s : State) : Ran [.cs l] s (s.setCs l) :=
  ⟨rfl, rfl, rfl, rfl, rfl, rfl, fun _ => rfl, fun _ => by simp [wireFrom, Prim.event],
    by simp [txBytes, Prim.event], id, id⟩

theorem ran_drain (s : State) : Ran [.drain] s (s.emit .drain) :=
  ⟨rfl, rfl, rfl, rfl, rfl, rfl, fun _ => rfl, fun _ => by simp [wireFrom, Prim.event],
    by simp [txBytes, Prim.event], id, id⟩

theorem ran_pushTx (b : Byte) {s : State} (h : s.txe = true) : Ran [.tx b] s (s.pushTx b) where
  engine := rfl
  trace := rfl
  dc := rfl
  cs := rfl
  pace := rfl
  coherent := rfl
  settled _ := by
    simp [State.settled, Prim.event, wireFrom, panelItems_append]
  items _ := by simp [Prim.event, wireFrom]
  bytes := by simp [Prim.event, txBytes]
  queue _ := by
    simp [State.txe] at h
    simp; omega
  memory := id

/-- Everything an executed primitive does. -/
theorem prim_done {p : Prim} {s t : State} (h : s.prim p = .done t) :
    Ran [p] s t ∧ t.todo = s.todo ∧ (p = .drain → t.spi.q = []) := by
  cases p with
  | dc m =>
    simp only [State.prim, Run.done.injEq] at h
    subst h
    exact ⟨Ran.single (.refl s) (ran_setDc m s) (envOnly_envTurn _), (envOnly_envTurn _).todo, by simp⟩
  | cs l =>
    simp only [State.prim, Run.done.injEq] at h
    subst h
    exact ⟨Ran.single (.refl s) (ran_setCs l s) (envOnly_envTurn _), (envOnly_envTurn _).todo, by simp⟩
  | tx b =>
    simp only [State.prim] at h
    split at h
    · rename_i hr
      simp only [Run.done.injEq] at h
      subst h
      have e := envOnly_poll State.txe s
      exact ⟨Ran.single e (ran_pushTx b hr) (envOnly_envTurn _), (envOnly_envTurn _).todo.trans e.todo, by simp⟩
    · cases h
  | drain =>
    simp only [State.prim] at h
    split at h
    · rename_i hr
      simp only [Run.done.injEq] at h
      subst h
      have e := envOnly_poll State.drained s
      have k := envOnly_envTurn ((s.poll State.drained).emit .drain)
      refine ⟨Ran.single e (ran_drain _) k, k.todo.trans e.todo, fun _ => ?_⟩
      have := k.room
      rw [State.emit_spi, drained_queue hr] at this
      exact List.length_eq_zero_iff.mp (by simpa using this)
    · cases h

/-- A blocked primitive has let the environment act, and nothing else happened; the environment is stalled, or the
transport cannot hold a byte at all. -/
theorem prim_parked {p : Prim} {s t : State} (h : s.prim p = .parked t) : EnvOnly s t ∧ ¬ s.CanTransmit := by
  cases p with
  | dc m => simp [State.prim] at h
  | cs l => simp [State.prim] at h
  | tx b =>
    simp only [State.prim] at h
    split at h
    · cases h
    · rename_i hr
      simp only [Run.parked.injEq] at h
      subst h
      exact ⟨envOnly_poll _ _, fun hc => hr (poll_txe hc)⟩
  | drain =>
    simp only [State.prim] at h
    split at h
    · cases h
    · rename_i hr
      simp only [Run.parked.injEq] at h
      subst h
      exact ⟨envOnly_poll _ _, fun hc => hr (poll_drained hc)⟩

theorem prim_not_refused (p : Prim) (s : State) (r : Refusal) : s.prim p ≠ .refused r := by
  cases p with
  | dc m => simp [State.prim]
  | cs l => simp [State.prim]
  | tx b => simp only [State.prim]; split <;> simp
  | drain => simp only [State.prim]; split <;> simp

theorem Ran.canTransmit {ps : List Prim} {s t : State} (h : Ran ps s t) (hc : s.CanTransmit) : t.CanTransmit := by
  unfold State.CanTransmit State.Fair at *
  rw [h.pace, h.cfg]; exact hc

/-- Everything an executed run of primitives does. -/
theorem runPrims_done {ps : List Prim} {s t : State} (h : runPrims ps s = .done t) : Ran ps s t ∧ t.todo = s.todo := by
  induction ps generalizing s with
  | nil => cases h; exact ⟨.of_env (.refl _), rfl⟩
  | cons p ps ih =>
    simp only [runPrims] at h
    split at h
    · rename_i u hu
      obtain ⟨h1, h2, -⟩ := prim_done hu
      obtain ⟨h3, h4⟩ := ih h
      exact ⟨h1.trans h3, h4.trans h2⟩
    · cases h
    · cases h

/-- A blocked run stands at one of its primitives, with that one and the rest still to do. -/
theorem runPrims_parked {ps : List Prim} {s t : State} (h : runPrims ps s = .parked t) :
    ∃ as bs, ps = as ++ bs ∧ bs ≠ [] ∧ Ran as s t ∧ t.todo = bs ∧ ¬ s.CanTransmit := by
  induction ps generalizing s with
  | nil => cases h
  | cons p ps ih =>
    simp only [runPrims] at h
    split at h
    · rename_i u hu
      obtain ⟨h1, -, -⟩ := prim_done hu
      obtain ⟨as, bs, e, hne, h3, h4, h5⟩ := ih h
      exact ⟨p :: as, bs, by simp [e], hne, h1.trans h3, h4, fun hc => h5 (h1.canTransmit hc)⟩
    · rename_i u hu
      cases h
      obtain ⟨h1, h2⟩ := prim_parked hu
      exact ⟨[], p :: ps, rfl, by simp, (Ran.of_env h1).setTodo _, rfl, h2⟩
    · cases h

theorem runPrims_not_refused (ps : List Prim) (s : State) (r : Refusal) : runPrims ps s ≠ .refused r := by
  induction ps generalizing s with
  | nil => simp [runPrims]
  | cons p ps ih =>
    simp only [runPrims]
    split
    · exact ih _
    · simp
    · rename_i e he; exact absurd he (prim_not_refused p s e)

/-- Under a fair environment every run of primitives is executed (20_memory.md R64). -/
theorem runPrims_completes (ps : List Prim) {s : State} (hc : s.CanTransmit) :
    ∃ t, runPrims ps s = .done t ∧ Ran ps s t ∧ t.todo = s.todo := by
  match h : runPrims ps s with
  | .done t => exact ⟨t, rfl, runPrims_done h⟩
  | .parked t => obtain ⟨_, _, _, _, _, _, hn⟩ := runPrims_parked h; exact absurd hc hn
  | .refused r => exact absurd h (runPrims_not_refused ps s r)

theorem runPrims_append (as bs : List Prim) (s : State) :
    runPrims (as ++ bs) s =
      match runPrims as s with
      | .done t => runPrims bs t
      | .parked t => .parked (t.setTodo (t.todo ++ bs))
      | .refused r => .refused r := by
  induction as generalizing s with
  | nil => rfl
  | cons p as ih =>
    simp only [List.cons_append, runPrims]
    split
    · exact ih _
    · rfl
    · rfl

end Sys2Proof.Machine
end

