-- ==== Sys2Proof/Laws/Draw.lean ====
section
/-! SUPPORT. DisplayProtocol's and PixelStreamer's operations: their wire views, the line levels they leave, and what a draw
operation does to the picture (42_pixel_streamer.md R147). -/

namespace Sys2Proof.Machine

/-! ## The lines and the wire view -/

theorem wireFrom_sendAll (m : Mode) (bs : List Byte) :
    wireFrom m ((sendAll bs).map Prim.event) = dataItems bs := by
  induction bs generalizing m with
  | nil => rfl
  | cons b bs ih => simpa [sendAll, sendData, wireFrom, Prim.event, dataItems] using ih .data

theorem modeAfter_sendAll (m : Mode) (bs : List Byte) (h : bs ≠ []) :
    modeAfter m ((sendAll bs).map Prim.event) = .data := by
  induction bs generalizing m with
  | nil => contradiction
  | cons b bs ih =>
    cases bs with
    | nil => rfl
    | cons c bs => simpa [sendAll, sendData, modeAfter, Prim.event] using ih .data (by simp)

theorem levelAfter_sendAll (l : Level) (bs : List Byte) (h : bs ≠ []) :
    levelAfter l ((sendAll bs).map Prim.event) = .low := by
  induction bs generalizing l with
  | nil => contradiction
  | cons b bs ih =>
    cases bs with
    | nil => rfl
    | cons c bs => simpa [sendAll, sendData, levelAfter, Prim.event] using ih .low (by simp)

theorem wireFrom_issue (m : Mode) (op : Byte) (bs : List Byte) :
    wireFrom m ((issue op bs).map Prim.event) = .c op :: dataItems bs := by
  simp [issue, wireFrom_sendAll, sendCommand, wireFrom, Prim.event]

theorem modeAfter_issue (m : Mode) (op : Byte) (bs : List Byte) :
    modeAfter m ((issue op bs).map Prim.event) = if bs = [] then .cmd else .data := by
  rw [issue, List.map_append, modeAfter_append]
  split
  · rename_i h; subst h; rfl
  · rename_i h; exact modeAfter_sendAll _ bs h

theorem levelAfter_issue (l : Level) (op : Byte) (bs : List Byte) :
    levelAfter l ((issue op bs).map Prim.event) = if bs = [] then .high else .low := by
  rw [issue, List.map_append, levelAfter_append]
  split
  · rename_i h; subst h; rfl
  · rename_i h; exact levelAfter_sendAll _ bs h

/-- A draw operation issues its two window commands and one memory write (42_pixel_streamer.md R141). -/
theorem drawCell_issues (row col : Nat) (px : List Pixel) :
    drawCell row col px =
      issue opColAddrSet (boundBytes (cellRect row col).colStart (cellRect row col).colEnd) ++
        (issue opRowAddrSet (boundBytes (cellRect row col).rowStart (cellRect row col).rowEnd) ++
          issue opMemWrite (px.flatMap pixelBytes)) := by
  simp [drawCell, setAddressWindow, issue, beginMemoryWrite]

theorem wireFrom_drawCell (m : Mode) (row col : Nat) (px : List Pixel) :
    wireFrom m ((drawCell row col px).map Prim.event) =
      wireItems (.colAddrSet (cellRect row col).colStart (cellRect row col).colEnd) ++
        (wireItems (.rowAddrSet (cellRect row col).rowStart (cellRect row col).rowEnd) ++
          wireItems (.memWrite px)) := by
  simp [drawCell_issues, wireFrom_append, wireFrom_issue, wireItems]

theorem pixelBytes_flatMap_ne {px : List Pixel} (h : px ≠ []) : px.flatMap pixelBytes ≠ [] := by
  cases px with
  | nil => contradiction
  | cons p px => simp [pixelBytes]

theorem modeAfter_drawCell (m : Mode) (row col : Nat) {px : List Pixel} (h : px ≠ []) :
    modeAfter m ((drawCell row col px).map Prim.event) = .data := by
  rw [drawCell_issues, List.map_append, modeAfter_append, List.map_append, modeAfter_append, modeAfter_issue,
    if_neg (pixelBytes_flatMap_ne h)]

theorem levelAfter_drawCell (l : Level) (row col : Nat) {px : List Pixel} (h : px ≠ []) :
    levelAfter l ((drawCell row col px).map Prim.event) = .low := by
  rw [drawCell_issues, List.map_append, levelAfter_append, List.map_append, levelAfter_append, levelAfter_issue,
    if_neg (pixelBytes_flatMap_ne h)]

/-! ## The pixels -/

theorem glyphPixels_length (cfg : Config) (g : GlyphIndex) : (glyphPixels cfg g).length = 48 := by
  simp [glyphPixels, List.length_flatMap]

theorem cursorPixels_length : cursorPixels.length = 48 := by decide

/-- Pixel number 6·r + c of a glyph is its bit (r, c) (42_pixel_streamer.md R142). -/
theorem glyphPixels_get (cfg : Config) (g : GlyphIndex) {r c : Nat} (hr : r < 8) (hc : c < 6) :
    (glyphPixels cfg g)[6 * r + c]? = some (glyphPixel cfg g r c) := by
  interval_cases r <;> interval_cases c <;> rfl

theorem cursorPixels_get {k : Nat} (hk : k < 48) : cursorPixels[k]? = some colorCursor := by
  rw [cursorPixels, List.getElem?_replicate, if_pos hk]

theorem wf_blank {cfg : Config} (h : cfg.wf = true) : cfg.font.headD [] = [0, 0, 0, 0, 0, 0] := by
  simp only [Config.wf, Bool.and_eq_true, beq_iff_eq] at h
  exact h.1.1.1.1.1.2

theorem wf_txDepth {cfg : Config} (h : cfg.wf = true) : 1 ≤ cfg.txDepth := by
  simp only [Config.wf, Bool.and_eq_true, decide_eq_true_eq] at h
  exact h.1.1.1.1.2

theorem wf_curW {cfg : Config} (h : cfg.wf = true) : 7 ≤ cfg.curW := by
  simp only [Config.wf, Bool.and_eq_true, decide_eq_true_eq] at h
  exact h.1.1.1.2

theorem wf_panelCols {cfg : Config} (h : cfg.wf = true) : 318 ≤ cfg.panelCols := by
  simp only [Config.wf, Bool.and_eq_true, decide_eq_true_eq] at h
  exact h.1.2

theorem wf_panelRows {cfg : Config} (h : cfg.wf = true) : 240 ≤ cfg.panelRows := by
  simp only [Config.wf, Bool.and_eq_true, decide_eq_true_eq] at h
  exact h.2

/-- Glyph 0 is blank (40_glyph_font.md R114). -/
theorem glyphPixel_blank {cfg : Config} (h : cfg.wf = true) {c : Nat} (hc : c < 6) (r : Nat) :
    glyphPixel cfg blankGlyph r c = colorOff := by
  have hf := wf_blank h
  have : fontByte cfg blankGlyph c = 0 := by
    unfold fontByte
    cases hg : cfg.font with
    | nil => rw [hg] at hf; simp at hf
    | cons g gs =>
      rw [hg] at hf
      simp only [List.headD_cons] at hf
      subst hf
      interval_cases c <;> rfl
  simp [glyphPixel, fontBit, this]

/-! ## A draw operation and the controller -/

theorem cellRect_toNat {row col : Nat} (hr : row < 30) (hc : col < 53) :
    (cellRect row col).colStart.toNat = 6 * col ∧ (cellRect row col).colEnd.toNat = 6 * col + 5 ∧
      (cellRect row col).rowStart.toNat = 8 * row ∧ (cellRect row col).rowEnd.toNat = 8 * row + 7 := by
  simp only [cellRect, BitVec.toNat_ofNat]
  omega

/-- What a draw operation of 48 pixels into a cell of the grid does to a live, ready controller: it ends live and ready, its
window is the cell, its settings are kept, pixel 6·r + c is at (6·col + c, 8·row + r), nothing else is touched. -/
theorem panelItems_drawCell {cfg : Config} {p : Panel} {row col : Nat} {px : List Pixel} (hw : cfg.wf = true)
    (hp : p.Ready) (hr : row < 30) (hc : col < 53) (hl : px.length = 48) (m : Mode) :
    ∃ q, panelItems cfg (wireFrom m ((drawCell row col px).map Prim.event)) (.live p) = .live q ∧
      q.Ready ∧ p.SameSettings q ∧
      q.xs = (cellRect row col).colStart ∧ q.xe = (cellRect row col).colEnd ∧
      q.ys = (cellRect row col).rowStart ∧ q.ye = (cellRect row col).rowEnd ∧
      (∀ r < 8, ∀ c < 6, readPixel q.frame (6 * col + c) (8 * row + r) = px[6 * r + c]?) ∧
      ∀ a, (¬ ∃ r < 8, ∃ c < 6, ∃ k < 3, a = frameAddr (6 * col + c) (8 * row + r) k) →
        readCell q.frame a = readCell p.frame a := by
  obtain ⟨e1, e2, e3, e4⟩ := cellRect_toNat hr hc
  have hcols := wf_panelCols hw
  have hrows := wf_panelRows hw
  rw [wireFrom_drawCell, panelItems_append, panelItems_append]
  generalize (cellRect row col).colStart = xs at *
  generalize (cellRect row col).colEnd = xe at *
  generalize (cellRect row col).rowStart = ys at *
  generalize (cellRect row col).rowEnd = ye at *
  rw [panelItems_colAddrSet _ _ hp.1, panelItems_rowAddrSet _ _ (by simp [Panel.complete, Panel.current])]
  rw [wireItems, panelItems, panelItem_memWrite]
  rotate_left
  · simp [Panel.complete, Panel.current, opRowAddrSet, opColAddrSet]
  · simp [Panel.windowOk, BitVec.le_def]; omega
  simp only [Panel.latch]
  set p0 : Panel := { p with
    xs := xs, xe := xe, ys := ys, ye := ye, fresh := false, cmd := some opMemWrite, idx := 0, buf := [],
    px := xs.toNat, py := ys.toNat }
    with hp0
  have hwid : p0.width = 6 := by simp only [Panel.width, hp0]; omega
  have hhei : p0.height = 8 := by simp only [Panel.height, hp0]; omega
  have hat : p0.AtPixel 0 := by
    refine ⟨rfl, rfl, rfl, hp.2, ?_, ?_, by simp [hp0], by simp [hp0]⟩
    · simp only [hp0, BitVec.le_def]; omega
    · simp only [hp0, BitVec.le_def]; omega
  have hend := hat.pixels px
  have hfr := pixels_frame hat px
  have hx0 : p0.xs.toNat = 6 * col := e1
  have hy0 : p0.ys.toNat = 8 * row := e3
  have hw' : (p0.pixels px).width = 6 := by rw [← hwid]; simp [Panel.width]
  simp only [hx0, hy0, hwid, Nat.zero_add] at hfr
  refine ⟨p0.pixels px, panelItems_pixels hat px (by rw [hwid, hhei]; omega), ⟨?_, by simpa using hp.2⟩,
    ⟨by simp [hp0], by simp [hp0], by simp [hp0]⟩, by simp [hp0], by simp [hp0], by simp [hp0], by simp [hp0], ?_, ?_⟩
  · have h1 := hend.column
    have h2 := hend.row
    rw [hw', hl] at h1 h2
    have h3 : p0.ye.toNat = 8 * row + 7 := e4
    rw [Panel.pixels_xs] at h1
    rw [Panel.pixels_ys] at h2
    simp only [Panel.complete, Panel.current, hend.fresh, hend.cmd, hend.buf]
    simp [opMemWrite, opColAddrSet, opRowAddrSet, opMemAccessCtrl]
    omega
  · intro r hr8 c hc6
    have hk : 6 * r + c < px.length := by omega
    have := hfr.1 (6 * r + c) hk
    rw [show (6 * r + c) % 6 = c by omega, show (6 * r + c) / 6 = r by omega] at this
    rw [this, List.getElem?_eq_getElem hk]
  · intro a ha
    refine hfr.2 a fun j hj i hi heq => ha ⟨j / 6, by omega, j % 6, by omega, i, hi, heq⟩

end Sys2Proof.Machine
end

