-- ==== Sys2Proof/Laws/Iteration.lean ====
section
/-! SUPPORT. What one iteration of the loop does, once for all input instructions: the erase of step 3, the receives of an
escape sequence, the arm's draw, the motion and the wrap-around. -/

namespace Sys2Proof.Machine

/-! ## The cursor -/

theorem inGrid_iff (row col : Int) : inGrid row col = true ↔ (0 ≤ row ∧ row < 30) ∧ 0 ≤ col ∧ col < 53 := by
  simp only [inGrid, Bool.and_eq_true, decide_eq_true_eq]
  simp only [gridRows, gridCols]
  omega

/-- The cursor a motion leaves before step 5. -/
def movedCursor (m : Motion) (row col : Int) : Int × Int :=
  match m with
  | .newline => (row + 1, 0)
  | .up => (row - 1, col)
  | .down => (row + 1, col)
  | .right => (row, col + 1)
  | .left => (row, col - 1)
  | .stay => (row, col)

/-- The cursor step 5 leaves after a motion. -/
def finalCursor (m : Motion) (row col : Int) : Int × Int :=
  (emod (carriedRow (movedCursor m row col).1 (movedCursor m row col).2) gridRows,
    emod (movedCursor m row col).2 gridCols)

theorem move_eq (m : Motion) (s : State) :
    s.move m = (s.setCursor (movedCursor m s.row s.col).1 (movedCursor m s.row s.col).2).setSeq .s5 := by
  cases m <;> rfl

theorem move_wrap_eq (m : Motion) (s : State) :
    (s.move m).wrap = (s.setCursor (finalCursor m s.row s.col).1 (finalCursor m s.row s.col).2).setSeq .s1 := by
  rw [move_eq]; rfl

theorem finalCursor_newline (row col : Int) : finalCursor .newline row col = (emod (row + 1) 30, 0) := by
  simp [finalCursor, movedCursor, carriedRow, gridCols, gridRows, emod]

theorem finalCursor_up {row col : Int} (h : inGrid row col = true) :
    finalCursor .up row col = (emod (row - 1) 30, col) := by
  rw [inGrid_iff] at h
  have h1 : ¬ (53 : Int) ≤ col := by omega
  have h2 : ¬ col < 0 := by omega
  simp [finalCursor, movedCursor, carriedRow, gridCols, gridRows, emod, h1, h2]
  omega

theorem finalCursor_down {row col : Int} (h : inGrid row col = true) :
    finalCursor .down row col = (emod (row + 1) 30, col) := by
  rw [inGrid_iff] at h
  have h1 : ¬ (53 : Int) ≤ col := by omega
  have h2 : ¬ col < 0 := by omega
  simp [finalCursor, movedCursor, carriedRow, gridCols, gridRows, emod, h1, h2]
  omega

theorem finalCursor_stay {row col : Int} (h : inGrid row col = true) : finalCursor .stay row col = (row, col) := by
  rw [inGrid_iff] at h
  have h1 : ¬ (53 : Int) ≤ col := by omega
  have h2 : ¬ col < 0 := by omega
  simp [finalCursor, movedCursor, carriedRow, gridCols, gridRows, emod, h1, h2]
  omega

theorem finalCursor_right {row col : Int} (h : inGrid row col = true) :
    finalCursor .right row col = if col < 52 then (row, col + 1) else (emod (row + 1) 30, 0) := by
  rw [inGrid_iff] at h
  have h2 : ¬ col + 1 < 0 := by omega
  split
  · have h1 : ¬ (53 : Int) ≤ col + 1 := by omega
    simp [finalCursor, movedCursor, carriedRow, gridCols, gridRows, emod, h1, h2]
    omega
  · have h3 : col = 52 := by omega
    subst h3
    simp [finalCursor, movedCursor, carriedRow, gridCols, gridRows, emod]

theorem finalCursor_left {row col : Int} (h : inGrid row col = true) :
    finalCursor .left row col = if 0 < col then (row, col - 1) else (emod (row - 1) 30, 52) := by
  rw [inGrid_iff] at h
  have h1 : ¬ (53 : Int) ≤ col - 1 := by omega
  split
  · have h2 : ¬ col - 1 < 0 := by omega
    simp [finalCursor, movedCursor, carriedRow, gridCols, gridRows, emod, h1, h2]
    omega
  · have h3 : col = 0 := by omega
    subst h3
    simp [finalCursor, movedCursor, carriedRow, gridCols, gridRows, emod]

/-- Step 5 puts every cursor into the grid. -/
theorem inGrid_emod (a b : Int) : inGrid (emod a gridRows) (emod b gridCols) = true := by
  rw [inGrid_iff]
  simp only [emod, gridRows, gridCols]
  omega

theorem inGrid_finalCursor (m : Motion) (row col : Int) :
    inGrid (finalCursor m row col).1 (finalCursor m row col).2 = true := inGrid_emod _ _

/-! ## The draw operations in the grid -/

theorem drawGlyphCell_inGrid {row col : Int} (h : inGrid row col = true) (cfg : Config) (g : GlyphIndex) :
    drawGlyphCell cfg row col g = some (drawCell row.toNat col.toNat (glyphPixels cfg g)) := by
  rw [drawGlyphCell, if_pos h]

theorem eraseCell_inGrid {row col : Int} (h : inGrid row col = true) (cfg : Config) :
    eraseCell cfg row col = some (drawCell row.toNat col.toNat (glyphPixels cfg blankGlyph)) :=
  drawGlyphCell_inGrid h cfg blankGlyph

theorem drawCursorCell_inGrid {row col : Int} (h : inGrid row col = true) :
    drawCursorCell row col = some (drawCell row.toNat col.toNat cursorPixels) := by
  rw [drawCursorCell, if_pos h]

theorem draw_completes (ps : List Prim) {s : State} (hc : s.CanTransmit) :
    ∃ t, draw (some ps) s = .done t ∧ Ran ps s t ∧ t.todo = s.todo := runPrims_completes ps hc

/-! ## One iteration -/

/-- `t` is `s` after the bytes `bs` were received, in the phase `p`, `h` and at the position `q`. -/
structure Receives (bs : List Byte) (s t : State) : Prop where
  engine : t = { s with
    phase := t.phase, escHave := t.escHave, seq := t.seq, input := t.input, ip := t.ip, trace := t.trace }
  input  : t.input = s.input.drop bs.length
  ip     : t.ip = s.ip + bs.length
  trace  : t.trace = (bs.map Event.rx).reverse ++ s.trace

theorem receives_none (s : State) : Receives [] s s := ⟨rfl, rfl, rfl, rfl⟩

theorem receives_escape (b2 b3 : Byte) (s : State) : Receives [b2, b3] s (receiveEscape b2 b3 s) :=
  ⟨rfl, by simp [receiveEscape, State.receiveThird, State.receiveSecond, State.enterEscape, ← List.drop_one],
    rfl, rfl⟩

theorem receiveEscape_phase (b2 b3 : Byte) (s : State) :
    (receiveEscape b2 b3 s).phase = .normal ∧ (receiveEscape b2 b3 s).escHave = 0 := ⟨rfl, rfl⟩

/-- What an iteration leaves: the bytes `b1` and `bs` received, the cell erased and then drawn with `px`, motion `m`. -/
structure Iterated (b1 : Byte) (bs : List Byte) (px : List Pixel) (m : Motion) (s t : State) : Prop where
  cursor   : (t.row, t.col) = finalCursor m s.row s.col
  seq      : t.seq = .s1
  todo     : t.todo = s.todo
  dc       : t.dc = .data
  cs       : t.cs = .low
  input    : t.input = s.input.drop (bs.length + 1)
  ip       : t.ip = s.ip + (bs.length + 1)
  cfg      : t.cfg = s.cfg
  resets   : t.resets = s.resets
  pace     : t.spi.pace = s.spi.pace
  coherent : t.spi.coherent = s.spi.coherent
  events   : t.events = s.events ++ [.rx b1] ++ drawEvents s.row s.col (glyphPixels s.cfg blankGlyph) ++
    bs.map .rx ++ drawEvents s.row s.col px
  settled  : s.spi.coherent = true → t.settled =
    panelItems s.cfg (wireFrom .data (drawEvents s.row s.col px))
      (panelItems s.cfg (wireFrom s.dc (drawEvents s.row s.col (glyphPixels s.cfg blankGlyph))) s.settled)

/-- Every iteration from a cursor in the grid is executed under a fair environment. -/
theorem iteration_completes {s : State} (hc : s.CanDraw) (b1 : Byte) (bs : List Byte) (mid : State → State)
    (hmid : ∀ u, Receives bs u (mid u)) {px : List Pixel} (hpx : px ≠ []) (m : Motion) (arm : State → Run)
    (harm : ∀ u, u.row = s.row → u.col = s.col → u.cfg = s.cfg →
      arm u = drawThenMove (some (drawCell s.row.toNat s.col.toNat px)) m (mid u)) :
    ∃ t v, (beginIteration b1 s).andThen arm = .done t ∧ Iterated b1 bs px m s t ∧
      t.phase = (mid v).phase ∧ t.escHave = (mid v).escHave ∧ v.phase = s.phase ∧ v.escHave = s.escHave := by
  obtain ⟨hg, ht⟩ := hc
  have hblank : glyphPixels s.cfg blankGlyph ≠ [] := by
    intro h; have := glyphPixels_length s.cfg blankGlyph; simp [h] at this
  obtain ⟨v, hv1, hv2, hv3⟩ := draw_completes (drawCell s.row.toNat s.col.toNat (glyphPixels s.cfg blankGlyph))
    (s := (s.receive b1).setSeq (.s3 b1)) ht
  have r := hmid v
  have htv : (mid v).CanTransmit := by
    have := hv2.canTransmit ht
    rw [r.engine]; exact this
  obtain ⟨u, hu1, hu2, hu3⟩ := draw_completes (drawCell s.row.toNat s.col.toNat px) (s := (mid v).setSeq (.s4 m)) htv
  have hrow : v.row = s.row := hv2.row
  have hcol : v.col = s.col := hv2.col
  have hcfg : v.cfg = s.cfg := hv2.cfg
  have hmrow : (mid v).row = s.row := by rw [r.engine]; exact hrow
  have hmcol : (mid v).col = s.col := by rw [r.engine]; exact hcol
  have hmcfg : (mid v).cfg = s.cfg := by rw [r.engine]; exact hcfg
  have hmdc : (mid v).dc = .data := by
    have : (mid v).dc = v.dc := by rw [r.engine]
    rw [this, hv2.dc]; exact modeAfter_drawCell _ _ _ hblank
  refine ⟨(u.move m).wrap, v, ?_, ?_, ?_, ?_, hv2.phase, hv2.escHave⟩
  · simp only [beginIteration, eraseCell_inGrid hg, hv1, Run.andThen]
    rw [harm v hrow hcol hcfg]
    simp only [drawThenMove, hu1, Run.andThen]
  · rw [move_wrap_eq]
    have hurow : u.row = s.row := hu2.row.trans hmrow
    have hucol : u.col = s.col := hu2.col.trans hmcol
    constructor
    case cursor => simp [hurow, hucol]
    case seq => rfl
    case todo =>
      have : (mid v).todo = v.todo := by rw [r.engine]
      simpa [this, hv3] using hu3
    case dc => simpa using hu2.dc.trans (modeAfter_drawCell _ _ _ hpx)
    case cs => simpa using hu2.cs.trans (levelAfter_drawCell _ _ _ hpx)
    case input =>
      have h1 : u.input = (mid v).input := hu2.input
      have h2 : v.input = s.input.tail := hv2.input
      simp only [State.setSeq_input, State.setCursor_input, h1, r.input, h2]
      rw [← List.drop_one, List.drop_drop, Nat.add_comm]
    case ip =>
      have h1 : u.ip = (mid v).ip := hu2.ip
      have h2 : v.ip = s.ip + 1 := hv2.ip
      simp only [State.setSeq_ip, State.setCursor_ip, h1, r.ip, h2]
      omega
    case cfg => exact hu2.cfg.trans hmcfg
    case resets =>
      have : (mid v).resets = v.resets := by rw [r.engine]
      exact hu2.resets.trans (this.trans hv2.resets)
    case pace =>
      have : (mid v).spi = v.spi := by rw [r.engine]
      have h1 := hu2.pace
      simp only [State.setSeq_spi, this] at h1
      simpa using h1.trans hv2.pace
    case coherent =>
      have : (mid v).spi = v.spi := by rw [r.engine]
      have h1 := hu2.coherent
      simp only [State.setSeq_spi, this] at h1
      simpa using h1.trans hv2.coherent
    case events =>
      have h1 := hu2.trace
      have h2 := hv2.trace
      simp only [State.events, State.setSeq_trace, State.setCursor_trace, State.receive_trace, r.trace] at h1 h2 ⊢
      rw [h1, h2]
      simp [drawEvents]
    case settled =>
      intro hcoh
      have hspi : (mid v).spi = v.spi := by rw [r.engine]
      have hset : (mid v).settled = v.settled := by
        have : (mid v).pan = v.pan := by rw [r.engine]
        simp [State.settled, hspi, this, hmcfg, hcfg]
      have hc1 : v.spi.coherent = true := hv2.coherent.trans hcoh
      have h1 := hu2.settled (by simpa [hspi] using hc1)
      have h2 := hv2.settled hcoh
      have e1 : (((mid v).setSeq (.s4 m))).settled = (mid v).settled := rfl
      have e2 : ((s.receive b1).setSeq (.s3 b1)).settled = s.settled := rfl
      have e3 : ((u.setCursor (finalCursor m u.row u.col).1 (finalCursor m u.row u.col).2).setSeq .s1).settled =
        u.settled := rfl
      rw [e3, h1, e1, hset, h2, e2]
      simp [drawEvents, hmdc, hmcfg]
  · rw [move_wrap_eq]
    simpa using hu2.phase
  · rw [move_wrap_eq]
    simpa using hu2.escHave

/-- The iteration of a one-byte instruction. -/
theorem oneByte_completes {s : State} (hc : s.CanDraw) (b1 : Byte) {px : List Pixel} (hpx : px ≠ []) (m : Motion)
    (arm : State → Run)
    (harm : ∀ u, u.row = s.row → u.col = s.col → u.cfg = s.cfg →
      arm u = drawThenMove (some (drawCell s.row.toNat s.col.toNat px)) m u) :
    ∃ t, (beginIteration b1 s).andThen arm = .done t ∧ Iterated b1 [] px m s t ∧
      t.phase = s.phase ∧ t.escHave = s.escHave := by
  obtain ⟨t, v, h1, h2, h3, h4, h5, h6⟩ := iteration_completes hc b1 [] id receives_none hpx m arm harm
  exact ⟨t, h1, h2, h3.trans h5, h4.trans h6⟩

/-- The iteration of an escape sequence. -/
theorem escape_completes {s : State} (hc : s.CanDraw) (b2 b3 : Byte) (m : Motion) :
    ∃ t, ((beginIteration inEsc s).andThen fun u => armEscape m (receiveEscape b2 b3 u)) = .done t ∧
      Iterated inEsc [b2, b3] (glyphPixels s.cfg blankGlyph) m s t ∧ t.phase = .normal ∧ t.escHave = 0 := by
  have hblank : glyphPixels s.cfg blankGlyph ≠ [] := by
    intro h; have := glyphPixels_length s.cfg blankGlyph; simp [h] at this
  obtain ⟨t, v, h1, h2, h3, h4, -, -⟩ := iteration_completes hc inEsc [b2, b3] (receiveEscape b2 b3)
    (receives_escape b2 b3) hblank m (fun u => armEscape m (receiveEscape b2 b3 u)) (by
      intro u hr hcol hcfg
      have r := receives_escape b2 b3 u
      have e1 : (receiveEscape b2 b3 u).row = s.row := hr
      have e2 : (receiveEscape b2 b3 u).col = s.col := hcol
      have e3 : (receiveEscape b2 b3 u).cfg = s.cfg := hcfg
      simp only [armEscape, e1, e2, e3, eraseCell_inGrid hc.1])
  exact ⟨t, h1, h2, h3, h4⟩

theorem glyphPixels_ne (cfg : Config) (g : GlyphIndex) : glyphPixels cfg g ≠ [] := by
  intro h; have := glyphPixels_length cfg g; simp [h] at this

theorem execCr_completes {s : State} (hc : s.CanDraw) :
    ∃ t, execCr s = .next t ∧ Iterated inCr [] (glyphPixels s.cfg blankGlyph) .newline s t ∧
      t.phase = s.phase ∧ t.escHave = s.escHave := by
  obtain ⟨t, h1, h2⟩ := oneByte_completes hc inCr (glyphPixels_ne s.cfg blankGlyph) .newline armCr
    fun u hr hcol hcfg => by simp only [armCr, hr, hcol, hcfg, eraseCell_inGrid hc.1]
  exact ⟨t, by simp only [execCr, h1, Run.outcome], h2⟩

theorem execDel_completes {s : State} (hc : s.CanDraw) :
    ∃ t, execDel s = .next t ∧ Iterated inDel [] (glyphPixels s.cfg blankGlyph) .left s t ∧
      t.phase = s.phase ∧ t.escHave = s.escHave := by
  obtain ⟨t, h1, h2⟩ := oneByte_completes hc inDel (glyphPixels_ne s.cfg blankGlyph) .left armDel
    fun u hr hcol hcfg => by simp only [armDel, hr, hcol, hcfg, eraseCell_inGrid hc.1]
  exact ⟨t, by simp only [execDel, h1, Run.outcome], h2⟩

theorem execGlyph_completes {s : State} (hc : s.CanDraw) (b1 : Byte) :
    ∃ t, execGlyph b1 s = .next t ∧ Iterated b1 [] (glyphPixels s.cfg (glyphIndex b1)) .right s t ∧
      t.phase = s.phase ∧ t.escHave = s.escHave := by
  obtain ⟨t, h1, h2⟩ := oneByte_completes hc b1 (glyphPixels_ne s.cfg (glyphIndex b1)) .right (armGlyph b1)
    fun u hr hcol hcfg => by simp only [armGlyph, hr, hcol, hcfg, drawGlyphCell_inGrid hc.1]
  exact ⟨t, by simp only [execGlyph, h1, Run.outcome], h2⟩

end Sys2Proof.Machine
end

