-- ==== Sys2Proof/Laws/Loop.lean ====
section
/-! SUPPORT. What one step can do, said once: the events it adds to those done and planned (`Went`), how runs end
(`Run.Gives`), and the inversion `step_went` that every invariant over events is read off. -/

namespace Sys2Proof.Machine

/-! ## Running the core -/

theorem core_run_succ (M : Host.Core) {k : Nat} {s t : M.State} (h : M.step s = .next t) :
    M.run (k + 1) s = M.run k t := by
  rw [Host.Core.run, h]

theorem run_next {k : Nat} {s t : State} (h : step s = .next t) : core.run (k + 1) s = core.run k t :=
  core_run_succ core h

/-! ## How a run ends -/

/-- `P` of the state an executed run leaves, `Q` of the state a blocked one leaves. -/
def Run.Gives (r : Run) (P Q : State → Prop) : Prop :=
  match r with
  | .done t => P t
  | .parked t => Q t
  | .refused _ => True

theorem Run.Gives.mono {r : Run} {P Q P' Q' : State → Prop} (h : r.Gives P Q) (hp : ∀ t, P t → P' t)
    (hq : ∀ t, Q t → Q' t) : r.Gives P' Q' := by
  cases r with
  | done t => exact hp t h
  | parked t => exact hq t h
  | refused e => trivial

theorem Run.Gives.andThen {r : Run} {f : State → Run} {P Q P' : State → Prop} (h : r.Gives P Q)
    (hf : ∀ t, P t → (f t).Gives P' Q) : (r.andThen f).Gives P' Q := by
  cases r with
  | done t => exact hf t h
  | parked t => exact h
  | refused e => trivial

theorem Run.Gives.outcome {r : Run} {P : State → Prop} {t : State} (h : r.Gives P P) (ho : r.outcome = .next t) : P t := by
  cases r with
  | done u => cases ho; exact h
  | parked u => cases ho; exact h
  | refused e => cases ho

/-! ## The events done and planned -/

/-- The line mode once the primitives still to be executed are executed. -/
def State.plannedMode (s : State) : Mode := modeAfter s.dc (s.todo.map Prim.event)

/-- The controller once those primitives are executed and everything is delivered under coherence. -/
def State.served (s : State) : PanelState := panelItems s.cfg s.pendingItems s.pan

/-- From `s` to `t` the events `E` were added to those done and planned, and everything else the environment and
DisplayProtocol own followed from them. -/
structure Went (E : List Event) (s t : State) : Prop where
  cfg      : t.cfg = s.cfg
  resets   : t.resets = s.resets
  pace     : t.spi.pace = s.spi.pace
  coherent : t.spi.coherent = s.spi.coherent
  planned  : t.plannedEvents = s.plannedEvents ++ E
  mode     : t.plannedMode = modeAfter s.plannedMode E
  dc       : ∀ m, modeAfter m s.events = s.dc → modeAfter m t.events = t.dc
  cs       : ∀ l, levelAfter l s.events = s.cs → levelAfter l t.events = t.cs
  served   : s.spi.coherent = true → t.served = panelItems s.cfg (wireFrom s.plannedMode E) s.served
  items    : ∀ m, s.spi.coherent = true → s.WireView m → t.WireView m
  bytes    : (s.seen.reverse ++ s.spi.q).map WireItem.byte = txBytes s.events →
    (t.seen.reverse ++ t.spi.q).map WireItem.byte = txBytes t.events
  queue    : s.spi.q.length ≤ s.cfg.txDepth → t.spi.q.length ≤ t.cfg.txDepth
  memory   : memoryWf s.pan.frame = true → memoryWf t.pan.frame = true

namespace Went

/-- Writing the engine's registers adds no event. -/
theorem of_engine {s t : State}
    (h : t = { s with row := t.row, col := t.col, phase := t.phase, escHave := t.escHave, seq := t.seq }) :
    Went [] s t := by
  rw [h]
  exact ⟨rfl, rfl, rfl, rfl, by simp [State.plannedEvents, State.events], rfl, fun _ => id, fun _ => id, fun _ => rfl,
    fun _ _ => id, id, id, id⟩

theorem trans {E F : List Event} {s t u : State} (h : Went E s t) (k : Went F t u) : Went (E ++ F) s u where
  cfg := k.cfg.trans h.cfg
  resets := k.resets.trans h.resets
  pace := k.pace.trans h.pace
  coherent := k.coherent.trans h.coherent
  planned := by rw [k.planned, h.planned, List.append_assoc]
  mode := by rw [k.mode, h.mode, modeAfter_append]
  dc m hm := k.dc m (h.dc m hm)
  cs l hl := k.cs l (h.cs l hl)
  served hc := by
    rw [k.served (h.coherent.trans hc), h.served hc, h.cfg, h.mode, wireFrom_append, panelItems_append]
  items m hc hw := k.items m (h.coherent.trans hc) (h.items m hc hw)
  bytes hb := k.bytes (h.bytes hb)
  queue hq := k.queue (h.queue hq)
  memory hm := k.memory (h.memory hm)

/-- A reception, with nothing left to execute. -/
theorem receive {s : State} (b : Byte) (h : s.todo = []) : Went [.rx b] s (s.receive b) where
  cfg := rfl
  resets := rfl
  pace := rfl
  coherent := rfl
  planned := by simp [State.plannedEvents, State.events, h]
  mode := by simp [State.plannedMode, h, modeAfter]
  dc m hm := by simpa [State.events, modeAfter_append, modeAfter] using hm
  cs l hl := by simpa [State.events, levelAfter_append, levelAfter] using hl
  served _ := by simp [State.served, State.pendingItems, wireFrom, panelItems]
  items m _ hw := by
    obtain ⟨h1, h2⟩ := hw
    refine ⟨by simpa [State.events, modeAfter_append, modeAfter] using h1, ?_⟩
    rw [State.events] at h2
    simpa [State.events, wireFrom_append, wireFrom] using h2
  bytes hb := by
    rw [State.events] at hb
    simpa [State.events, txBytes_append, txBytes] using hb
  queue := id
  memory := id

/-- The environment alone. -/
theorem of_env {s t : State} (h : EnvOnly s t) : Went [] s t where
  cfg := h.cfg
  resets := h.resets
  pace := h.pace
  coherent := h.coherent
  planned := by simp [State.plannedEvents, State.events, h.trace, h.todo]
  mode := by simp [State.plannedMode, h.dc, h.todo, modeAfter]
  dc m hm := by rw [State.events, h.trace, h.dc]; exact hm
  cs l hl := by rw [State.events, h.trace, h.cs]; exact hl
  served hc := by
    have := h.settled hc
    simp only [State.settled, h.cfg] at this
    simp only [State.served, State.pendingItems, panelItems_append, h.cfg, h.dc, h.todo, this, wireFrom, panelItems]
  items m hc hw := by
    refine ⟨by rw [State.events, h.trace, h.dc]; exact hw.1, ?_⟩
    rw [h.items hc, hw.2, State.events, State.events, h.trace]
  bytes hb := by rw [h.bytes, hb, State.events, State.events, h.trace]
  queue hq := by rw [h.cfg]; exact h.room.trans hq
  memory := h.memory

/-- A run of primitives `as` with `bs` then left to execute. -/
theorem of_ran {as bs : List Prim} {s t : State} (hs : s.todo = []) (h : Ran as s t) (ht : t.todo = bs) :
    Went ((as ++ bs).map Prim.event) s t where
  cfg := h.cfg
  resets := h.resets
  pace := h.pace
  coherent := h.coherent
  planned := by simp [State.plannedEvents, h.events, hs, ht]
  mode := by simp [State.plannedMode, hs, ht, h.dc, modeAfter_append, modeAfter]
  dc m hm := by rw [h.events, modeAfter_append, hm, h.dc]
  cs l hl := by rw [h.events, levelAfter_append, hl, h.cs]
  served hc := by
    have := h.settled hc
    simp only [State.settled] at this
    simp only [State.served, State.pendingItems, panelItems_append, this, hs, ht, h.dc, State.plannedMode, modeAfter,
      List.map_nil, List.map_append, wireFrom_append, wireFrom, panelItems]
    rw [h.cfg]
  items m hc hw := by
    refine ⟨by rw [h.events, modeAfter_append, hw.1, h.dc], ?_⟩
    rw [h.items hc, hw.2, h.events, wireFrom_append, hw.1]
  bytes hb := by rw [h.bytes, hb, h.events, txBytes_append]
  queue hq := by rw [h.cfg]; exact h.queue hq
  memory := h.memory

/-- The primitives left to execute are taken up again: nothing is added. -/
theorem of_resumed {as bs : List Prim} {s t : State} (hs : s.todo = as ++ bs) (h : Ran as (s.setTodo []) t)
    (ht : t.todo = bs) : Went [] s t := by
  have w := of_ran (s := s.setTodo []) rfl h ht
  rw [← hs] at w
  constructor
  case planned => simpa [State.plannedEvents, State.events] using w.planned
  case mode => simpa [State.plannedMode, modeAfter] using w.mode
  case served =>
    intro hc
    have := w.served hc
    simp only [State.served, State.pendingItems, panelItems_append, wireFrom, panelItems] at this ⊢
    simpa [wireFrom, panelItems, State.plannedMode, modeAfter] using this
  case cfg => exact w.cfg
  case resets => exact w.resets
  case pace => exact w.pace
  case coherent => exact w.coherent
  case dc => exact w.dc
  case cs => exact w.cs
  case items => exact w.items
  case bytes => exact w.bytes
  case queue => exact w.queue
  case memory => exact w.memory

end Went

/-- `t` has the registers of the terminal and the stream that `s` has. -/
structure SameRegisters (s t : State) : Prop where
  row     : t.row = s.row
  col     : t.col = s.col
  phase   : t.phase = s.phase
  escHave : t.escHave = s.escHave
  seq     : t.seq = s.seq
  input   : t.input = s.input
  ip      : t.ip = s.ip

theorem Ran.registers {ps : List Prim} {s t : State} (h : Ran ps s t) : SameRegisters s t :=
  ⟨h.row, h.col, h.phase, h.escHave, h.seq, h.input, h.ip⟩

/-- The bytes a run received. -/
theorem Went.rx {E : List Event} {s t : State} (h : Went E s t) : rxBytes t.events = rxBytes s.events ++ rxBytes E := by
  have := congrArg rxBytes h.planned
  simpa [State.plannedEvents, rxBytes_append, rxBytes_prims] using this

/-- A run of primitives, executed or blocked, has all its events done or planned. -/
theorem runPrims_gives {s : State} (hs : s.todo = []) (ps : List Prim) :
    (runPrims ps s).Gives (fun t => (Went (ps.map Prim.event) s t ∧ SameRegisters s t) ∧ t.todo = [])
      fun t => Went (ps.map Prim.event) s t ∧ SameRegisters s t := by
  unfold Run.Gives
  split
  · rename_i t ht
    obtain ⟨h1, h2⟩ := runPrims_done ht
    have := Went.of_ran (bs := []) hs h1 (h2.trans hs)
    rw [List.append_nil] at this
    exact ⟨⟨this, h1.registers⟩, h2.trans hs⟩
  · rename_i t ht
    obtain ⟨as, bs, e, -, h1, h2, -⟩ := runPrims_parked ht
    rw [e]
    exact ⟨Went.of_ran hs h1 h2, h1.registers⟩
  · trivial

/-- Taking up the primitives left to execute. -/
theorem resume_gives (s : State) :
    (resume s).Gives (fun t => (Went [] s t ∧ SameRegisters s t) ∧ t.todo = []) fun t => Went [] s t ∧ SameRegisters s t := by
  unfold Run.Gives resume
  split
  · rename_i t ht
    obtain ⟨h1, h2⟩ := runPrims_done ht
    have r := h1.registers
    exact ⟨⟨Went.of_resumed (as := s.todo) (bs := []) (by simp) h1 h2, ⟨r.row, r.col, r.phase, r.escHave, r.seq, r.input,
      r.ip⟩⟩, h2⟩
  · rename_i t ht
    obtain ⟨as, bs, e, -, h1, h2, -⟩ := runPrims_parked ht
    have r := h1.registers
    exact ⟨Went.of_resumed e h1 h2, ⟨r.row, r.col, r.phase, r.escHave, r.seq, r.input, r.ip⟩⟩
  · trivial

/-! ## The parts of an iteration -/

/-- What a draw operation of the engine puts into a cell: 48 pixels of the three colours. -/
structure DrawPixels (px : List Pixel) : Prop where
  length : px.length = 48
  colors : px.all (fun p => p == colorOn || p == colorOff || p == colorCursor) = true

theorem drawPixels_glyph (cfg : Config) (g : GlyphIndex) : DrawPixels (glyphPixels cfg g) where
  length := glyphPixels_length cfg g
  colors := by
    rw [List.all_eq_true]
    intro p hp
    simp only [glyphPixels, List.mem_flatMap, List.mem_map, List.mem_range] at hp
    obtain ⟨r, -, c, -, rfl⟩ := hp
    unfold glyphPixel
    split <;> simp

theorem drawPixels_cursor : DrawPixels cursorPixels := ⟨cursorPixels_length, by decide⟩

/-- Events that are receptions and whole draw operations into cells of the grid, in any order. -/
inductive Draws : List Event → Prop where
  | nil : Draws []
  | rx (b : Byte) {E : List Event} (h : Draws E) : Draws (.rx b :: E)
  | draw {row col : Int} {px : List Pixel} {E : List Event} (hg : inGrid row col = true) (hp : DrawPixels px)
      (h : Draws E) : Draws (drawEvents row col px ++ E)

theorem Draws.append {E F : List Event} (h : Draws E) (k : Draws F) : Draws (E ++ F) := by
  induction h with
  | nil => exact k
  | rx b _ ih => exact .rx b ih
  | draw hg hp _ ih => rw [List.append_assoc]; exact .draw hg hp ih

theorem draws_draw {row col : Int} {px : List Pixel} (hg : inGrid row col = true) (hp : DrawPixels px) :
    Draws (drawEvents row col px) := by
  simpa using Draws.draw hg hp .nil

/-- A draw operation the engine can ask for. -/
abbrev IsDraw (op : Option (List Prim)) (row col : Int) : Prop :=
  ∀ ps, op = some ps → inGrid row col = true ∧ ∃ px, DrawPixels px ∧ ps.map Prim.event = drawEvents row col px

theorem isDraw_glyph (cfg : Config) (row col : Int) (g : GlyphIndex) : IsDraw (drawGlyphCell cfg row col g) row col := by
  intro ps h
  unfold drawGlyphCell at h
  split at h
  · cases h
    exact ⟨by assumption, _, drawPixels_glyph cfg g, rfl⟩
  · cases h

theorem isDraw_cursor (row col : Int) : IsDraw (drawCursorCell row col) row col := by
  intro ps h
  unfold drawCursorCell at h
  split at h
  · cases h
    exact ⟨by assumption, _, drawPixels_cursor, rfl⟩
  · cases h

theorem draw_gives {s : State} (hs : s.todo = []) {op : Option (List Prim)} {row col : Int} (hop : IsDraw op row col) :
    (draw op s).Gives (fun t => (∃ E, Draws E ∧ rxBytes E = [] ∧ Went E s t ∧ SameRegisters s t) ∧ t.todo = [])
      fun t => ∃ E, Draws E ∧ rxBytes E = [] ∧ Went E s t ∧ SameRegisters s t := by
  cases op with
  | none => trivial
  | some ps =>
    obtain ⟨hg, px, hp, he⟩ := hop ps rfl
    have hd : Draws (ps.map Prim.event) := by rw [he]; exact draws_draw hg hp
    exact (runPrims_gives hs ps).mono
      (fun t ht => ⟨⟨_, hd, rxBytes_prims ps, ht.1⟩, ht.2⟩) fun t ht => ⟨_, hd, rxBytes_prims ps, ht⟩

/-- Steps 2 and 3: the byte is received and the cell erased; done or blocked, the engine stands in step 3. -/
structure Began (b1 : Byte) (s t : State) : Prop where
  events  : ∃ E, Draws E ∧ rxBytes E = [b1] ∧ Went E s t
  row     : t.row = s.row
  col     : t.col = s.col
  phase   : t.phase = s.phase
  escHave : t.escHave = s.escHave
  seq     : t.seq = .s3 b1
  input   : t.input = s.input.tail
  ip      : t.ip = s.ip + 1

theorem beginIteration_gives {s : State} (hs : s.todo = []) (b1 : Byte) :
    (beginIteration b1 s).Gives (fun t => Began b1 s t ∧ t.todo = []) (Began b1 s) := by
  have key : ∀ t, (∃ E, Draws E ∧ rxBytes E = [] ∧ Went E ((s.receive b1).setSeq (.s3 b1)) t ∧
      SameRegisters ((s.receive b1).setSeq (.s3 b1)) t) → Began b1 s t := by
    rintro t ⟨E, hd, hrx, hw, hr⟩
    refine ⟨⟨.rx b1 :: E, .rx b1 hd, by simp [rxBytes, hrx], ?_⟩, hr.row, hr.col, hr.phase, hr.escHave, hr.seq,
      hr.input, hr.ip⟩
    exact ((Went.receive b1 hs).trans (Went.of_engine rfl)).trans hw
  exact (draw_gives (s := (s.receive b1).setSeq (.s3 b1)) hs (isDraw_glyph _ _ _ _)).mono
    (fun t ht => ⟨key t ht.1, ht.2⟩) key

/-- An arm's draw, its motion and step 5: done, the engine is at the top of the loop with the cursor moved. -/
structure Moved (m : Motion) (s t : State) : Prop where
  events  : ∃ E, Draws E ∧ rxBytes E = [] ∧ Went E s t
  cursor  : (t.row, t.col) = finalCursor m s.row s.col
  phase   : t.phase = s.phase
  escHave : t.escHave = s.escHave
  seq     : t.seq = .s1
  todo    : t.todo = []
  input   : t.input = s.input
  ip      : t.ip = s.ip

/-- An arm's draw blocked: the engine stands in step 4 with its motion still to be made. -/
structure InArm (m : Motion) (s t : State) : Prop where
  events  : ∃ E, Draws E ∧ rxBytes E = [] ∧ Went E s t
  row     : t.row = s.row
  col     : t.col = s.col
  phase   : t.phase = s.phase
  escHave : t.escHave = s.escHave
  seq     : t.seq = .s4 m
  input   : t.input = s.input
  ip      : t.ip = s.ip

theorem drawThenMove_gives {s : State} (hs : s.todo = []) {op : Option (List Prim)} (hop : IsDraw op s.row s.col)
    (m : Motion) : (drawThenMove op m s).Gives (Moved m s) (InArm m s) := by
  have key : ∀ t, (∃ E, Draws E ∧ rxBytes E = [] ∧ Went E (s.setSeq (.s4 m)) t ∧ SameRegisters (s.setSeq (.s4 m)) t) →
      InArm m s t := by
    rintro t ⟨E, hd, hrx, hw, hr⟩
    exact ⟨⟨E, hd, hrx, (Went.of_engine (t := s.setSeq (.s4 m)) rfl).trans hw⟩, hr.row, hr.col, hr.phase, hr.escHave,
      hr.seq, hr.input, hr.ip⟩
  have hdraw : (draw op (s.setSeq (.s4 m))).Gives (fun t => InArm m s t ∧ t.todo = []) (InArm m s) :=
    (draw_gives (s := s.setSeq (.s4 m)) hs hop).mono (fun t ht => ⟨key t ht.1, ht.2⟩) key
  refine hdraw.andThen fun t ht => ?_
  obtain ⟨ht, ht0⟩ := ht
  have hw : Went [] t (t.move m).wrap := by rw [move_wrap_eq]; exact Went.of_engine rfl
  obtain ⟨E, hd, hrx, hE⟩ := ht.events
  refine ⟨⟨E, hd, hrx, by simpa using hE.trans hw⟩, ?_, ?_, ?_, ?_, ?_, ?_, ?_⟩ <;> rw [move_wrap_eq]
  · simp [ht.row, ht.col]
  · exact ht.phase
  · exact ht.escHave
  · rfl
  · exact ht0
  · exact ht.input
  · exact ht.ip

theorem armCr_gives {s : State} (hs : s.todo = []) : (armCr s).Gives (Moved .newline s) (InArm .newline s) :=
  drawThenMove_gives hs (isDraw_glyph _ _ _ _) _

theorem armDel_gives {s : State} (hs : s.todo = []) : (armDel s).Gives (Moved .left s) (InArm .left s) :=
  drawThenMove_gives hs (isDraw_glyph _ _ _ _) _

theorem armGlyph_gives {s : State} (hs : s.todo = []) (b1 : Byte) :
    (armGlyph b1 s).Gives (Moved .right s) (InArm .right s) :=
  drawThenMove_gives hs (isDraw_glyph _ _ _ _) _

theorem armEscape_gives {s : State} (hs : s.todo = []) (m : Motion) : (armEscape m s).Gives (Moved m s) (InArm m s) :=
  drawThenMove_gives hs (isDraw_glyph _ _ _ _) _

/-! ## One input instruction -/

/-- What `exec` of an input instruction leaves, executed or blocked, the engine having had nothing left to execute. -/
inductive IterationCase (i : Instr) (s t : State) : Prop where
  /-- Blocked in step 3. -/
  | began {b1 : Byte} {bs : List Byte} (hb : streamBytes i = b1 :: bs) (h : Began b1 s t)
  /-- Blocked in the arm's draw. -/
  | inArm {m : Motion} {E : List Event} (draws : Draws E) (rx : rxBytes E = streamBytes i) (went : Went E s t)
      (row : t.row = s.row) (col : t.col = s.col) (seq : t.seq = .s4 m)
      (phase : (t.phase = .normal ∧ t.escHave = 0) ∨ (t.phase = s.phase ∧ t.escHave = s.escHave))
      (input : t.input = s.input.drop (streamBytes i).length) (ip : t.ip = s.ip + (streamBytes i).length)
  /-- Executed. -/
  | moved {m : Motion} {E : List Event} (draws : Draws E) (rx : rxBytes E = streamBytes i) (went : Went E s t)
      (cursor : (t.row, t.col) = finalCursor m s.row s.col) (seq : t.seq = .s1) (todo : t.todo = [])
      (phase : (t.phase = .normal ∧ t.escHave = 0) ∨ (t.phase = s.phase ∧ t.escHave = s.escHave))
      (input : t.input = s.input.drop (streamBytes i).length) (ip : t.ip = s.ip + (streamBytes i).length)

theorem oneByte_case {i : Instr} {s t : State} (hs : s.todo = []) {b1 : Byte} (hb : streamBytes i = [b1]) {m : Motion}
    {arm : State → Run} (harm : ∀ u, u.todo = [] → (arm u).Gives (Moved m u) (InArm m u))
    (h : ((beginIteration b1 s).andThen arm).outcome = .next t) : IterationCase i s t := by
  refine Run.Gives.outcome (P := IterationCase i s) (Run.Gives.andThen ((beginIteration_gives hs b1).mono (fun _ => id)
    fun u hu => .began hb hu) fun u hu => (harm u hu.2).mono (fun v hv => ?_) fun v hv => ?_) h
  · obtain ⟨E, d, r, w⟩ := hu.1.events
    obtain ⟨F, d', r', w'⟩ := hv.events
    exact .moved (d.append d') (by simp [rxBytes_append, r, r', hb]) (w.trans w')
      (by rw [hv.cursor, hu.1.row, hu.1.col]) hv.seq hv.todo (.inr ⟨hv.phase.trans hu.1.phase, hv.escHave.trans hu.1.escHave⟩)
      (by rw [hv.input, hu.1.input, hb, ← List.drop_one]; rfl) (by rw [hv.ip, hu.1.ip, hb]; rfl)
  · obtain ⟨E, d, r, w⟩ := hu.1.events
    obtain ⟨F, d', r', w'⟩ := hv.events
    exact .inArm (d.append d') (by simp [rxBytes_append, r, r', hb]) (w.trans w') (hv.row.trans hu.1.row)
      (hv.col.trans hu.1.col) hv.seq (.inr ⟨hv.phase.trans hu.1.phase, hv.escHave.trans hu.1.escHave⟩)
      (by rw [hv.input, hu.1.input, hb, ← List.drop_one]; rfl) (by rw [hv.ip, hu.1.ip, hb]; rfl)

theorem receiveEscape_went {u : State} (hu : u.todo = []) (b2 b3 : Byte) :
    Went [.rx b2, .rx b3] u (receiveEscape b2 b3 u) := by
  have h1 : Went [] u u.enterEscape := Went.of_engine rfl
  have h2 : Went [.rx b2] u.enterEscape (u.enterEscape.receive b2) := Went.receive b2 hu
  have h3 : Went [] (u.enterEscape.receive b2) (u.enterEscape.receiveSecond b2) := Went.of_engine rfl
  have h4 : Went [.rx b3] (u.enterEscape.receiveSecond b2) ((u.enterEscape.receiveSecond b2).receive b3) :=
    Went.receive b3 hu
  have h5 : Went [] ((u.enterEscape.receiveSecond b2).receive b3) (receiveEscape b2 b3 u) := Went.of_engine rfl
  exact h1.trans (h2.trans (h3.trans (h4.trans h5)))

theorem escape_case {i : Instr} {s t : State} (hs : s.todo = []) {b2 b3 : Byte} (hb : streamBytes i = [inEsc, b2, b3])
    {m : Motion}
    (h : ((beginIteration inEsc s).andThen fun u => armEscape m (receiveEscape b2 b3 u)).outcome = .next t) :
    IterationCase i s t := by
  refine Run.Gives.outcome (P := IterationCase i s) (Run.Gives.andThen ((beginIteration_gives hs inEsc).mono
    (fun _ => id) fun u hu => .began hb hu) fun u hu =>
      (armEscape_gives (s := receiveEscape b2 b3 u) hu.2 m).mono (fun v hv => ?_) fun v hv => ?_) h
  all_goals
    obtain ⟨E, d, r, w⟩ := hu.1.events
    obtain ⟨F, d', r', w'⟩ := hv.events
    have hr := receives_escape b2 b3 u
    have dd : Draws (E ++ ([.rx b2, .rx b3] ++ F)) := d.append (.rx b2 (.rx b3 d'))
    have rr : rxBytes (E ++ ([.rx b2, .rx b3] ++ F)) = streamBytes i := by
      simp [rxBytes_append, r, r', hb, rxBytes]
    have ww := w.trans ((receiveEscape_went hu.2 b2 b3).trans w')
    have hi : v.input = s.input.drop (streamBytes i).length := by
      rw [hv.input, hr.input, hu.1.input, hb, ← List.drop_one, List.drop_drop]; rfl
    have hp : v.ip = s.ip + (streamBytes i).length := by rw [hv.ip, hr.ip, hu.1.ip, hb]; rfl
  · exact .moved dd rr ww (by rw [hv.cursor, ← hu.1.row, ← hu.1.col]; rfl) hv.seq hv.todo (.inl ⟨hv.phase, hv.escHave⟩) hi hp
  · exact .inArm dd rr ww (hv.row.trans hu.1.row) (hv.col.trans hu.1.col) hv.seq (.inl ⟨hv.phase, hv.escHave⟩) hi hp

/-- Everything an input instruction can do. -/
theorem exec_input_cases {i : Instr} {s t : State} (hi : i.level = .input) (hs : s.todo = []) (h : exec i s = .next t) :
    IterationCase i s t := by
  cases i with
  | cr => exact oneByte_case hs rfl (fun u hu => armCr_gives hu) h
  | del => exact oneByte_case hs rfl (fun u hu => armDel_gives hu) h
  | glyph b1 => exact oneByte_case hs rfl (fun u hu => armGlyph_gives hu b1) h
  | escUp b2 => exact escape_case hs rfl h
  | escDown b2 => exact escape_case hs rfl h
  | escRight b2 => exact escape_case hs rfl h
  | escLeft b2 => exact escape_case hs rfl h
  | escNone b2 b3 => exact escape_case hs rfl h
  | exitSleep => cases hi
  | displayOn => cases hi
  | colAddrSet a b => cases hi
  | rowAddrSet a b => cases hi
  | memWrite px => cases hi
  | memAccessCtrl b => cases hi

/-! ## One wire command -/

/-- The primitives a wire command is issued with. -/
def issuePrims : Instr → List Prim
  | .exitSleep => issue opExitSleep []
  | .displayOn => issue opDisplayOn []
  | .colAddrSet a b => issue opColAddrSet (boundBytes a b)
  | .rowAddrSet a b => issue opRowAddrSet (boundBytes a b)
  | .memWrite px => issue opMemWrite (px.flatMap pixelBytes)
  | .memAccessCtrl p => issue opMemAccessCtrl [p]
  | .cr => []
  | .del => []
  | .glyph _ => []
  | .escUp _ => []
  | .escDown _ => []
  | .escRight _ => []
  | .escLeft _ => []
  | .escNone _ _ => []

theorem wireFrom_issuePrims (m : Mode) (i : Instr) : wireFrom m ((issuePrims i).map Prim.event) = wireItems i := by
  cases i <;> simp only [issuePrims, wireFrom_issue, wireItems] <;> rfl

theorem exec_wire {i : Instr} (hi : i.level = .wire) (s : State) : exec i s = (runPrims (issuePrims i) s).outcome := by
  cases i <;> first | rfl | cases hi

/-- Everything a wire command can do. -/
theorem exec_wire_cases {i : Instr} {s t : State} (hi : i.level = .wire) (hs : s.todo = []) (h : exec i s = .next t) :
    Went ((issuePrims i).map Prim.event) s t ∧ SameRegisters s t := by
  rw [exec_wire hi] at h
  exact ((runPrims_gives hs (issuePrims i)).mono (fun _ ht => ht.1) fun _ => id).outcome h

/-! ## One step -/

/-- What a step without an instruction can do. -/
inductive BetweenCase (s t : State) : Prop where
  /-- The primitives left to execute are taken up again: position and registers stay. -/
  | resumed (h : s.todo ≠ []) (went : Went [] s t) (same : SameRegisters s t)
  /-- The start-up sequence is over. -/
  | started (hs : s.seq = .init []) (h0 : s.todo = []) (h : t = s.enterLoop)
  /-- Step 1 drawn, or blocked in it. -/
  | lit {E : List Event} (hs : s.seq = .s1) (h0 : s.todo = []) (draws : Draws E) (rx : rxBytes E = []) (went : Went E s t)
      (row : t.row = s.row) (col : t.col = s.col) (phase : t.phase = s.phase) (escHave : t.escHave = s.escHave)
      (input : t.input = s.input) (ip : t.ip = s.ip) (seq : (t.seq = .s2 ∧ t.todo = []) ∨ t.seq = .s1Draw)
  /-- The highlight's last primitive is behind the engine. -/
  | atW0 (hs : s.seq = .s1Draw) (h0 : s.todo = []) (h : t = s.setSeq .s2)
  /-- Waiting: only the environment acts. -/
  | waited (hs : s.waitPoint.isSome = true) (hi : s.input = []) (h : EnvOnly s t)
  /-- A lone escape byte: steps 2 and 3, then the wait of the escape arm. -/
  | escapeBegan {b1 : Byte} {bs : List Byte} (hs : s.seq = .s2) (h0 : s.todo = []) (hi : s.input = b1 :: bs)
      (began : ∃ u, Began b1 s u ∧ (t = u ∨ u.todo = [] ∧ t = u.enterEscape))
  /-- Step 4 after a step 3 that had blocked: the escape arm's wait. -/
  | dispatchedEscape (hs : s.seq = .s3 inEsc) (h0 : s.todo = []) (h : t = s.enterEscape)
  /-- Step 4 after a step 3 that had blocked: another arm. -/
  | dispatched {b1 : Byte} {m : Motion} (hs : s.seq = .s3 b1) (h0 : s.todo = []) (h : Moved m s t ∨ InArm m s t)
  /-- The second byte of an escape sequence. -/
  | second {b : Byte} {bs : List Byte} (hs : s.seq = .s4Wait) (h0 : s.todo = []) (hi : s.input = b :: bs)
      (he : s.escHave = 0) (h : t = s.receiveSecond b)
  /-- The third byte of an escape sequence, and its arm. -/
  | third {b : Byte} {bs : List Byte} {m : Motion} (hs : s.seq = .s4Wait) (h0 : s.todo = []) (hi : s.input = b :: bs)
      (h : Moved m (s.receiveThird b) t ∨ InArm m (s.receiveThird b) t)
  /-- The motion and step 5 after an arm's draw that had blocked. -/
  | movedOn {m : Motion} (hs : s.seq = .s4 m) (h0 : s.todo = []) (h : t = (s.move m).wrap)
  /-- Step 5. -/
  | wrapped (hs : s.seq = .s5) (h0 : s.todo = []) (h : t = s.wrap)

/-- A run's outcome, whichever way it ended. -/
theorem Run.Gives.cases {r : Run} {P Q : State → Prop} {t : State} (h : r.Gives P Q) (ho : r.outcome = .next t) :
    P t ∨ Q t :=
  Run.Gives.outcome (P := fun t => P t ∨ Q t) (h.mono (fun _ => .inl) fun _ => .inr) ho

theorem between_cases {s t : State} (hf : fetch s = none) (h : (between s).outcome = .next t) : BetweenCase s t := by
  unfold between at h
  split at h
  · rename_i p ps hp
    have := (resume_gives s).cases h
    exact .resumed (by simp [hp]) (this.elim (·.1.1) (·.1)) (this.elim (·.1.2) (·.2))
  · rename_i h0
    split at h
    · rename_i cs hs
      cases cs with
      | nil => cases h; exact .started hs h0 rfl
      | cons c cs => simp [fetch, h0, hs] at hf
    · rename_i hs
      have hd := draw_gives (s := s.setSeq .s1Draw) h0 (isDraw_cursor s.row s.col)
      have hg : (highlight s).Gives
          (fun t => ∃ E, Draws E ∧ rxBytes E = [] ∧ Went E s t ∧ SameRegisters (s.setSeq .s2) t ∧ t.todo = [])
          (fun t => ∃ E, Draws E ∧ rxBytes E = [] ∧ Went E s t ∧ SameRegisters (s.setSeq .s1Draw) t) := by
        refine Run.Gives.andThen (hd.mono (fun _ => id) ?_) ?_
        · rintro u ⟨E, d, r, w, k⟩
          exact ⟨E, d, r, (Went.of_engine (t := s.setSeq .s1Draw) rfl).trans w, k⟩
        · rintro u ⟨⟨E, d, r, w, k⟩, h1⟩
          have w' : Went [] u (u.setSeq .s2) := Went.of_engine rfl
          have := ((Went.of_engine (t := s.setSeq .s1Draw) rfl).trans w).trans w'
          exact ⟨E, d, r, by simpa using this, ⟨k.row, k.col, k.phase, k.escHave, rfl, k.input, k.ip⟩, h1⟩
      rcases hg.cases h with ⟨E, d, r, w, k, h1⟩ | ⟨E, d, r, w, k⟩
      · exact .lit hs h0 d r w k.row k.col k.phase k.escHave k.input k.ip (.inl ⟨k.seq, h1⟩)
      · exact .lit hs h0 d r w k.row k.col k.phase k.escHave k.input k.ip (.inr k.seq)
    · rename_i hs
      cases h
      exact .atW0 hs h0 rfl
    · rename_i hs
      unfold partialIteration at h
      split at h
      · rename_i hi
        cases h
        exact .waited (by simp [State.waitPoint, h0, hs]) hi (envOnly_idleTurn s)
      · rename_i b1 bs hi
        have hb : b1 = inEsc := by
          by_contra hne
          have : ∃ r, decodeStream s.input = .ok r := by
            simp only [hi, decodeStream, if_neg hne]
            split
            · exact ⟨_, rfl⟩
            · split <;> exact ⟨_, rfl⟩
          obtain ⟨⟨i, r⟩, hr⟩ := this
          simp [fetch, h0, hs, hr] at hf
        subst hb
        have hg : ((beginIteration inEsc s).andThen (dispatch inEsc)).Gives
            (fun t => ∃ u, Began inEsc s u ∧ u.todo = [] ∧ t = u.enterEscape) (Began inEsc s) :=
          Run.Gives.andThen (beginIteration_gives h0 inEsc) fun u hu => ⟨u, hu.1, hu.2, rfl⟩
        rcases hg.cases h with ⟨u, h1, h2, h3⟩ | h1
        · exact .escapeBegan hs h0 hi ⟨u, h1, .inr ⟨h2, h3⟩⟩
        · exact .escapeBegan hs h0 hi ⟨t, h1, .inl rfl⟩
    · rename_i b1 hs
      unfold dispatch at h
      split at h
      · exact .dispatched hs h0 ((armCr_gives h0).cases h)
      · split at h
        · rename_i hb
          subst hb
          cases h
          exact .dispatchedEscape hs h0 rfl
        · split at h
          · exact .dispatched hs h0 ((armDel_gives h0).cases h)
          · exact .dispatched hs h0 ((armGlyph_gives h0 b1).cases h)
    · rename_i hs
      unfold escapeWait at h
      split at h
      · rename_i hi
        cases h
        exact .waited (by simp only [State.waitPoint, h0, hs]; split <;> rfl) hi (envOnly_idleTurn s)
      · rename_i b bs hi
        split at h
        · rename_i he
          cases h
          exact .second hs h0 hi he rfl
        · exact .third hs h0 hi ((armEscape_gives (s := s.receiveThird b) h0 (motionOf b)).cases h)
    · rename_i m hs
      cases h
      exact .movedOn hs h0 rfl
    · rename_i hs
      cases h
      exact .wrapped hs h0 rfl

/-- What a step can do. -/
inductive StepCase (s t : State) : Prop where
  /-- A start-up command. -/
  | command {c : Instr} {cs : List Instr} (hs : s.seq = .init (c :: cs)) (h0 : s.todo = [])
      (h : exec c (s.setSeq (.init cs)) = .next t)
  /-- The input instruction at the front of the stream. -/
  | instruction {i : Instr} {rest : List Byte} (hs : s.seq = .s2) (h0 : s.todo = [])
      (hd : decodeStream s.input = .ok (i, rest)) (h : exec i s = .next t)
  /-- No instruction. -/
  | between (h : BetweenCase s t)

theorem step_cases {s t : State} (h : step s = .next t) : StepCase s t := by
  unfold step at h
  split at h
  · rename_i i u hf
    unfold fetch at hf
    split at hf
    · rename_i c cs h0 hs
      cases hf
      exact .command hs h0 h
    · rename_i h0 hs
      split at hf
      · rename_i i rest hd
        cases hf
        exact .instruction hs h0 hd h
      · cases hf
    · cases hf
  · rename_i hf
    exact .between (between_cases hf h)

/-- The level and the encoding of what the stream decoder gives. -/
theorem decodeStream_ok {bs rest : List Byte} {i : Instr} (h : decodeStream bs = .ok (i, rest)) :
    i.level = .input ∧ bs = streamBytes i ++ rest := by
  unfold decodeStream at h
  split at h
  · cases h
  · split at h
    · cases h; subst_vars; exact ⟨rfl, rfl⟩
    · split at h
      · split at h
        · cases h; subst_vars
          unfold escInstr
          repeat' split
          all_goals subst_vars; exact ⟨rfl, rfl⟩
        · cases h
      · split at h
        · cases h; subst_vars; exact ⟨rfl, rfl⟩
        · cases h; exact ⟨rfl, rfl⟩

/-- The bytes of `E` were taken off the front of the stream. -/
structure Took (E : List Event) (s t : State) : Prop where
  input : s.input = rxBytes E ++ t.input
  ip    : t.ip = s.ip + (rxBytes E).length

theorem took_none {s t : State} (h : t.input = s.input) (h' : t.ip = s.ip) : Took [] s t := ⟨by simp [h, rxBytes], by simp [h', rxBytes]⟩

/-- The events of a step without an instruction: receptions and draw operations, the bytes taken off the stream. -/
theorem between_went {s t : State} (h : BetweenCase s t) : ∃ E, Went E s t ∧ Draws E ∧ Took E s t := by
  cases h with
  | resumed _ went same => exact ⟨[], went, .nil, took_none same.input same.ip⟩
  | started _ _ h => subst h; exact ⟨[], Went.of_engine rfl, .nil, took_none rfl rfl⟩
  | @lit E _ _ draws rx went _ _ _ _ input ip _ => exact ⟨E, went, draws, by simp [rx, input], by simp [rx, ip]⟩
  | atW0 _ _ h => subst h; exact ⟨[], Went.of_engine rfl, .nil, took_none rfl rfl⟩
  | waited _ _ h => exact ⟨[], Went.of_env h, .nil, took_none h.input h.ip⟩
  | escapeBegan _ _ hi began =>
    obtain ⟨u, hu, ht⟩ := began
    obtain ⟨E, d, r, w⟩ := hu.events
    have hk : Took E s u := ⟨by rw [r, hu.input, hi]; rfl, by rw [r, hu.ip]; rfl⟩
    rcases ht with rfl | ⟨-, rfl⟩
    · exact ⟨E, w, d, hk⟩
    · have w' : Went [] u u.enterEscape := Went.of_engine rfl
      exact ⟨E, by simpa using w.trans w', d, hk.input, hk.ip⟩
  | dispatchedEscape _ _ h => subst h; exact ⟨[], Went.of_engine rfl, .nil, took_none rfl rfl⟩
  | dispatched _ _ h =>
    rcases h with h | h
    · obtain ⟨E, d, r, w⟩ := h.events
      exact ⟨E, w, d, by simp [r, h.input], by simp [r, h.ip]⟩
    · obtain ⟨E, d, r, w⟩ := h.events
      exact ⟨E, w, d, by simp [r, h.input], by simp [r, h.ip]⟩
  | @second b bs _ h0 hi _ h =>
    subst h
    have w : Went [] (s.receive b) (s.receiveSecond b) := Went.of_engine rfl
    exact ⟨[.rx b], (Went.receive b h0).trans w, .rx b .nil, by
      simp [State.receiveSecond, State.setPhase, State.receive, rxBytes, hi], rfl⟩
  | @third b bs m _ h0 hi h =>
    have w : Went [] (s.receive b) (s.receiveThird b) := Went.of_engine rfl
    have w1 := (Went.receive b h0).trans w
    have key : ∀ t : State, (∃ E, Draws E ∧ rxBytes E = [] ∧ Went E (s.receiveThird b) t) → t.input = s.input.tail →
        t.ip = s.ip + 1 → ∃ E, Went E s t ∧ Draws E ∧ Took E s t := by
      rintro t ⟨E, d, r, w'⟩ h1 h2
      exact ⟨_, w1.trans w', .rx b d, by simp [rxBytes, r, h1, hi], by simp [rxBytes, r, h2]⟩
    rcases h with h | h
    · exact key t h.events h.input h.ip
    · exact key t h.events h.input h.ip
  | movedOn _ _ h => subst h; rw [move_wrap_eq]; exact ⟨[], Went.of_engine rfl, .nil, took_none rfl rfl⟩
  | wrapped _ _ h => subst h; exact ⟨[], Went.of_engine rfl, .nil, took_none rfl rfl⟩

/-- The events of an input instruction. -/
theorem IterationCase.went {i : Instr} {s t : State} (h : IterationCase i s t) :
    ∃ E, Went E s t ∧ Draws E ∧ (∀ rest, s.input = streamBytes i ++ rest → Took E s t) := by
  cases h with
  | began hb h =>
    obtain ⟨E, d, r, w⟩ := h.events
    exact ⟨E, w, d, fun rest hi => ⟨by rw [r, h.input, hi, hb]; rfl, by rw [r, h.ip]; rfl⟩⟩
  | @inArm m E draws rx went row col seq phase input ip =>
    exact ⟨E, went, draws, fun rest hi => ⟨by rw [rx, input, hi, List.drop_left], by rw [rx, ip]⟩⟩
  | @moved m E draws rx went cursor seq todo phase input ip =>
    exact ⟨E, went, draws, fun rest hi => ⟨by rw [rx, input, hi, List.drop_left], by rw [rx, ip]⟩⟩

/-- The events of a step: those of a start-up command, or receptions and draw operations. -/
theorem step_went {s t : State} (h : step s = .next t) :
    (∃ c cs, s.seq = .init (c :: cs) ∧ c.level = .wire ∧ Went ((issuePrims c).map Prim.event) s t ∧ t.seq = .init cs ∧
      t.input = s.input ∧ t.ip = s.ip) ∨ ∃ E, Went E s t ∧ Draws E ∧ (s.positionOk = true → Took E s t) := by
  rcases step_cases h with ⟨hs, h0, he⟩ | ⟨hs, h0, hd, he⟩ | hb
  · rename_i c cs
    have w0 : Went [] s (s.setSeq (.init cs)) := Went.of_engine rfl
    by_cases hc : c.level = .wire
    · obtain ⟨w, k⟩ := exec_wire_cases hc (s := s.setSeq (.init cs)) h0 he
      exact .inl ⟨c, cs, hs, hc, w0.trans w, k.seq, k.input, k.ip⟩
    · have hi : c.level = .input := by
        revert hc; cases c.level <;> simp
      obtain ⟨E, w, d, -⟩ := (exec_input_cases hi (s := s.setSeq (.init cs)) h0 he).went
      refine .inr ⟨E, w0.trans w, d, fun hp => ?_⟩
      simp [State.positionOk, hs, hi] at hp
  · obtain ⟨hi, hb⟩ := decodeStream_ok hd
    obtain ⟨E, w, d, k⟩ := (exec_input_cases hi h0 he).went
    exact .inr ⟨E, w, d, fun _ => k _ hb⟩
  · obtain ⟨E, w, d, k⟩ := between_went hb
    exact .inr ⟨E, w, d, fun _ => k⟩

end Sys2Proof.Machine
end

