-- ==== Sys2Proof/Laws/PerInstr.lean ====
section
/-! SUPPORT. Statements for all instructions, one lemma each: `EncodingShape`, the shape of an instruction's encoding. -/

namespace Sys2Proof.Laws.EncodingShape

/-- 30_encoding.md R80, R83, R87: an input instruction is bytes of the stream and no wire items, three bytes exactly if the
first is 27 and one otherwise; a wire command is no byte of the stream, but one command byte that is one of the six opcodes,
and data bytes. -/
def Statement (i : Instr) : Prop :=
  i.wf = true →
    (i.level = .input ∧ wireItems i = [] ∧
      ∃ b1 bs, streamBytes i = b1 :: bs ∧ bs.length = if b1 = 27 then 2 else 0) ∨
    (i.level = .wire ∧ streamBytes i = [] ∧
      ∃ op ps, wireItems i = .c op :: dataItems ps ∧ isWireOpcode op = true)

theorem cr : Statement .cr := fun _ => .inl ⟨rfl, rfl, _, _, rfl, rfl⟩

theorem escUp (b2 : Byte) : Statement (.escUp b2) := fun _ => .inl ⟨rfl, rfl, _, _, rfl, rfl⟩

theorem escDown (b2 : Byte) : Statement (.escDown b2) := fun _ => .inl ⟨rfl, rfl, _, _, rfl, rfl⟩

theorem escRight (b2 : Byte) : Statement (.escRight b2) := fun _ => .inl ⟨rfl, rfl, _, _, rfl, rfl⟩

theorem escLeft (b2 : Byte) : Statement (.escLeft b2) := fun _ => .inl ⟨rfl, rfl, _, _, rfl, rfl⟩

theorem escNone (b2 b3 : Byte) : Statement (.escNone b2 b3) := fun _ => .inl ⟨rfl, rfl, _, _, rfl, rfl⟩

theorem del : Statement .del := fun _ => .inl ⟨rfl, rfl, _, _, rfl, rfl⟩

theorem glyph (b1 : Byte) : Statement (.glyph b1) := by
  intro h
  refine .inl ⟨rfl, rfl, b1, [], rfl, ?_⟩
  simp only [Instr.wf, isReservedFirstByte, Bool.not_eq_true', Bool.or_eq_false_iff, beq_eq_false_iff_ne] at h
  rw [if_neg h.1.2, List.length_nil]

theorem exitSleep : Statement .exitSleep := fun _ => .inr ⟨rfl, rfl, opExitSleep, [], rfl, rfl⟩

theorem displayOn : Statement .displayOn := fun _ => .inr ⟨rfl, rfl, opDisplayOn, [], rfl, rfl⟩

theorem colAddrSet (first last : Bound) : Statement (.colAddrSet first last) :=
  fun _ => .inr ⟨rfl, rfl, opColAddrSet, boundBytes first last, rfl, rfl⟩

theorem rowAddrSet (first last : Bound) : Statement (.rowAddrSet first last) :=
  fun _ => .inr ⟨rfl, rfl, opRowAddrSet, boundBytes first last, rfl, rfl⟩

theorem memWrite (pixels : List Pixel) : Statement (.memWrite pixels) :=
  fun _ => .inr ⟨rfl, rfl, opMemWrite, pixels.flatMap pixelBytes, rfl, rfl⟩

theorem memAccessCtrl (param : Byte) : Statement (.memAccessCtrl param) :=
  fun _ => .inr ⟨rfl, rfl, opMemAccessCtrl, [param], rfl, rfl⟩

end Sys2Proof.Laws.EncodingShape
end

