-- ==== Sys2Proof/Tests/Slice0.lean ====
section
/-! SUPPORT. Tests: expected values are written out from the spec (its rules, its worked examples, 95_test_vectors.md), and
every statement with hypotheses has its witness here. -/

namespace Sys2Proof.Tests

open Sys2Proof.Machine

/-! ## Well-formedness: what the check refuses -/

theorem test_wf_refuses_escNone_with_up : Instr.wf (.escNone 0x5B 65) = false := by decide
theorem test_wf_refuses_escNone_with_down : Instr.wf (.escNone 0x5B 66) = false := by decide
theorem test_wf_refuses_escNone_with_right : Instr.wf (.escNone 0x5B 67) = false := by decide
theorem test_wf_refuses_escNone_with_left : Instr.wf (.escNone 0x5B 68) = false := by decide
theorem test_wf_refuses_glyph_cr : Instr.wf (.glyph 13) = false := by decide
theorem test_wf_refuses_glyph_esc : Instr.wf (.glyph 27) = false := by decide
theorem test_wf_refuses_glyph_del : Instr.wf (.glyph 127) = false := by decide
theorem test_wf_takes_neighbours :
    Instr.wf (.escNone 0 64) = true ∧ Instr.wf (.escNone 0 69) = true ∧ Instr.wf (.glyph 12) = true := by decide

/-! ## Decoding: words written out from 30_encoding.md R85, R88 and 95_test_vectors.md 2.2 -/

theorem test_decode_cr : decodeTableWord 8 0b00001101 = some .cr := by decide
theorem test_decode_del : decodeTableWord 8 0b01111111 = some .del := by decide
theorem test_decode_glyph_line_feed : decodeTableWord 8 0b00001010 = some (.glyph 10) := by decide
theorem test_decode_escUp : decodeTableWord 24 0b00011011_01011011_01000001 = some (.escUp 0x5B) := by decide
theorem test_decode_escDown : decodeTableWord 24 0b00011011_01011011_01000010 = some (.escDown 0x5B) := by decide
theorem test_decode_escRight : decodeTableWord 24 0b00011011_01011011_01000011 = some (.escRight 0x5B) := by decide
theorem test_decode_escLeft : decodeTableWord 24 0b00011011_01011011_01000100 = some (.escLeft 0x5B) := by decide
theorem test_decode_escNone : decodeTableWord 24 0b00011011_01011011_01100001 = some (.escNone 0x5B 0x61) := by decide
theorem test_decode_exitSleep : decodeTableWord 8 0b00010001 = some .exitSleep := by decide
theorem test_decode_displayOn : decodeTableWord 8 0b00101001 = some .displayOn := by decide
theorem test_decode_colAddrSet : decodeTableWord 8 0b00101010 = some (.colAddrSet 0 0) := by decide
theorem test_decode_rowAddrSet : decodeTableWord 8 0b00101011 = some (.rowAddrSet 0 0) := by decide
theorem test_decode_memWrite : decodeTableWord 8 0b00101100 = some (.memWrite []) := by decide
theorem test_decode_memAccessCtrl : decodeTableWord 8 0b00110110 = some (.memAccessCtrl 0) := by decide

/-- Second and third bytes are taken raw: `1B 1B 0D` and `1B 0D 7F` are each one `ESC_NONE`, `1B 41 41` is `ESC_UP`. -/
theorem test_decode_raw_bytes :
    decodeStream [0x1B, 0x1B, 0x0D] = .ok (.escNone 0x1B 0x0D, []) ∧
      decodeStream [0x1B, 0x0D, 0x7F] = .ok (.escNone 0x0D 0x7F, []) ∧
      decodeStream [0x1B, 0x41, 0x41] = .ok (.escUp 0x41, []) := ⟨rfl, rfl, rfl⟩

/-- `1B 41 42 43` is `ESC_DOWN` and then a glyph; `1B 5B 40` and `1B 5B 45` are the neighbours of the recognised four. -/
theorem test_decode_cut :
    decodeStream [0x1B, 0x41, 0x42, 0x43] = .ok (.escDown 0x41, [0x43]) ∧
      decodeStream [0x1B, 0x5B, 0x40] = .ok (.escNone 0x5B 0x40, []) ∧
      decodeStream [0x1B, 0x5B, 0x45] = .ok (.escNone 0x5B 0x45, []) := ⟨rfl, rfl, rfl⟩

/-- A lone escape byte, and one with a single byte after it, wait for more. -/
theorem test_decode_incomplete :
    decodeStream [] = .error .noInput ∧ decodeStream [0x1B] = .error .escapeIncomplete ∧
      decodeStream [0x1B, 0x5B] = .error .escapeIncomplete := ⟨rfl, rfl, rfl⟩

/-- Wire views from R130, R131, R132, R133, and what the wire decoder refuses by name. -/
theorem test_decode_wire :
    decodeWire [.c 0x2A, .d 0x01, .d 0x38, .d 0x01, .d 0x3D, .c 0x2B] = .ok (.colAddrSet 312 317, [.c 0x2B]) ∧
      decodeWire [.c 0x2B, .d 0x00, .d 0xE8, .d 0x00, .d 0xEF] = .ok (.rowAddrSet 232 239, []) ∧
      decodeWire [.c 0x2C, .d 0x00, .d 0x00, .d 0xFF] = .ok (.memWrite [⟨0x00, 0x00, 0xFF⟩], []) ∧
      decodeWire [.c 0x36, .d 0xE0] = .ok (.memAccessCtrl 0xE0, []) := ⟨rfl, rfl, rfl, rfl⟩

theorem test_decode_wire_refuses :
    decodeWire [] = .error .noCommand ∧ decodeWire [.d 0x2A] = .error .noCommand ∧
      decodeWire [.c 0x2D] = .error (.unknownOpcode 0x2D) ∧
      decodeWire [.c 0x2A, .d 0, .d 0, .d 0] = .error (.wrongParameterCount 0x2A) ∧
      decodeWire [.c 0x11, .d 0] = .error (.wrongParameterCount 0x11) ∧
      decodeWire [.c 0x2C, .d 0, .d 0] = .error .partialPixel := ⟨rfl, rfl, rfl, rfl, rfl, rfl⟩

/-! ## Arithmetic and operands (95_test_vectors.md 2.1) -/

theorem test_emod :
    emod (-1) 53 = 52 ∧ emod 53 53 = 0 ∧ emod 52 53 = 52 ∧ emod (-1) 30 = 29 ∧ emod 30 30 = 0 ∧ emod 0 30 = 0 := by decide

theorem test_glyphIndex :
    glyphIndex 0 = 0 ∧ glyphIndex 128 = 0 ∧ glyphIndex 200 = 8 ∧ glyphIndex 255 = 31 ∧ glyphIndex 48 = 16 ∧
      glyphIndex 97 = 1 ∧ glyphIndex 126 = 30 := by decide

/-! ## GlyphFont (95_test_vectors.md 2.3) -/

/-- The fixture art of glyph 1, a letter A (40_glyph_font.md R112). -/
def artA : GlyphArt :=
  [[' ', ' ', '#', ' ', ' ', ' '], [' ', '#', ' ', '#', ' ', ' '], ['#', ' ', ' ', ' ', '#', ' '],
    ['#', ' ', ' ', ' ', '#', ' '], ['#', '#', '#', '#', '#', ' '], ['#', ' ', ' ', ' ', '#', ' '],
    ['#', ' ', ' ', ' ', '#', ' '], [' ', ' ', ' ', ' ', ' ', ' ']]

theorem test_buildGlyph_fixture : buildGlyph artA = some [0x7C, 0x12, 0x11, 0x12, 0x7C, 0x00] := by decide

theorem test_buildGlyph_corners :
    buildGlyph (List.replicate 8 (List.replicate 6 '#')) = some [0xFF, 0xFF, 0xFF, 0xFF, 0xFF, 0xFF] ∧
      buildGlyph (['#', ' ', ' ', ' ', ' ', ' '] :: List.replicate 7 (List.replicate 6 ' ')) = some [1, 0, 0, 0, 0, 0] ∧
      buildGlyph (List.replicate 7 (List.replicate 6 ' ') ++ [[' ', ' ', ' ', ' ', ' ', '#']]) =
        some [0, 0, 0, 0, 0, 0x80] := by decide

theorem test_buildGlyph_refuses :
    buildGlyph (List.replicate 7 (List.replicate 6 '#')) = none ∧
      buildGlyph (List.replicate 8 (List.replicate 5 '#')) = none ∧
      buildGlyph (List.replicate 8 (List.replicate 7 '#')) = none := by decide

/-! ## The states the tests start from -/

/-- The fixture font of 95_test_vectors.md; the panel's size and the other open parameters are this file's own. -/
def fixture : Config where
  font       := [[0, 0, 0, 0, 0, 0], [0x7C, 0x12, 0x11, 0x12, 0x7C, 0x00]] ++ List.replicate 6 [0, 0, 0, 0, 0, 0] ++
    [[0x7F, 0x08, 0x08, 0x08, 0x7F, 0x00], [0x00, 0x41, 0x7F, 0x41, 0x00, 0x00]] ++ List.replicate 22 [0, 0, 0, 0, 0, 0]
  txDepth    := 2
  dcCmdLevel := .low
  curW       := 7
  baud       := 9600
  panelCols  := 320
  panelRows  := 240

/-- A configuration with a font of 31 glyphs, one with a marked glyph 0, and one whose transport holds nothing are refused. -/
theorem test_config_wf_refuses :
    { fixture with font := List.replicate 31 [0, 0, 0, 0, 0, 0] }.wf = false ∧
      { fixture with font := List.replicate 32 [1, 0, 0, 0, 0, 0] }.wf = false ∧
      { fixture with txDepth := 0 }.wf = false ∧ fixture.wf = true := by decide

/-- A live controller as the start-up sequence leaves it (10_state.md R37), with a byte in its frame. -/
def panel : Panel := { Panel.reset with mac := 0xE0, on := true, fresh := false, cmd := some 0x36, idx := 1, frame := [(5, 7)] }

/-- At W0 with the cursor at (row, col) and the bytes `bs` to come. -/
def w0At (row col : Int) (bs : List Byte) : State :=
  { State.reset with cfg := fixture, seq := .s2, row := row, col := col, dc := .data, cs := .low, input := bs }

/-- At the top of the loop. -/
def topAt (row col : Int) (bs : List Byte) : State := { w0At row col bs with seq := .s1 }

/-- In the start-up sequence, with the commands `is` left. -/
def startUp (is : List Instr) : State := { State.reset with cfg := fixture, seq := .init is }

/-- What a test asks of the next state. -/
def nextIs (o : Host.Outcome State Fault Refusal) (p : State → Bool) : Bool :=
  match o with
  | .next t => p t
  | .fault _ => false
  | .refused _ => false

/-- The blocks `[erase(r, c)]` of 95_test_vectors.md, as 48 black pixels. -/
def erased (row col : Int) : List Event := drawEvents row col (List.replicate 48 ⟨0x00, 0x00, 0x00⟩)

/-! ## The input instructions: the source's scenarios S4 to S8 and the table of 95_test_vectors.md 2.6 -/

theorem test_cr_S5 : nextIs (step (w0At 5 10 [0x0D])) (fun t => t.row == 6 && t.col == 0 &&
    t.events == [.rx 0x0D] ++ erased 5 10 ++ erased 5 10) = true := by decide +kernel

theorem test_cr_last_row : nextIs (step (w0At 29 52 [0x0D])) (fun t => t.row == 0 && t.col == 0) = true := by decide +kernel

theorem test_del_S6 : nextIs (step (w0At 2 0 [0x7F])) (fun t => t.row == 1 && t.col == 52 &&
    t.events == [.rx 0x7F] ++ erased 2 0 ++ erased 2 0) = true := by decide +kernel

theorem test_del_origin : nextIs (step (w0At 0 0 [0x7F])) (fun t => t.row == 29 && t.col == 52) = true := by decide +kernel

/-- S4, and the cell picture of 95_test_vectors.md 2.5: glyph 1 at (0, 52), green where the art is marked. -/
theorem test_glyph_S4 : nextIs (step (w0At 0 52 [0x41])) (fun t => t.row == 1 && t.col == 0 &&
    (List.range 8).map (fun r => (List.range 6).map fun c => t.framePixel (312 + c) r) ==
      [[0, 0, 1, 0, 0, 0], [0, 1, 0, 1, 0, 0], [1, 0, 0, 0, 1, 0], [1, 0, 0, 0, 1, 0], [1, 1, 1, 1, 1, 0],
        [1, 0, 0, 0, 1, 0], [1, 0, 0, 0, 1, 0], [0, 0, 0, 0, 0, 0]].map
        (List.map fun b => some (if b = 1 then ⟨0x00, 0xFF, 0x00⟩ else ⟨0x00, 0x00, 0x00⟩))) = true := by decide +kernel

theorem test_glyph_last_cell : nextIs (step (w0At 29 52 [0x41])) (fun t => t.row == 0 && t.col == 0) = true := by
  decide +kernel

theorem test_escUp_S7 : nextIs (step (w0At 3 3 [0x1B, 0x00, 0x41])) (fun t => t.row == 2 && t.col == 3 &&
    t.events == [.rx 0x1B] ++ erased 3 3 ++ [.rx 0x00, .rx 0x41] ++ erased 3 3) = true := by decide +kernel

theorem test_escUp_top : nextIs (step (w0At 0 52 [0x1B, 0x5B, 0x41])) (fun t => t.row == 29 && t.col == 52) = true := by
  decide +kernel

theorem test_escDown_bottom : nextIs (step (w0At 29 7 [0x1B, 0x5B, 0x42])) (fun t => t.row == 0 && t.col == 7) = true := by
  decide +kernel

theorem test_escRight_end : nextIs (step (w0At 4 52 [0x1B, 0x5B, 0x43])) (fun t => t.row == 5 && t.col == 0) = true := by
  decide +kernel

theorem test_escLeft_origin : nextIs (step (w0At 0 0 [0x1B, 0x5B, 0x44])) (fun t => t.row == 29 && t.col == 52) = true := by
  decide +kernel

theorem test_escNone_S8 : nextIs (step (w0At 0 0 [0x1B, 0x00, 0xC8])) (fun t => t.row == 0 && t.col == 0 && t.ip == 3 &&
    t.events == [.rx 0x1B] ++ erased 0 0 ++ [.rx 0x00, .rx 0xC8] ++ erased 0 0) = true := by decide +kernel

/-- The intermediate values of 95_test_vectors.md 2.6: `GLYPH` from (29, 52), `DEL` from (0, 0), `ESC_LEFT` from (2, 0). -/
theorem test_wrap_intermediates :
    carriedRow 29 53 = 30 ∧ carriedRow 0 (-1) = -1 ∧ carriedRow 30 0 = 30 ∧ carriedRow 2 (-1) = 1 := by decide

/-! ## The wire commands (95_test_vectors.md 2.4) -/

theorem test_exitSleep : nextIs (step (startUp [.exitSleep])) (fun t => t.dc == .cmd && t.cs == .high &&
    t.events == [.dc .cmd, .cs .low, .tx 0x11, .drain, .cs .high] && t.seen == [.c 0x11]) = true := by decide +kernel

theorem test_displayOn : nextIs (step (startUp [.displayOn])) (fun t =>
    match t.pan with
    | .live p => p.on && p.cmd == some 0x29
    | .lost _ => false) = true := by decide +kernel

theorem test_memAccessCtrl : nextIs (step (startUp [.memAccessCtrl 0xE0])) (fun t => t.dc == .data && t.cs == .low &&
    t.events == [.dc .cmd, .cs .low, .tx 0x36, .drain, .cs .high, .dc .data, .cs .low, .tx 0xE0]) = true := by decide +kernel

theorem test_colAddrSet : nextIs (step (startUp [.colAddrSet 0x0138 0x013D])) (fun t =>
    t.seen.reverse == [.c 0x2A, .d 0x01, .d 0x38, .d 0x01, .d 0x3D] &&
    match t.pan with
    | .live p => p.xs == 312 && p.xe == 317 && p.ys == 0
    | .lost _ => false) = true := by decide +kernel

theorem test_rowAddrSet : nextIs (step (startUp [.rowAddrSet 0x00E8 0x00EF])) (fun t =>
    t.seen.reverse == [.c 0x2B, .d 0x00, .d 0xE8, .d 0x00, .d 0xEF] &&
    match t.pan with
    | .live p => p.ys == 232 && p.ye == 239 && p.xs == 0
    | .lost _ => false) = true := by decide +kernel

/-- A window of 2 columns and 2 rows, filled row by row (20_memory.md R60). -/
theorem test_memWrite_row_major :
    nextIs (exec (.memWrite [⟨1, 2, 3⟩, ⟨4, 5, 6⟩, ⟨7, 8, 9⟩])
      { startUp [] with pan := .live { Panel.reset with xs := 10, xe := 11, ys := 20, ye := 21 } }) (fun t =>
        t.framePixel 10 20 == some ⟨1, 2, 3⟩ && t.framePixel 11 20 == some ⟨4, 5, 6⟩ &&
          t.framePixel 10 21 == some ⟨7, 8, 9⟩ && t.framePixel 11 21 == none) = true := by decide +kernel

/-- Off the path the controller is lost by name (20_memory.md R61): an unknown opcode, a data byte without a command, a
window with start above end. -/
theorem test_panel_off_the_path :
    panelItems fixture [.c 0x2D] (.live Panel.reset) = .lost .unknownOpcode ∧
      panelItems fixture [.d 0x00] (.live Panel.reset) = .lost .noCommand ∧
      panelItems fixture [.c 0x2C] (.live { Panel.reset with xs := 1 }) = .lost .badWindow := by decide

/-! ## DisplayProtocol and PixelStreamer -/

/-- The window bytes of 95_test_vectors.md 2.4 for the cells (0, 42), (0, 43) and (29, 52). -/
theorem test_window_bytes :
    wireFrom .data ((setAddressWindow (cellRect 0 42)).map Prim.event) =
      [.c 0x2A, .d 0x00, .d 0xFC, .d 0x01, .d 0x01, .c 0x2B, .d 0x00, .d 0x00, .d 0x00, .d 0x07] ∧
    wireFrom .data ((setAddressWindow (cellRect 0 43)).map Prim.event) =
      [.c 0x2A, .d 0x01, .d 0x02, .d 0x01, .d 0x07, .c 0x2B, .d 0x00, .d 0x00, .d 0x00, .d 0x07] ∧
    wireFrom .data ((setAddressWindow (cellRect 29 52)).map Prim.event) =
      [.c 0x2A, .d 0x01, .d 0x38, .d 0x01, .d 0x3D, .c 0x2B, .d 0x00, .d 0xE8, .d 0x00, .d 0xEF] := by decide

/-- The reduced trace of `setAddressWindow(0, 5, 0, 7)` entered in data mode with chip-select low. -/
theorem test_reduced_window :
    reduceFrom (some .data) (some .low) ((setAddressWindow (cellRect 0 0)).map Prim.event) =
      [.dc .cmd, .tx 0x2A, .drain, .cs .high, .dc .data, .cs .low, .tx 0x00, .tx 0x00, .tx 0x00, .tx 0x05,
        .dc .cmd, .tx 0x2B, .drain, .cs .high, .dc .data, .cs .low, .tx 0x00, .tx 0x00, .tx 0x00, .tx 0x07] := by decide

/-- The traversal order (95_test_vectors.md 2.5): bit 1 of column 0 is pixel 6, bit 0 of column 1 is pixel 1. -/
theorem test_traversal_order :
    (glyphPixels { fixture with font := [[0x02, 0, 0, 0, 0, 0]] } 0)[6]? = some ⟨0x00, 0xFF, 0x00⟩ ∧
      (glyphPixels { fixture with font := [[0x02, 0, 0, 0, 0, 0]] } 0)[1]? = some ⟨0x00, 0x00, 0x00⟩ ∧
      (glyphPixels { fixture with font := [[0, 0x01, 0, 0, 0, 0]] } 0)[1]? = some ⟨0x00, 0xFF, 0x00⟩ := by decide

/-- The highlight: `00 00 FF` 48 times (R144), and the cell red once delivered. -/
theorem test_highlight : nextIs (step (topAt 15 26 [])) (fun t => t.seq == .s2 &&
    t.framePixel 156 120 == some ⟨0x00, 0x00, 0xFF⟩ && t.framePixel 161 127 == some ⟨0x00, 0x00, 0xFF⟩ &&
      t.framePixel 162 127 == none && t.framePixel 155 120 == none) = true := by decide +kernel

/-! ## Blocking and hang (95_test_vectors.md 2.7) -/

/-- `spi.txe` never true: `DC(Cmd) CS(Low)` and nothing more. -/
theorem test_hang_txe :
    nextIs (step { startUp [.exitSleep] with cfg := { fixture with txDepth := 0 } }) (fun t =>
      t.events == [.dc .cmd, .cs .low] && t.todo == [.tx 0x11, .drain, .cs .high] && nextIs (step t) (· == t)) = true := by
  decide +kernel

/-- `spi.bsy` never clears: `DC(Cmd) CS(Low) TX(11)`, then the drain for ever. -/
theorem test_hang_bsy :
    nextIs (step { startUp [.exitSleep] with spi := { Spi.reset with pace := .stalled } }) (fun t =>
      t.events == [.dc .cmd, .cs .low, .tx 0x11] && t.todo == [.drain, .cs .high] && nextIs (step t) (· == t)) = true := by
  decide +kernel

/-- The transport stops in the middle of a burst, `TX_DEPTH` = 2: two more bytes, then a hang in `TX`, chip-select low, the
line in data mode. -/
theorem test_hang_in_burst :
    (match runPrims (sendAll [1, 2, 3, 4]) { startUp [] with spi := { Spi.reset with pace := .stalled } } with
      | .parked t => t.cs == .low && t.dc == .data && t.spi.q == [.d 1, .d 2] && txBytes t.events == [1, 2]
      | .done _ => false
      | .refused _ => false) = true := by decide

/-- The schedule of 95_test_vectors.md 2.8, with and without `TRANSPORT_DC_COHERENT`. -/
def hazard (coherent : Bool) : State :=
  { topAt 0 0 [] with
    spi := { q := [], sched := [0, 0, 0, 1, 0, 0, 0, 0, 0, 0, 0, 0, 0, 0, 1, 0, 0, 0, 1, 0, 0, 0, 2, 0, 1, 0], pace := .lazy,
             coherent := coherent } }

theorem test_hazard_schedule :
    (match runPrims ((setAddressWindow (cellRect 0 0)).take 22) (hazard false) with
      | .done t => t.seen.reverse == [.c 0x2A, .d 0x00, .d 0x00, .c 0x00, .c 0x05, .c 0x2B]
      | .parked _ => false
      | .refused _ => false) = true ∧
    (match runPrims ((setAddressWindow (cellRect 0 0)).take 22) (hazard true) with
      | .done t => t.seen.reverse == [.c 0x2A, .d 0x00, .d 0x00, .d 0x00, .d 0x05, .c 0x2B]
      | .parked _ => false
      | .refused _ => false) = true := by decide

/-! ## The interface -/

/-- A table word placed in the reset state is what the next step runs. -/
theorem test_withFetchWord :
    fetch (State.reset.withFetchWord 24 0x1B5B44) =
        some (.escLeft 0x5B, State.reset.withFetchWord 24 0x1B5B44) ∧
      (fetch (State.reset.withFetchWord 8 0x2A)).map Prod.fst = some (.colAddrSet 0 0) := ⟨rfl, rfl⟩

theorem test_externalReset : (w0At 7 9 [1]).externalReset.seq = State.reset.seq ∧ (w0At 7 9 [1]).externalReset.row = 0 := by
  decide

/-- A controller left in the middle of a pixel takes the first command of a new run (10_state.md R37, C11: what it was in
cannot matter), while inside a run the cut burst takes it off the path (20_memory.md R61, U4). -/
theorem test_newRun_in_a_burst :
    panelItems fixture [.c 0x11] (PanelState.newRun 1 (.live { panel with cmd := some 0x2C, idx := 1, buf := [9] })) =
        .live { panel with cmd := some 0x11, idx := 0, buf := [] } ∧
      panelItems fixture [.c 0x11] (.live { panel with cmd := some 0x2C, idx := 1, buf := [9] }) = .lost .cutShort := by decide

/-! ## Witnesses: for each statement with hypotheses, a concrete state and operands that meet them all -/

/-- A state whose picture is in order. -/
def pictured (row col : Int) (bs : List Byte) : State := { w0At row col bs with pan := .live panel }

theorem witness_CarriageReturnErasesAndStartsNextRow :
    (w0At 29 52 [13]).AtW0 ∧ (w0At 29 52 [13]).CanDraw ∧ (w0At 29 52 [13]).input = 13 :: [] := by decide

/-- Both clauses: a cursor off column 0, and one on it. -/
theorem witness_DeleteErasesAndMovesLeft :
    ((w0At 2 1 [127]).AtW0 ∧ (w0At 2 1 [127]).CanDraw ∧ (w0At 2 1 [127]).input = 127 :: [] ∧ 0 < (w0At 2 1 [127]).col) ∧
      (w0At 2 0 [127]).AtW0 ∧ (w0At 2 0 [127]).CanDraw ∧ (w0At 2 0 [127]).input = 127 :: [] ∧
      (w0At 2 0 [127]).col = 0 := by decide

/-- Both clauses: a cursor at column 51, and one at column 52. -/
theorem witness_GlyphDrawsAndMovesRight :
    ((w0At 0 51 [65]).AtW0 ∧ (w0At 0 51 [65]).CanDraw ∧ (65 : Byte) ≠ 13 ∧ (65 : Byte) ≠ 27 ∧ (65 : Byte) ≠ 127 ∧
      (w0At 0 51 [65]).input = 65 :: [] ∧ (w0At 0 51 [65]).col < 52) ∧
      (w0At 0 52 [65]).AtW0 ∧ (w0At 0 52 [65]).CanDraw ∧ (w0At 0 52 [65]).input = 65 :: [] ∧
      (w0At 0 52 [65]).col = 52 := by decide

theorem witness_EscapeUpMovesUp :
    (w0At 0 3 [27, 0, 65]).AtW0 ∧ (w0At 0 3 [27, 0, 65]).CanDraw ∧ (w0At 0 3 [27, 0, 65]).input = 27 :: 0 :: 65 :: [] := by
  decide

theorem witness_EscapeDownMovesDown :
    (w0At 29 3 [27, 0, 66]).AtW0 ∧ (w0At 29 3 [27, 0, 66]).CanDraw ∧
      (w0At 29 3 [27, 0, 66]).input = 27 :: 0 :: 66 :: [] := by decide

theorem witness_EscapeRightMovesRight :
    ((w0At 4 51 [27, 0, 67]).AtW0 ∧ (w0At 4 51 [27, 0, 67]).CanDraw ∧ (w0At 4 51 [27, 0, 67]).col < 52) ∧
      (w0At 4 52 [27, 0, 67]).AtW0 ∧ (w0At 4 52 [27, 0, 67]).CanDraw ∧ (w0At 4 52 [27, 0, 67]).col = 52 ∧
      (w0At 4 52 [27, 0, 67]).input = 27 :: 0 :: 67 :: [] := by decide

theorem witness_EscapeLeftMovesLeft :
    ((w0At 4 1 [27, 0, 68]).AtW0 ∧ (w0At 4 1 [27, 0, 68]).CanDraw ∧ 0 < (w0At 4 1 [27, 0, 68]).col) ∧
      (w0At 4 0 [27, 0, 68]).AtW0 ∧ (w0At 4 0 [27, 0, 68]).CanDraw ∧ (w0At 4 0 [27, 0, 68]).col = 0 ∧
      (w0At 4 0 [27, 0, 68]).input = 27 :: 0 :: 68 :: [] := by decide

theorem witness_EscapeNoneKeepsCursor :
    (w0At 0 0 [27, 0, 200]).AtW0 ∧ (w0At 0 0 [27, 0, 200]).CanDraw ∧ (200 : Byte) ≠ 65 ∧ (200 : Byte) ≠ 66 ∧
      (200 : Byte) ≠ 67 ∧ (200 : Byte) ≠ 68 ∧ (w0At 0 0 [27, 0, 200]).input = 27 :: 0 :: 200 :: [] := by decide

theorem witness_IterationEmitsItsTrace : Instr.level (.escRight 0) = .input ∧ (w0At 29 52 []).CanDraw := by decide

theorem witness_CursorFollowsNetTable :
    Instr.level (.glyph 1) = .input ∧ Instr.level .del = .input ∧ (w0At 29 52 []).CanDraw ∧ (w0At 0 0 []).CanDraw := by decide

theorem pictured_ok (row col : Int) (bs : List Byte) : (pictured row col bs).PictureOk panel :=
  ⟨rfl, (by decide : fixture.wf = true), rfl, (by decide : panel.Ready)⟩

theorem witness_GlyphPaintsItsCell : (pictured 29 52 [65]).CanDraw ∧ (pictured 29 52 [65]).PictureOk panel :=
  ⟨by decide, pictured_ok 29 52 [65]⟩

theorem witness_OtherInputInstructionsBlankTheirCell :
    Instr.level (.escNone 0 0) = .input ∧ (∀ b, Instr.escNone 0 0 ≠ .glyph b) ∧ (pictured 0 0 []).CanDraw ∧
      (pictured 0 0 []).PictureOk panel := ⟨rfl, by simp, by decide, pictured_ok 0 0 []⟩

/-- Both runs answer a next state, through the whole sequence and blocked before its second byte. -/
theorem witness_EscapeSecondByteIsIgnored :
    nextIs (exec (.escUp 0) (w0At 3 3 [27, 0, 65])) (fun _ => true) = true ∧
      nextIs (exec (.escUp 1) (w0At 3 3 [27, 0, 65])) (fun _ => true) = true ∧
      nextIs (exec (.escUp 1) { w0At 3 3 [27, 0, 65] with spi := ⟨[], [], .stalled, true⟩ })
        (fun t => t.seq == .s3 27 && !t.todo.isEmpty) = true := by decide +kernel

theorem witness_EscapeInPartsAgreesWithWhole : (w0At 3 3 []).AtW0 ∧ (w0At 3 3 []).CanDraw := by decide

theorem witness_DrawOutsideGridIsRefused :
    Instr.level .cr = .input ∧ inGrid (w0At 30 0 []).row (w0At 30 0 []).col = false ∧
      inGrid (w0At 0 53 []).row (w0At 0 53 []).col = false ∧ inGrid (w0At 0 (-1) []).row (w0At 0 (-1) []).col = false := by
  decide

/-- The hypotheses of the statements of the wire commands. -/
abbrev ReadyToSend (s : State) (p : Panel) : Prop :=
  s.CanTransmit ∧ s.spi.coherent = true ∧ s.settled = .live p ∧ p.complete = true

theorem pictured_sends : ReadyToSend (pictured 0 0 []) panel :=
  ⟨by decide, rfl, rfl, by decide⟩

theorem witness_ExitSleepWakesController : ReadyToSend (pictured 0 0 []) panel := pictured_sends
theorem witness_DisplayOnTurnsDisplayOn : ReadyToSend (pictured 0 0 []) panel := pictured_sends
theorem witness_ColumnAddressSetSetsColumnRange : ReadyToSend (pictured 0 0 []) panel := pictured_sends
theorem witness_RowAddressSetSetsRowRange : ReadyToSend (pictured 0 0 []) panel := pictured_sends
theorem witness_MemoryAccessControlSetsMac : ReadyToSend (pictured 0 0 []) panel := pictured_sends

/-- A window of one pixel, filled to its last pixel. -/
theorem witness_MemoryWriteFillsWindowRowMajor :
    (pictured 0 0 []).CanTransmit ∧ (pictured 0 0 []).spi.coherent = true ∧ (pictured 0 0 []).settled = .live panel ∧
      panel.Ready ∧ panel.xs ≤ panel.xe ∧ panel.ys ≤ panel.ye ∧ panel.xe.toNat < (pictured 0 0 []).cfg.panelCols ∧
      panel.ye.toNat < (pictured 0 0 []).cfg.panelRows ∧ [(⟨1, 2, 3⟩ : Pixel)].length ≤ panel.width * panel.height ∧
      [(⟨1, 2, 3⟩ : Pixel)] ≠ [] := ⟨by decide, rfl, rfl, by decide, by decide, by decide, by decide, by decide, by decide, by decide⟩

theorem witness_OtherWireCommandsStoreNothing :
    Instr.level (.memAccessCtrl 1) = .wire ∧ (∀ px, Instr.memAccessCtrl 1 ≠ .memWrite px) ∧
      (pictured 0 0 []).CanTransmit ∧ (pictured 0 0 []).settled = .live panel ∧ panel.complete = true ∧
      nextIs (exec (.memAccessCtrl 1) (pictured 0 0 [])) (fun _ => true) = true :=
  ⟨rfl, by simp, by decide, rfl, by decide, by decide⟩

/-- The blocked cases of `SendCommandDrainsAndRaisesChipSelect` and `SendDataDoesNotDrain`: at the transmit, at the drain. -/
theorem witness_SendCommandDrainsAndRaisesChipSelect :
    (w0At 0 0 []).CanTransmit ∧
      (match runPrims (sendCommand 1) { w0At 0 0 [] with spi := ⟨[.d 1, .d 2], [], .stalled, true⟩ } with
        | .parked t => t.todo == [.tx 1, .drain, .cs .high]
        | .done _ => false
        | .refused _ => false) = true ∧
      (match runPrims (sendCommand 1) { w0At 0 0 [] with spi := ⟨[], [], .stalled, true⟩ } with
        | .parked t => t.todo == [.drain, .cs .high]
        | .done _ => false
        | .refused _ => false) = true := by decide

theorem witness_SendDataDoesNotDrain :
    (w0At 0 0 []).CanTransmit ∧ (w0At 0 0 []).spi.q.length ≤ (w0At 0 0 []).cfg.txDepth ∧
      ({ w0At 0 0 [] with spi := ⟨[], [], .lazy, true⟩ } : State).CanTransmit ∧
      (match runPrims (sendData 1) { w0At 0 0 [] with spi := ⟨[.d 1, .d 2], [], .stalled, true⟩ } with
        | .parked t => t.todo == [.tx 1]
        | .done _ => false
        | .refused _ => false) = true := by decide

theorem witness_WindowImageOfACell : 29 < 30 ∧ 52 < 53 := by decide

theorem witness_DrawOperationIsWindowThenBurst : (List.replicate 48 (⟨1, 2, 3⟩ : Pixel)).length = 48 := by decide

theorem witness_EraseSendsBlackPixels : fixture.wf = true ∧ inGrid 29 52 = true := by decide

theorem witness_BuiltGlyphReproducesItsArt : buildGlyph artA = some [0x7C, 0x12, 0x11, 0x12, 0x7C, 0x00] := by decide

/-- Both clauses. -/
theorem witness_StepRunsDecodedInstruction :
    ((w0At 0 0 [13]).seq = .s2 ∧ (w0At 0 0 [13]).todo = [] ∧ decodeStream (w0At 0 0 [13]).input = .ok (.cr, [])) ∧
      (startUp [.exitSleep]).seq = .init (.exitSleep :: []) ∧ (startUp [.exitSleep]).todo = [] :=
  ⟨⟨rfl, rfl, rfl⟩, rfl, rfl⟩

theorem witness_HighlightPaintsCursorCell :
    ({ pictured 29 52 [] with seq := .s1 } : State).AtLoopTop ∧ ({ pictured 29 52 [] with seq := .s1 } : State).CanDraw ∧
      ({ pictured 29 52 [] with seq := .s1 } : State).PictureOk panel :=
  ⟨by decide, by decide, rfl, by decide, rfl, by decide⟩

theorem witness_StartUpSendsInitializationSequence :
    (startUp [.exitSleep, .displayOn, .memAccessCtrl 0xE0]).seq = .init [.exitSleep, .displayOn, .memAccessCtrl 0xE0] ∧
      (startUp [.exitSleep, .displayOn, .memAccessCtrl 0xE0]).todo = [] ∧
      (startUp [.exitSleep, .displayOn, .memAccessCtrl 0xE0]).CanTransmit ∧
      (startUp [.exitSleep, .displayOn, .memAccessCtrl 0xE0]).spi.coherent = true ∧
      (startUp [.exitSleep, .displayOn, .memAccessCtrl 0xE0]).settled = .live Panel.reset ∧ Panel.reset.complete = true :=
  ⟨rfl, rfl, by decide, rfl, rfl, by decide⟩

/-- A controller in the middle of a pixel, and one that is lost. -/
theorem witness_StartUpSettlesAnyController :
    ({ w0At 7 9 [1] with pan := .live { panel with cmd := some 0x2C, idx := 1, buf := [9] } } : State).CanTransmit ∧
      ({ w0At 7 9 [1] with pan := .live { panel with cmd := some 0x2C, idx := 1, buf := [9] } } : State).spi.coherent = true ∧
      ({ w0At 7 9 [1] with pan := .lost .cutShort } : State).CanTransmit ∧
      ({ w0At 7 9 [1] with pan := .lost .cutShort } : State).spi.coherent = true ∧ Panel.reset.fresh = true := by decide

/-- The three ranges of the column, at their ends: 53, −1, and 0 and 52 between them. -/
theorem witness_WrapCarriesOnceThenReduces :
    53 ≤ (w0At 29 53 []).col ∧ (w0At 0 (-1) []).col < 0 ∧ (0 ≤ (w0At 30 0 []).col ∧ (w0At 30 0 []).col < 53) ∧
      (0 ≤ (w0At 0 52 []).col ∧ (w0At 0 52 []).col < 53) ∧ ({ w0At 29 53 [] with seq := .s5 } : State).seq = .s5 ∧
      ({ w0At 29 53 [] with seq := .s5 } : State).todo = [] := by decide

theorem witness_CursorFitsSevenBits : inGrid (w0At 29 52 []).row (w0At 29 52 []).col = true ∧ 7 ≤ 7 := by decide

/-- At each of the three wait points. -/
theorem witness_WaitingEngineEmitsNothing :
    ((w0At 0 0 []).waitPoint = some .w0 ∧ (w0At 0 0 []).input = []) ∧
      ({ w0At 0 0 [] with seq := .s4Wait, phase := .escapeSeen } : State).waitPoint = some .w1 ∧
      ({ w0At 0 0 [] with seq := .s4Wait, phase := .escapeSeen, escHave := 1 } : State).waitPoint = some .w2 := by decide

/-- Each of the three blocking points. -/
theorem witness_HangIsForever :
    (∃ s : State, s.spi.pace = .stalled ∧ s.spi.sched = [] ∧ (∃ b ps, s.todo = .tx b :: ps) ∧
      s.cfg.txDepth ≤ s.spi.q.length) ∧
    (∃ s : State, s.spi.pace = .stalled ∧ s.spi.sched = [] ∧ (∃ ps, s.todo = .drain :: ps) ∧ s.spi.q ≠ []) ∧
    ∃ s : State, s.spi.pace = .stalled ∧ s.spi.sched = [] ∧ s.waitPoint.isSome = true ∧ s.input = [] :=
  ⟨⟨{ w0At 0 0 [] with todo := [.tx 0], spi := ⟨[.d 1, .d 2], [], .stalled, true⟩ }, rfl, rfl, ⟨0, [], rfl⟩, by decide⟩,
    ⟨{ w0At 0 0 [] with todo := [.drain], spi := ⟨[.d 1], [], .stalled, true⟩ }, rfl, rfl, ⟨[], rfl⟩, by decide⟩,
    ⟨{ w0At 0 0 [] with spi := ⟨[], [], .stalled, true⟩ }, rfl, rfl, by decide, rfl⟩⟩

/-- A drain that returns, after an earlier byte was still queued. -/
theorem witness_StatusQueriesReadTheQueue :
    1 ≤ ({ w0At 0 0 [] with trace := [.tx 1], spi := ⟨[.d 1], [], .lazy, true⟩ } : State).cfg.txDepth ∧
      (match ({ w0At 0 0 [] with trace := [.tx 1], spi := ⟨[.d 1], [], .lazy, true⟩ } : State).prim .drain with
        | .done t => t.spi.q == [] && t.seen == [.d 1]
        | .parked _ => false
        | .refused _ => false) = true := by decide

theorem witness_StreamDecodeOfEncode :
    Instr.level (.escNone 27 13) = .input ∧ Instr.wf (.escNone 27 13) = true ∧ Instr.level (.glyph 255) = .input ∧
      Instr.wf (.glyph 255) = true := by decide

theorem witness_WireDecodeOfEncode :
    Instr.level (.memWrite [⟨1, 2, 3⟩]) = .wire ∧ ∀ b ws, [WireItem.c 0x2A] ≠ .d b :: ws := ⟨rfl, by simp⟩

theorem witness_EncodeOfDecode :
    decodeStream [27, 27, 13, 5] = .ok (.escNone 27 13, [5]) ∧
      decodeWire [.c 0x36, .d 1, .c 0x11] = .ok (.memAccessCtrl 1, [.c 0x11]) := ⟨rfl, rfl⟩

theorem witness_EveryStreamDecodes : (27 : Byte) = 27 → 2 ≤ ([1, 2] : List Byte).length := by decide

/-- The machine's own invariant, met at W0 in the last cell, in the middle of a draw, and before step 5 outside the grid. -/
theorem fixture_inv : (w0At 29 52 [27]).Inv := ⟨by decide, by decide, by decide, by decide, by decide, by decide⟩

theorem witness_StepKeepsInvariant :
    (w0At 29 52 [27]).Inv ∧ ({ w0At 29 53 [] with seq := .s5 } : State).Inv ∧
      ({ w0At 0 0 [] with seq := .s3 13, todo := [.tx 0], spi := ⟨[.d 1, .d 2], [], .stalled, true⟩ } : State).Inv ∧
      nextIs (step { w0At 29 53 [] with seq := .s5 }) (fun _ => true) = true :=
  ⟨fixture_inv, ⟨by decide, by decide, by decide, by decide, by decide, by decide⟩,
    ⟨by decide, by decide, by decide, by decide, by decide, by decide⟩, by decide⟩

theorem witness_StepNeverStops : (w0At 29 52 [27]).Inv := fixture_inv

/-- A step that answers a next state, with a byte consumed, from a state whose history and queue agree: the hypotheses of
`StepKeepsConfiguration`, `StepConsumesStreamInOrder`, `StepKeepsDeliveryOrder`, `StepKeepsWireView`. -/
def midway : State :=
  { w0At 3 3 [65] with
    seq := .s4Wait, phase := .escapeSeen, trace := [.tx 2, .tx 1, .dc .data], seen := [.d 1], spi := ⟨[.d 2], [], .lazy, true⟩ }

theorem witness_StepKeepsConfiguration : nextIs (step midway) (fun _ => true) = true := by decide

theorem witness_StepConsumesStreamInOrder :
    midway.positionOk = true ∧ nextIs (step midway) (fun t => t.input == [] && t.ip == 1) = true := by decide

theorem witness_StepKeepsDeliveryOrder :
    (midway.seen.reverse ++ midway.spi.q).map WireItem.byte = txBytes midway.events ∧
      nextIs (step midway) (fun _ => true) = true := by decide

theorem witness_StepKeepsWireView :
    midway.spi.coherent = true ∧ midway.WireView .cmd ∧ nextIs (step midway) (fun _ => true) = true :=
  ⟨rfl, ⟨by decide, by decide⟩, by decide⟩

/-- Blocked inside a command, chip-select low, its drain still to come. -/
theorem witness_StepKeepsChipSelectFraming :
    levelAfter .high ({ startUp [] with trace := [.tx 0x11, .cs .low], cs := .low, todo := [.drain, .cs .high] } : State).events =
        ({ startUp [] with trace := [.tx 0x11, .cs .low], cs := .low, todo := [.drain, .cs .high] } : State).cs ∧
      framedFrom .high false
        ({ startUp [] with trace := [.tx 0x11, .cs .low], cs := .low, todo := [.drain, .cs .high] } : State).plannedEvents = true ∧
      nextIs (step { startUp [] with trace := [.tx 0x11, .cs .low], cs := .low, todo := [.drain, .cs .high] })
        (fun _ => true) = true := by decide

/-- After one command of the start-up sequence. -/
theorem witness_StepKeepsWireGrammar :
    ({ startUp [.displayOn] with trace := [.tx 0x11, .dc .cmd] } : State).Inv ∧
      modeAfter .data ({ startUp [.displayOn] with trace := [.tx 0x11, .dc .cmd] } : State).events =
        ({ startUp [.displayOn] with trace := [.tx 0x11, .dc .cmd] } : State).dc ∧
      ({ startUp [.displayOn] with trace := [.tx 0x11, .dc .cmd] } : State).WireGrammar .data ∧
      nextIs (step { startUp [.displayOn] with trace := [.tx 0x11, .dc .cmd] }) (fun _ => true) = true :=
  ⟨⟨by decide, by decide, by decide, by decide, by decide, by decide⟩, rfl,
    ⟨⟨[.exitSleep], by decide, rfl⟩, fun cs h c hc => by cases h; revert c; decide⟩, by decide⟩

theorem witness_StepKeepsControllerOnPath :
    (pictured 29 52 []).Inv ∧ (pictured 29 52 []).spi.coherent = true ∧ (∀ cs, (pictured 29 52 []).seq ≠ .init cs) ∧
      (pictured 29 52 []).PanelServed ∧ nextIs (step (pictured 29 52 [])) (fun _ => true) = true :=
  ⟨⟨by decide, by decide, by decide, by decide, by decide, by decide⟩, rfl, (by intro cs h; cases h),
    ⟨panel, rfl, by decide⟩, by decide⟩

/-- Two machines that agree on what the statement asks and differ in the rest. -/
theorem witness_TraceDoesNotDependOnTransport :
    (w0At 3 3 []).CanDraw ∧
      ({ w0At 3 3 [] with cfg := { fixture with txDepth := 9 }, spi := ⟨[], [1, 0, 2], .lazy, false⟩, dc := .cmd } : State).CanDraw := by
  decide

theorem witness_FiniteStreamComesToRest :
    (topAt 29 52 [65, 27, 5]).Inv ∧ (topAt 29 52 [65, 27, 5]).Fair ∧ (topAt 29 52 [65, 27, 5]).AtLoopTop :=
  ⟨⟨by decide, by decide, by decide, by decide, by decide, by decide⟩, by decide, by decide⟩

theorem witness_QuiescentStateIsARest : (w0At 0 0 []).quiescent = true ∧ (w0At 0 0 []).spi.sched = [] := by decide

end Sys2Proof.Tests
end

section
/-! SUPPORT. Proofs of the statements of 00_scope.md: R16 (wire view), R11 and R141 (a draw operation), R15 (trace). -/

namespace Sys2Proof.Machine

/-! ## The wire view under coherence -/

/-- Every step adds some events to those done and planned, by the rules of `Went`. -/
theorem step_adds_events {s t : State} (h : step s = .next t) : ∃ E, Went E s t := by
  rcases step_went h with ⟨c, -, -, -, went, -⟩ | ⟨E, went, -⟩
  · exact ⟨(issuePrims c).map Prim.event, went⟩
  · exact ⟨E, went⟩

/-- Settles O52, by `Went.items`: under coherence what a step adds to the trace is added to what is delivered or queued. -/
theorem stepKeepsWireView : Obligations.StepKeepsWireView := by
  intro m s t hc hw h
  obtain ⟨E, went⟩ := step_adds_events h
  exact ⟨went.coherent.trans hc, went.items m hc hw⟩

/-! ## The primitives of a draw operation -/

@[simp] theorem txBytes_sendAll (bs : List Byte) : txBytes ((sendAll bs).map Prim.event) = bs := by
  induction bs with
  | nil => rfl
  | cons b bs ih => simpa [sendAll, sendData, txBytes, Prim.event] using ih

@[simp] theorem drains_sendAll (bs : List Byte) : drains ((sendAll bs).map Prim.event) = 0 := by
  induction bs with
  | nil => rfl
  | cons b bs ih => simpa [sendAll, sendData, drains, Prim.event] using ih

/-- A command and its parameters are transmitted, nothing else. -/
@[simp] theorem txBytes_issue (op : Byte) (bs : List Byte) : txBytes ((issue op bs).map Prim.event) = op :: bs := by
  simp [issue, sendCommand, txBytes, Prim.event]

/-- Only the command is drained, its parameters are not (41_display_protocol.md R123, R124). -/
@[simp] theorem drains_issue (op : Byte) (bs : List Byte) : drains ((issue op bs).map Prim.event) = 1 := by
  simp [issue, sendCommand, drains, Prim.event]

theorem dataItems_flatMap_pixelBytes (px : List Pixel) :
    dataItems (px.flatMap pixelBytes) = px.flatMap fun v => [.d v.blue, .d v.green, .d v.red] := by
  simp [dataItems, List.map_flatMap, pixelBytes]

/-- The window takes ten bytes, the memory write one and three for each pixel. -/
theorem length_txBytes_drawCell (row col : Nat) (px : List Pixel) :
    (txBytes ((drawCell row col px).map Prim.event)).length = 11 + 3 * px.length := by
  simp [drawCell_issues, txBytes_append, boundBytes, pixelBytes]
  omega

/-- One drain for each of the three commands. -/
theorem drains_drawCell (row col : Nat) (px : List Pixel) : drains ((drawCell row col px).map Prim.event) = 3 := by
  simp [drawCell_issues, drains_append]

/-- The window, then the memory write with its payload. -/
theorem wireFrom_drawCell_window (m : Mode) (row col : Nat) (px : List Pixel) :
    wireFrom m ((drawCell row col px).map Prim.event) =
      wireFrom m ((setAddressWindow (cellRect row col)).map Prim.event) ++
        .c opMemWrite :: dataItems (px.flatMap pixelBytes) := by
  rw [drawCell, List.append_assoc, List.map_append, wireFrom_append]
  exact congrArg _ (wireFrom_issue _ opMemWrite _)

/-- Settles O26: the bytes and drains of the three commands are counted, and the wire view is cut after the window. -/
theorem drawOperationIsWindowThenBurst : Obligations.DrawOperationIsWindowThenBurst := by
  intro m row col px hpx
  refine ⟨by rw [length_txBytes_drawCell, hpx], drains_drawCell row col px, ?_⟩
  rw [wireFrom_drawCell_window, dataItems_flatMap_pixelBytes]
  rfl

/-! ## The trace and the transport -/

/-- What an instruction leaves to see of the engine: the trace, the cursor and both lines. -/
structure LooksLike (t t' : State) : Prop where
  trace : t.trace = t'.trace
  row   : t.row = t'.row
  col   : t.col = t'.col
  dc    : t.dc = t'.dc
  cs    : t.cs = t'.cs

theorem events_eq_of_trace {s s' : State} (h : s.trace = s'.trace) : s.events = s'.events := congrArg List.reverse h

theorem trace_eq_of_events {s s' : State} (h : s.events = s'.events) : s.trace = s'.trace := List.reverse_injective h

/-- A glyph's pixels are read from the font alone (42_pixel_streamer.md R143). -/
theorem glyphPixels_of_font {cfg cfg' : Config} (h : cfg.font = cfg'.font) (g : GlyphIndex) :
    glyphPixels cfg g = glyphPixels cfg' g := by
  have : glyphPixel cfg g = glyphPixel cfg' g := by
    funext r c
    rw [glyphPixel, glyphPixel, fontBit, fontBit, fontByte, fontByte, h]
  rw [glyphPixels, glyphPixels, this]

/-- What an iteration leaves to see is said by the font, the cursor and the trace it began with. -/
theorem Iterated.looksLike {b1 : Byte} {bs : List Byte} {g : GlyphIndex} {m : Motion} {s s' t t' : State}
    (h : Iterated b1 bs (glyphPixels s.cfg g) m s t) (h' : Iterated b1 bs (glyphPixels s'.cfg g) m s' t')
    (hf : s.cfg.font = s'.cfg.font) (hr : s.row = s'.row) (hc : s.col = s'.col) (ht : s.trace = s'.trace) :
    LooksLike t t' := by
  have hcur : (t.row, t.col) = (t'.row, t'.col) := by rw [h.cursor, h'.cursor, hr, hc]
  obtain ⟨hrow, hcol⟩ := Prod.mk.inj hcur
  refine ⟨trace_eq_of_events ?_, hrow, hcol, h.dc.trans h'.dc.symm, h.cs.trans h'.cs.symm⟩
  simp only [h.events, h'.events, events_eq_of_trace ht, hr, hc, glyphPixels_of_font hf]

/-- `escape_completes` in the form of `exec`'s outcome. -/
theorem escape_iterates {s : State} (hs : s.CanDraw) (b2 b3 : Byte) (m : Motion) :
    ∃ t, ((beginIteration inEsc s).andThen fun u => armEscape m (receiveEscape b2 b3 u)).outcome = .next t ∧
      Iterated inEsc [b2, b3] (glyphPixels s.cfg blankGlyph) m s t := by
  obtain ⟨t, h, ht, -⟩ := escape_completes hs b2 b3 m
  exact ⟨t, by rw [h, Run.outcome], ht⟩

/-- The bytes, the arm's glyph and the motion of an input instruction are its own, whatever the state. -/
theorem exec_input_iterates {i : Instr} (hi : i.level = .input) :
    ∃ (b1 : Byte) (bs : List Byte) (g : GlyphIndex) (m : Motion),
      ∀ s : State, s.CanDraw → ∃ t, exec i s = .next t ∧ Iterated b1 bs (glyphPixels s.cfg g) m s t := by
  cases i with
  | cr => exact ⟨inCr, [], blankGlyph, .newline, fun _ hs => (execCr_completes hs).imp fun _ ⟨h, ht, _⟩ => ⟨h, ht⟩⟩
  | del => exact ⟨inDel, [], blankGlyph, .left, fun _ hs => (execDel_completes hs).imp fun _ ⟨h, ht, _⟩ => ⟨h, ht⟩⟩
  | glyph b1 =>
    exact ⟨b1, [], glyphIndex b1, .right, fun _ hs => (execGlyph_completes hs b1).imp fun _ ⟨h, ht, _⟩ => ⟨h, ht⟩⟩
  | escUp b2 => exact ⟨_, _, _, _, fun _ hs => escape_iterates hs b2 inUp .up⟩
  | escDown b2 => exact ⟨_, _, _, _, fun _ hs => escape_iterates hs b2 inDown .down⟩
  | escRight b2 => exact ⟨_, _, _, _, fun _ hs => escape_iterates hs b2 inRight .right⟩
  | escLeft b2 => exact ⟨_, _, _, _, fun _ hs => escape_iterates hs b2 inLeft .left⟩
  | escNone b2 b3 => exact ⟨_, _, _, _, fun _ hs => escape_iterates hs b2 b3 .stay⟩
  | exitSleep => cases hi
  | displayOn => cases hi
  | colAddrSet a b => cases hi
  | rowAddrSet a b => cases hi
  | memWrite px => cases hi
  | memAccessCtrl b => cases hi

theorem exec_input_looksLike {i : Instr} (hi : i.level = .input) {s s' : State} (hs : s.CanDraw) (hs' : s'.CanDraw)
    (hf : s.cfg.font = s'.cfg.font) (hr : s.row = s'.row) (hc : s.col = s'.col) (ht : s.trace = s'.trace) :
    ∃ t t', exec i s = .next t ∧ exec i s' = .next t' ∧ LooksLike t t' := by
  obtain ⟨b1, bs, g, m, run⟩ := exec_input_iterates hi
  obtain ⟨t, h, k⟩ := run s hs
  obtain ⟨t', h', k'⟩ := run s' hs'
  exact ⟨t, t', h, h', k.looksLike k' hf hr hc ht⟩

/-- A wire command is issued as one opcode and its parameters. -/
theorem issuePrims_eq_issue {i : Instr} (hi : i.level = .wire) : ∃ op bs, issuePrims i = issue op bs := by
  cases i with
  | exitSleep => exact ⟨_, _, rfl⟩
  | displayOn => exact ⟨_, _, rfl⟩
  | colAddrSet a b => exact ⟨_, _, rfl⟩
  | rowAddrSet a b => exact ⟨_, _, rfl⟩
  | memWrite px => exact ⟨_, _, rfl⟩
  | memAccessCtrl b => exact ⟨_, _, rfl⟩
  | cr => cases hi
  | del => cases hi
  | glyph b1 => cases hi
  | escUp b2 => cases hi
  | escDown b2 => cases hi
  | escRight b2 => cases hi
  | escLeft b2 => cases hi
  | escNone b2 b3 => cases hi

/-- An issued command sets both lines itself, so the levels they had before do not matter. -/
theorem Ran.looksLike {op : Byte} {bs : List Byte} {s s' t t' : State} (h : Ran (issue op bs) s t)
    (h' : Ran (issue op bs) s' t') (hr : s.row = s'.row) (hc : s.col = s'.col) (ht : s.trace = s'.trace) :
    LooksLike t t' where
  trace := by rw [h.trace, h'.trace, ht]
  row := by rw [h.row, h'.row, hr]
  col := by rw [h.col, h'.col, hc]
  dc := by rw [h.dc, h'.dc, modeAfter_issue, modeAfter_issue]
  cs := by rw [h.cs, h'.cs, levelAfter_issue, levelAfter_issue]

theorem exec_wire_looksLike {i : Instr} (hi : i.level = .wire) {s s' : State} (hs : s.CanTransmit)
    (hs' : s'.CanTransmit) (hr : s.row = s'.row) (hc : s.col = s'.col) (ht : s.trace = s'.trace) :
    ∃ t t', exec i s = .next t ∧ exec i s' = .next t' ∧ LooksLike t t' := by
  obtain ⟨op, bs, e⟩ := issuePrims_eq_issue hi
  obtain ⟨t, h, k, -⟩ := runPrims_completes (issue op bs) hs
  obtain ⟨t', h', k', -⟩ := runPrims_completes (issue op bs) hs'
  exact ⟨t, t', by rw [exec_wire hi, e, h, Run.outcome], by rw [exec_wire hi, e, h', Run.outcome],
    k.looksLike k' hr hc ht⟩

/-- Settles O57, by the level of the instruction: an input instruction is an iteration, a wire command an issue. -/
theorem traceDoesNotDependOnTransport : Obligations.TraceDoesNotDependOnTransport := by
  intro i s s' hs hs' hf hr hc ht
  have key : ∃ t t', exec i s = .next t ∧ exec i s' = .next t' ∧ LooksLike t t' := by
    cases hi : i.level with
    | input => exact exec_input_looksLike hi hs hs' hf hr hc ht
    | wire => exact exec_wire_looksLike hi hs.2 hs'.2 hr hc ht
  obtain ⟨t, t', h, h', k⟩ := key
  exact ⟨t, t', h, h', k.trace, k.row, k.col, k.dc, k.cs⟩

end Sys2Proof.Machine
end

section
/-! SUPPORT. Proofs of the statements of 10_state.md: reset, the stream, the invariant every step keeps, the cursor's
bounds, escape sequences that come in parts, and the start-up of a new run. -/

namespace Sys2Proof.Machine

/-! ## Where a step finds its instruction -/

theorem step_of_decodeStream {s : State} {i : Instr} {rest : List Byte} (hseq : s.seq = .s2) (htodo : s.todo = [])
    (hdec : decodeStream s.input = .ok (i, rest)) : step s = exec i s := by
  simp only [step, fetch, hseq, htodo, hdec]

theorem step_of_command {s : State} {i : Instr} {is : List Instr} (hseq : s.seq = .init (i :: is))
    (htodo : s.todo = []) : step s = exec i (s.setSeq (.init is)) := by
  simp only [step, fetch, hseq, htodo]

/-- Settles O31, by the two places `fetch` reads from. -/
theorem stepRunsDecodedInstruction : Obligations.StepRunsDecodedInstruction :=
  ⟨fun _ _ _ hseq htodo hdec => step_of_decodeStream hseq htodo hdec,
    fun _ _ _ hseq htodo => step_of_command hseq htodo⟩

/-! ## The stream -/

/-- Settles O50: the events of a start-up command receive nothing, those of any other step are what `Took` says. -/
theorem stepConsumesStreamInOrder : Obligations.StepConsumesStreamInOrder := by
  intro s t hp h
  rcases step_went h with ⟨c, cs, -, -, went, -, input, ip⟩ | ⟨E, went, -, took⟩
  · exact ⟨[], by rw [input, List.nil_append], ip, by rw [went.rx, rxBytes_prims]⟩
  · exact ⟨rxBytes E, (took hp).input, (took hp).ip, went.rx⟩

/-! ## The invariant -/

/-- `phase` and `esc_have` as they are everywhere but in the escape arm's waits (10_state.md R25). -/
abbrev State.PhaseNormal (s : State) : Prop := s.phase = .normal ∧ s.escHave = 0

/-- The part of the invariant that speaks of the engine's own registers. -/
structure State.EngineOk (s : State) : Prop where
  cursor   : s.cursorOk = true
  phase    : s.phaseOk = true
  position : s.positionOk = true

theorem State.Inv.engineOk {s : State} (h : s.Inv) : s.EngineOk := ⟨h.cursor, h.phase, h.position⟩

namespace State.EngineOk

variable {s t : State}

/-! What the invariant says at a position. -/

theorem inGrid (h : s.EngineOk) (hs : s.seq ≠ .s5) : inGrid s.row s.col = true := by
  have := h.cursor
  unfold State.cursorOk at this
  split at this
  · contradiction
  · exact this

theorem phaseNormal (h : s.EngineOk) (hs : s.seq ≠ .s4Wait) : s.PhaseNormal := by
  have := h.phase
  unfold State.phaseOk at this
  split at this
  · contradiction
  · simpa using this

theorem commands (h : s.EngineOk) {cs : List Instr} (hs : s.seq = .init cs) : ∀ c ∈ cs, c.level = .wire := by
  simpa [State.positionOk, hs] using h.position

/-! What establishes it at a position. -/

/-- Away from the escape arm's wait and from step 5 the cursor is in the grid and the phase normal. -/
theorem of_normal (h5 : t.seq ≠ .s5) (h4 : t.seq ≠ .s4Wait) (hg : Machine.inGrid t.row t.col = true)
    (hp : t.PhaseNormal) (position : t.positionOk = true) : t.EngineOk where
  cursor := by
    unfold State.cursorOk
    split
    · contradiction
    · exact hg
  phase := by
    unfold State.phaseOk
    split
    · contradiction
    · simp [hp.1, hp.2]
  position := position

theorem at_init {cs : List Instr} (hs : t.seq = .init cs) (hc : ∀ c ∈ cs, c.level = .wire)
    (hg : Machine.inGrid t.row t.col = true) (hp : t.PhaseNormal) : t.EngineOk :=
  .of_normal (by simp [hs]) (by simp [hs]) hg hp (by simpa [State.positionOk, hs] using hc)

theorem at_rest (hs : t.seq = .s1 ∨ t.seq = .s2) (h0 : t.todo = []) (hg : Machine.inGrid t.row t.col = true)
    (hp : t.PhaseNormal) : t.EngineOk := by
  rcases hs with hs | hs <;> exact .of_normal (by simp [hs]) (by simp [hs]) hg hp (by simp [State.positionOk, hs, h0])

theorem at_draw (hs : t.seq = .s1Draw ∨ (∃ b, t.seq = .s3 b) ∨ ∃ m, t.seq = .s4 m)
    (hg : Machine.inGrid t.row t.col = true) (hp : t.PhaseNormal) : t.EngineOk := by
  rcases hs with hs | ⟨b, hs⟩ | ⟨m, hs⟩ <;>
    exact .of_normal (by simp [hs]) (by simp [hs]) hg hp (by simp [State.positionOk, hs])

theorem at_escapeWait (hs : t.seq = .s4Wait) (h0 : t.todo = []) (hg : Machine.inGrid t.row t.col = true)
    (hp : t.phase = .escapeSeen) : t.EngineOk :=
  ⟨by simp [State.cursorOk, hs, hg], by simp [State.phaseOk, hs, hp], by simp [State.positionOk, hs, h0]⟩

/-- The registers decide it, but for this: with nothing left to execute before, nothing may be left after. -/
theorem of_same (h : s.EngineOk) (hr : t.row = s.row) (hc : t.col = s.col) (hp : t.phase = s.phase)
    (he : t.escHave = s.escHave) (hs : t.seq = s.seq) (h0 : s.todo = [] → t.todo = []) : t.EngineOk where
  cursor := by simpa only [State.cursorOk, hr, hc, hs] using h.cursor
  phase := by simpa only [State.phaseOk, hp, he, hs] using h.phase
  position := by
    have := h.position
    unfold State.positionOk at this ⊢
    rw [hs]
    split <;> simp_all

end State.EngineOk

theorem inGrid_of_finalCursor {m : Motion} {row col row' col' : Int} (h : (row', col') = finalCursor m row col) :
    inGrid row' col' = true := by
  obtain ⟨rfl, rfl⟩ := Prod.mk.inj h
  exact inGrid_finalCursor m row col

section
variable {s t : State} (hg : inGrid s.row s.col = true) (hp : s.PhaseNormal)
include hp

theorem Moved.engineOk {m : Motion} (h : Moved m s t) : t.EngineOk :=
  .at_rest (.inl h.seq) h.todo (inGrid_of_finalCursor h.cursor) ⟨h.phase.trans hp.1, h.escHave.trans hp.2⟩

include hg

theorem Began.engineOk {b1 : Byte} (h : Began b1 s t) : t.EngineOk :=
  .at_draw (.inr (.inl ⟨b1, h.seq⟩)) (by rw [h.row, h.col, hg]) ⟨h.phase.trans hp.1, h.escHave.trans hp.2⟩

theorem InArm.engineOk {m : Motion} (h : InArm m s t) : t.EngineOk :=
  .at_draw (.inr (.inr ⟨m, h.seq⟩)) (by rw [h.row, h.col, hg]) ⟨h.phase.trans hp.1, h.escHave.trans hp.2⟩

theorem arm_engineOk {m : Motion} (h : Moved m s t ∨ InArm m s t) : t.EngineOk :=
  h.elim (·.engineOk hp) (·.engineOk hg hp)

theorem IterationCase.engineOk {i : Instr} (h : IterationCase i s t) : t.EngineOk := by
  have normal (k : t.PhaseNormal ∨ (t.phase = s.phase ∧ t.escHave = s.escHave)) : t.PhaseNormal :=
    k.elim id fun k => ⟨k.1.trans hp.1, k.2.trans hp.2⟩
  cases h with
  | began _ h => exact h.engineOk hg hp
  | inArm _ _ _ row col seq phase => exact .at_draw (.inr (.inr ⟨_, seq⟩)) (by rw [row, col, hg]) (normal phase)
  | moved _ _ _ cursor seq todo phase => exact .at_rest (.inl seq) todo (inGrid_of_finalCursor cursor) (normal phase)

end

/-- What a step without an instruction leaves, case by case of where it can come to. -/
theorem BetweenCase.engineOk {s t : State} (h : BetweenCase s t) (hs : s.EngineOk) : t.EngineOk := by
  cases h with
  | resumed h _ same => exact hs.of_same same.row same.col same.phase same.escHave same.seq fun h0 => absurd h0 h
  | started _ h0 h => subst h; exact .at_rest (.inl rfl) h0 rfl ⟨rfl, rfl⟩
  | lit hq _ _ _ _ row col phase escHave _ _ seq =>
    have hg : inGrid t.row t.col = true := by rw [row, col, hs.inGrid (by simp [hq])]
    have hp := hs.phaseNormal (by simp [hq])
    have hp' : t.PhaseNormal := ⟨phase.trans hp.1, escHave.trans hp.2⟩
    rcases seq with ⟨seq, todo⟩ | seq
    · exact .at_rest (.inr seq) todo hg hp'
    · exact .at_draw (.inl seq) hg hp'
  | atW0 hq h0 h =>
    subst h
    exact .at_rest (.inr rfl) h0 (hs.inGrid (by simp [hq])) (hs.phaseNormal (by simp [hq]))
  | waited _ _ h => exact hs.of_same h.row h.col h.phase h.escHave h.seq fun h0 => h.todo.trans h0
  | escapeBegan hq _ _ began =>
    have hg := hs.inGrid (by simp [hq])
    obtain ⟨u, hu, rfl | ⟨hu0, rfl⟩⟩ := began
    · exact hu.engineOk hg (hs.phaseNormal (by simp [hq]))
    · exact .at_escapeWait rfl hu0 (by rw [← hg, ← hu.row, ← hu.col]; rfl) rfl
  | dispatchedEscape hq h0 h => subst h; exact .at_escapeWait rfl h0 (hs.inGrid (by simp [hq])) rfl
  | dispatched hq _ h => exact arm_engineOk (hs.inGrid (by simp [hq])) (hs.phaseNormal (by simp [hq])) h
  | second hq h0 _ _ h => subst h; exact .at_escapeWait hq h0 (hs.inGrid (by simp [hq])) rfl
  | @third b _ _ hq _ _ h => exact arm_engineOk (s := s.receiveThird b) (hs.inGrid (by simp [hq])) ⟨rfl, rfl⟩ h
  | movedOn hq h0 h =>
    subst h
    rw [move_wrap_eq]
    exact .at_rest (.inl rfl) h0 (inGrid_finalCursor _ _ _) (hs.phaseNormal (by simp [hq]))
  | wrapped hq h0 h => subst h; exact .at_rest (.inl rfl) h0 (inGrid_emod _ _) (hs.phaseNormal (by simp [hq]))

/-- The registers keep their part of the invariant: by where the step found its instruction, if it found one. -/
theorem step_engineOk {s t : State} (hs : s.EngineOk) (h : step s = .next t) : t.EngineOk := by
  cases step_cases h with
  | @command c cs hq h0 he =>
    have hw := hs.commands hq
    obtain ⟨-, same⟩ := exec_wire_cases (hw c (by simp)) (s := s.setSeq (.init cs)) h0 he
    have hp := hs.phaseNormal (by simp [hq])
    have hg : inGrid t.row t.col = true := by
      rw [same.row, same.col]
      exact hs.inGrid (by simp [hq])
    exact .at_init same.seq (fun c' hc' => hw c' (by simp [hc'])) hg
      ⟨same.phase.trans hp.1, same.escHave.trans hp.2⟩
  | instruction hq h0 hd he =>
    have hi := (decodeStream_ok hd).1
    exact (exec_input_cases hi h0 he).engineOk (hs.inGrid (by simp [hq])) (hs.phaseNormal (by simp [hq]))
  | between h => exact h.engineOk hs

/-- Settles O47: the registers by `step_engineOk`, the rest by what `Went` says of the events a step adds. -/
theorem stepKeepsInvariant : Obligations.StepKeepsInvariant := by
  intro s t hs h
  obtain ⟨E, went⟩ := step_adds_events h
  obtain ⟨cursor, phase, position⟩ := step_engineOk hs.engineOk h
  exact ⟨by rw [went.cfg, hs.config], cursor, phase, position, went.queue hs.queue, went.memory hs.memory⟩

/-! ## Reset -/

/-- The open parameters meet their constraints, whatever their values (00_scope.md R12). -/
theorem given_wf : Config.given.wf = true := by
  have hlen : Config.openFont.length = 32 := by simp [Config.openFont]
  have hglyphs : (Config.openFont.all fun g => g.length == 6) = true := by simp [Config.openFont]
  have hblank : Config.openFont.headD [] = [0, 0, 0, 0, 0, 0] := rfl
  simp only [Config.wf, Config.given, hlen, hglyphs, hblank]
  simp

/-- Settles O44: the values are those `State.reset` writes; the transport is empty and holds at least one byte. -/
theorem resetHasTheSpecifiedValues : Obligations.ResetHasTheSpecifiedValues :=
  ⟨rfl, rfl, rfl, rfl, rfl, rfl, rfl, decide_eq_true (Nat.succ_pos Config.openTxDepth), rfl, rfl⟩

theorem reset_inv : State.reset.Inv := ⟨given_wf, rfl, rfl, rfl, Nat.zero_le _, rfl⟩

/-- Nothing is sent yet, and the start-up commands are the engine's. -/
theorem reset_wireGrammar (m : Mode) : State.reset.WireGrammar m := by
  refine ⟨⟨[], by simp, rfl⟩, fun cs hs => ?_⟩
  cases hs
  decide

/-- Settles O46: the trace is empty and the registers are in place; the parameters are open, within their constraints. -/
theorem resetMeetsInvariants : Obligations.ResetMeetsInvariants :=
  ⟨reset_inv, ⟨rfl, rfl⟩, rfl, reset_wireGrammar _⟩

/-! ## The cursor's bounds -/

theorem transient_iff (row col : Int) : transient row col = true ↔
    -1 ≤ row ∧ row ≤ 30 ∧ -1 ≤ col ∧ col ≤ 53 ∧ (0 ≤ row ∧ row < 30 ∨ 0 ≤ col ∧ col < 53) := by
  simp only [transient, Bool.and_eq_true, Bool.or_eq_true, decide_eq_true_eq, and_assoc]

/-- One motion leaves the grid by at most one row or one column, not by both (43_terminal_state_machine.md R172). -/
theorem transient_movedCursor {row col : Int} (h : inGrid row col = true) (m : Motion) :
    transient (movedCursor m row col).1 (movedCursor m row col).2 = true := by
  rw [inGrid_iff] at h
  rw [transient_iff]
  cases m <;> simp only [movedCursor] <;> omega

theorem transient_move {s : State} (h : inGrid s.row s.col = true) (m : Motion) :
    transient (s.move m).row (s.move m).col = true := by
  rw [move_eq]
  exact transient_movedCursor h m

/-- The carry is made only where the row is still in the grid, so it too leaves it by at most one. -/
theorem carriedRow_bounds {row col : Int} (h : transient row col = true) :
    -1 ≤ carriedRow row col ∧ carriedRow row col ≤ 30 := by
  rw [transient_iff] at h
  simp only [carriedRow, gridCols]
  split_ifs <;> omega

/-- Signed registers of 7 bits or more hold [−1, 53] (10_state.md R23). -/
theorem fits_of_seven_le {w : Nat} (hw : 7 ≤ w) {v : Int} (h : -1 ≤ v ∧ v ≤ 53) :
    -(2 : Int) ^ (w - 1) ≤ v ∧ v < (2 : Int) ^ (w - 1) := by
  have hpow : (2 : Int) ^ 6 ≤ 2 ^ (w - 1) := pow_le_pow_right₀ (by decide) (by omega)
  omega

/-- Settles O35, by the bounds of R172 for the motion and for the carry. -/
theorem cursorFitsSevenBits : Obligations.CursorFitsSevenBits := by
  intro s m w hg hw
  have ht := transient_move hg m
  have hc := carriedRow_bounds ht
  refine ⟨ht, fun v hv => ?_⟩
  have hb : -1 ≤ v ∧ v ≤ 53 := by
    rw [transient_iff] at ht
    simp only [List.mem_cons, List.not_mem_nil, or_false] at hv
    rcases hv with rfl | rfl | rfl <;> omega
  exact ⟨hb.1, hb.2, fits_of_seven_le hw hb⟩

/-! ## The start-up of a new run -/

theorem Ran.setSeq {ps : List Prim} {s t : State} (h : Ran ps s t) (q : Seq) : Ran ps (s.setSeq q) (t.setSeq q) :=
  ⟨by rw [h.engine]; rfl, h.trace, h.dc, h.cs, h.pace, h.coherent, h.settled, h.items, h.bytes, h.queue, h.memory⟩

/-- Under a fair environment a wire command is issued to its end. -/
theorem exec_wire_completes {i : Instr} (hi : i.level = .wire) {s : State} (hc : s.CanTransmit) :
    ∃ t, exec i s = .next t ∧ Ran (issuePrims i) s t ∧ t.todo = s.todo := by
  obtain ⟨t, h, ran, todo⟩ := runPrims_completes (issuePrims i) hc
  exact ⟨t, by rw [exec_wire hi, h, Run.outcome], ran, todo⟩

/-- Under a fair environment a list of start-up commands is issued in as many steps as there are commands. -/
theorem run_commands {is : List Instr} (hi : ∀ i ∈ is, i.level = .wire) {s : State} (hc : s.CanTransmit)
    (hs : s.seq = .init is) (h0 : s.todo = []) :
    ∃ t, core.run is.length s = .next t ∧ Ran (is.flatMap issuePrims) (s.setSeq (.init [])) t ∧ t.todo = [] := by
  induction is generalizing s with
  | nil =>
    refine ⟨s, rfl, ?_, h0⟩
    have : s.setSeq (.init []) = s := by rw [← hs]; rfl
    rw [this]
    exact .of_env (.refl s)
  | cons i is ih =>
    obtain ⟨u, hu, ran, todo⟩ := exec_wire_completes (hi i (by simp)) (s := s.setSeq (.init is)) hc
    obtain ⟨t, ht, ran', todo'⟩ := ih (fun j hj => hi j (by simp [hj])) (ran.canTransmit hc) ran.seq (todo.trans h0)
    exact ⟨t, by rw [List.length_cons, run_next ((step_of_command hs h0).trans hu), ht],
      (ran.setSeq (.init [])).trans ran', todo'⟩

/-- The wire view of commands issued one after the other. -/
theorem wireFrom_issueAll (m : Mode) (is : List Instr) :
    wireFrom m ((is.flatMap issuePrims).map Prim.event) = is.flatMap wireItems := by
  induction is generalizing m with
  | nil => rfl
  | cons i is ih => rw [List.flatMap_cons, List.map_append, wireFrom_append, wireFrom_issuePrims, ih, List.flatMap_cons]

/-- `initializationSequence()` as instructions (41_display_protocol.md R127). -/
def startUpCommands : List Instr := [.exitSleep, .displayOn, .memAccessCtrl 0xE0]

theorem externalReset_commands (s : State) : s.externalReset.seq = .init startUpCommands := rfl

/-- A command without parameters is complete at once (30_encoding.md R87). -/
theorem Panel.complete_of_noParameters {p : Panel} {op : Byte} (hop : op = opExitSleep ∨ op = opDisplayOn)
    (hcmd : p.current = some op) (hidx : p.idx = 0) : p.complete = true := by
  rcases hop with rfl | rfl <;>
    simp [Panel.complete, hcmd, hidx, opExitSleep, opDisplayOn, opColAddrSet, opRowAddrSet, opMemAccessCtrl, opMemWrite]

/-- What the start-up commands make of a controller that can take a command (20_memory.md R59). -/
theorem panelItems_startUp {cfg : Config} {p : Panel} (h : p.complete = true) :
    panelItems cfg (startUpCommands.flatMap wireItems) (.live p) =
      .live { p with
        sleep := false, on := true, mac := 0xE0, fresh := false, cmd := some opMemAccessCtrl, idx := 1, buf := [] } := by
  simp only [startUpCommands, List.flatMap_cons, List.flatMap_nil, List.append_nil, panelItems_append]
  simp only [show wireItems .exitSleep = [.c opExitSleep] from rfl, show wireItems .displayOn = [.c opDisplayOn] from rfl,
    panelItems, panelItem_exitSleep h]
  rw [panelItem_displayOn, panelItems_memAccessCtrl]
  · rfl
  · exact Panel.complete_of_noParameters (.inr rfl) rfl rfl
  · exact Panel.complete_of_noParameters (.inl rfl) rfl rfl

/-- The external reset empties the queue, so what is settled is the controller in its new run. -/
theorem settled_externalReset (s : State) : s.externalReset.settled = s.pan.newRun (s.resets + 1) := rfl

/-- From an external reset under a fair, coherent environment, three steps settle the controller. -/
theorem run_startUp {s : State} (hc : s.CanTransmit) (hcoh : s.spi.coherent = true) :
    ∃ t, core.run 3 s.externalReset = .next t ∧
      t.settled = panelItems s.cfg (startUpCommands.flatMap wireItems) (s.pan.newRun (s.resets + 1)) := by
  obtain ⟨t, ht, ran, -⟩ := run_commands (is := startUpCommands) (by decide) (s := s.externalReset) hc
    (externalReset_commands s) rfl
  refine ⟨t, ht, ?_⟩
  rw [ran.settled hcoh, wireFrom_issueAll, ← settled_externalReset]
  rfl

/-- Settles O60: the new run finds the controller live and ready, the commands are issued to their end, and the first of
them does not see what command an earlier run left. -/
theorem startUpSettlesAnyController : Obligations.StartUpSettlesAnyController := by
  refine ⟨fun s hc hcoh => ?_, fun cfg op p cmd idx buf hf => panelItem_fresh hf op cmd idx buf⟩
  obtain ⟨t, ht, hset⟩ := run_startUp hc hcoh
  obtain ⟨p, hp, -, hcomplete⟩ := newRun_live (s.resets + 1) s.pan
  have hframe : p.frame = s.pan.frame := by rw [← newRun_frame (s.resets + 1), hp]; rfl
  rw [hp, panelItems_startUp hcomplete] at hset
  refine ⟨t, _, ht, hset, rfl, rfl, rfl, rfl, rfl, rfl, rfl, hframe, fun p' hp' => ?_⟩
  rw [hp'] at hp
  cases hp
  exact ⟨rfl, rfl, rfl, rfl⟩

/-! ## The transport does not read the stream -/

/-- Other bytes to come. -/
def State.setInput (bs : List Byte) (s : State) : State := { s with input := bs }

/-- The state a run leaves, whether executed or blocked, replaced. -/
def Run.map (f : State → State) : Run → Run
  | .done s => .done (f s)
  | .parked s => .parked (f s)
  | .refused e => .refused e

section
variable (bs : List Byte)

theorem deliver_setInput (s : State) : (s.setInput bs).deliver = s.deliver.setInput bs := by
  have hspi : (s.setInput bs).spi = s.spi := rfl
  unfold State.deliver
  rw [hspi]
  split <;> rfl

theorem deliverN_setInput (n : Nat) (s : State) : deliverN n (s.setInput bs) = (deliverN n s).setInput bs := by
  induction n generalizing s with
  | zero => rfl
  | succ n ih => simp only [deliverN, deliver_setInput, ih]

theorem envTurn_setInput (s : State) : (s.setInput bs).envTurn = s.envTurn.setInput bs := by
  have hspi : (s.setInput bs).spi = s.spi := rfl
  unfold State.envTurn
  rw [hspi]
  split
  · exact deliverN_setInput bs _ (s.setSched _)
  · split
    · exact deliverN_setInput bs _ s
    · rfl
    · rfl

variable {ready : State → Bool} (hready : ∀ s : State, ready (s.setInput bs) = ready s)
include hready

theorem deliverUntil_setInput (n : Nat) (s : State) :
    deliverUntil ready n (s.setInput bs) = (deliverUntil ready n s).setInput bs := by
  induction n generalizing s with
  | zero => rfl
  | succ n ih =>
    simp only [deliverUntil, hready, deliver_setInput, ih]
    split <;> rfl

theorem pollUntil_setInput (ns : List Nat) (s : State) :
    pollUntil ready ns (s.setInput bs) = (pollUntil ready ns s).setInput bs := by
  induction ns generalizing s with
  | nil =>
    have hspi : (s.setInput bs).spi = s.spi := rfl
    unfold pollUntil
    rw [hspi]
    split
    · exact deliverUntil_setInput bs hready _ s
    · exact deliverUntil_setInput bs hready _ s
    · rfl
  | cons n ns ih =>
    have hturn : deliverN n ((s.setInput bs).setSched ns) = (deliverN n (s.setSched ns)).setInput bs :=
      deliverN_setInput bs n (s.setSched ns)
    simp only [pollUntil, hready, hturn, ih]
    split <;> rfl

theorem poll_setInput (s : State) : (s.setInput bs).poll ready = (s.poll ready).setInput bs :=
  pollUntil_setInput bs hready s.spi.sched s

end

theorem prim_setInput (bs : List Byte) (p : Prim) (s : State) :
    (s.setInput bs).prim p = (s.prim p).map (State.setInput bs) := by
  cases p with
  | dc m => exact congrArg Run.done (envTurn_setInput bs (s.setDc m))
  | cs l => exact congrArg Run.done (envTurn_setInput bs (s.setCs l))
  | tx b =>
    have hready (u : State) : (u.setInput bs).txe = u.txe := rfl
    simp only [State.prim, poll_setInput bs hready, hready]
    split
    · exact congrArg Run.done (envTurn_setInput bs ((s.poll State.txe).pushTx b))
    · rfl
  | drain =>
    have hready (u : State) : (u.setInput bs).drained = u.drained := rfl
    simp only [State.prim, poll_setInput bs hready, hready]
    split
    · exact congrArg Run.done (envTurn_setInput bs ((s.poll State.drained).emit .drain))
    · rfl

/-- What bytes are to come does not change how a run of primitives goes (00_scope.md R17: primitives receive nothing). -/
theorem runPrims_setInput (bs : List Byte) (ps : List Prim) (s : State) :
    runPrims ps (s.setInput bs) = (runPrims ps s).map (State.setInput bs) := by
  induction ps generalizing s with
  | nil => rfl
  | cons p ps ih =>
    simp only [runPrims, prim_setInput]
    cases s.prim p with
    | done t => exact ih t
    | parked t => rfl
    | refused e => rfl

/-! ## An escape sequence that comes in parts -/

/-- Steps 2 and 3 with the cursor in the grid are executed under a fair environment, however many bytes follow. -/
theorem beginIteration_completes {s : State} (hc : s.CanDraw) (b1 : Byte) :
    ∃ v, Ran (drawCell s.row.toNat s.col.toNat (glyphPixels s.cfg blankGlyph)) ((s.receive b1).setSeq (.s3 b1)) v ∧
      v.todo = s.todo ∧
      ∀ bs, beginIteration b1 (s.setInput (b1 :: bs)) = .done (v.setInput bs) := by
  obtain ⟨hg, ht⟩ := hc
  obtain ⟨v, hv, ran, todo⟩ := runPrims_completes (drawCell s.row.toNat s.col.toNat (glyphPixels s.cfg blankGlyph))
    (s := (s.receive b1).setSeq (.s3 b1)) ht
  refine ⟨v, ran, todo, fun bs => ?_⟩
  have herase : eraseCell (s.setInput (b1 :: bs)).cfg (s.setInput (b1 :: bs)).row (s.setInput (b1 :: bs)).col =
      some (drawCell s.row.toNat s.col.toNat (glyphPixels s.cfg blankGlyph)) := eraseCell_inGrid hg s.cfg
  have hreceived : ((s.setInput (b1 :: bs)).receive b1).setSeq (.s3 b1) =
      ((s.receive b1).setSeq (.s3 b1)).setInput bs := rfl
  rw [beginIteration, herase, draw, hreceived, runPrims_setInput, hv, Run.map]

/-- At W0 with a lone escape byte, steps 2 and 3 and then the wait of the escape arm. -/
theorem step_loneEscape {s v : State} (hs : s.AtW0) (hin : s.input = [inEsc]) (hv : beginIteration inEsc s = .done v) :
    step s = .next v.enterEscape := by
  obtain ⟨hseq, htodo, -, -⟩ := hs
  have hdec : decodeStream [inEsc] = .error .escapeIncomplete := rfl
  simp only [step, fetch, hseq, htodo, hin, hdec, between, partialIteration, hv, Run.andThen]
  rfl

/-- The second byte of an escape sequence that comes at W1. -/
theorem step_second {s : State} (hseq : s.seq = .s4Wait) (htodo : s.todo = []) (hhave : s.escHave = 0) {b : Byte}
    {bs : List Byte} (hin : s.input = b :: bs) : step s = .next (s.receiveSecond b) := by
  simp only [step, fetch, between, escapeWait, hseq, htodo, hin, hhave]
  rfl

/-- The third byte of an escape sequence that comes at W2. -/
theorem step_third {s : State} (hseq : s.seq = .s4Wait) (htodo : s.todo = []) (hhave : s.escHave = 1) {b : Byte}
    {bs : List Byte} (hin : s.input = b :: bs) :
    step s = (armEscape (motionOf b) (s.receiveThird b)).outcome := by
  simp only [step, fetch, between, escapeWait, hseq, htodo, hin, hhave]
  rfl

/-- The five escape instructions are one: `motionOf` is their selection (43_terminal_state_machine.md R163 to R167). -/
theorem exec_escInstr (b2 b3 : Byte) (s : State) :
    exec (escInstr b2 b3) s =
      ((beginIteration inEsc s).andThen fun u => armEscape (motionOf b3) (receiveEscape b2 b3 u)).outcome := by
  unfold escInstr motionOf
  split_ifs <;> subst_vars <;> rfl

/-- A whole escape sequence at W0, once its steps 2 and 3 are executed. -/
theorem step_wholeEscape {s v : State} (hs : s.AtW0) {b2 b3 : Byte} {rest : List Byte}
    (hin : s.input = inEsc :: b2 :: b3 :: rest) (hv : beginIteration inEsc s = .done v) :
    step s = (armEscape (motionOf b3) (receiveEscape b2 b3 v)).outcome := by
  have hdec : decodeStream s.input = .ok (escInstr b2 b3, rest) := by rw [hin]; rfl
  rw [step_of_decodeStream hs.1 hs.2.1 hdec, exec_escInstr, hv, Run.andThen]

/-- Settles O14: steps 2 and 3 go alike in both cases, and then the same two bytes are received before the same arm. -/
theorem escapeInPartsAgreesWithWhole : Obligations.EscapeInPartsAgreesWithWhole := by
  intro s b2 b3 rest hs hc
  obtain ⟨v, ran, todo, hbegin⟩ := beginIteration_completes hc inEsc
  have htodo : v.todo = [] := todo.trans hs.2.1
  have hevents : v.events = s.events ++ [.rx 27] ++ drawEvents s.row s.col (glyphPixels s.cfg 0) := by
    rw [ran.events]
    simp [State.events, drawEvents, inEsc, blankGlyph]
  refine ⟨(v.setInput []).enterEscape, (v.setInput [b2]).enterEscape.receiveSecond b2,
    step_loneEscape hs rfl (hbegin []), ?w1, rfl, hevents,
    step_second (s := (v.setInput [b2]).enterEscape) rfl htodo rfl rfl, ?w2, rfl, ?second, ?third⟩
  case w1 => simp [State.waitPoint, State.enterEscape, State.setInput, htodo]
  case w2 => simp [State.waitPoint, State.receiveSecond, State.enterEscape, State.setInput, htodo]
  case second => exact List.reverse_cons
  case third =>
    have hparts := step_third (s := ((v.setInput [b2]).enterEscape.receiveSecond b2).setInput (b3 :: rest))
      rfl htodo rfl rfl
    have hwhole := step_wholeEscape (s := s.setInput (inEsc :: b2 :: b3 :: rest)) hs rfl (hbegin (b2 :: b3 :: rest))
    have hmeet : (((v.setInput [b2]).enterEscape.receiveSecond b2).setInput (b3 :: rest)).receiveThird b3 =
        receiveEscape b2 b3 (v.setInput (b2 :: b3 :: rest)) := rfl
    rw [hmeet] at hparts
    exact hparts.trans hwhole.symm

end Sys2Proof.Machine
end

section
/-! SUPPORT. Proofs of the statements of 20_memory.md: the controller on its path (R61), the wire commands' effect on it (R57 to
R60), the order of deliveries (R64) and the status queries (R63). -/

namespace Sys2Proof.Machine

variable {cfg : Config}

/-! ## The controller stays on its path -/

/-- Receptions and draw operations find a ready controller live and leave it so, for a draw's 48 pixels fill its cell
(42_pixel_streamer.md R146). -/
theorem Draws.keepsReady (hw : cfg.wf = true) {E : List Event} (h : Draws E) {p : Panel} (hp : p.Ready) (m : Mode) :
    ∃ q, panelItems cfg (wireFrom m E) (.live p) = .live q ∧ q.Ready := by
  induction h generalizing p m with
  | nil => exact ⟨p, rfl, hp⟩
  | rx b _ ih => exact ih hp m
  | @draw row col px E hg hpx _ ih =>
    rw [inGrid_iff] at hg
    obtain ⟨q, hq, hready, -⟩ := panelItems_drawCell (row := row.toNat) (col := col.toNat) hw hp (by omega) (by omega)
      hpx.length m
    rw [wireFrom_append, panelItems_append, drawEvents, hq]
    exact ih hready _

/-- The engine is past the start-up sequence. -/
abbrev State.InLoop (s : State) : Prop := ∀ cs, s.seq ≠ .init cs

theorem arm_inLoop {m : Motion} {s t : State} (h : Moved m s t ∨ InArm m s t) : t.InLoop := by
  rcases h with h | h <;> simp [State.InLoop, h.seq]

theorem Began.inLoop {b1 : Byte} {s t : State} (h : Began b1 s t) : t.InLoop := by simp [State.InLoop, h.seq]

theorem IterationCase.inLoop {i : Instr} {s t : State} (h : IterationCase i s t) : t.InLoop := by
  cases h with
  | began _ h => exact h.inLoop
  | inArm _ _ _ _ _ seq => simp [State.InLoop, seq]
  | moved _ _ _ _ seq => simp [State.InLoop, seq]

/-- A step without an instruction keeps its position or comes to one of the loop. -/
theorem BetweenCase.inLoop {s t : State} (h : BetweenCase s t) (hs : s.InLoop) : t.InLoop := by
  cases h with
  | resumed _ _ same => simpa only [State.InLoop, same.seq] using hs
  | started hq => exact absurd hq (hs [])
  | lit _ _ _ _ _ _ _ _ _ _ _ seq => rcases seq with ⟨seq, -⟩ | seq <;> simp [State.InLoop, seq]
  | atW0 _ _ h => subst h; simp [State.InLoop]
  | waited _ _ h => simpa only [State.InLoop, h.seq] using hs
  | escapeBegan _ _ _ began =>
    obtain ⟨u, hu, rfl | ⟨-, rfl⟩⟩ := began
    · exact hu.inLoop
    · simp [State.InLoop, State.enterEscape]
  | dispatchedEscape _ _ h => subst h; simp [State.InLoop, State.enterEscape]
  | dispatched _ _ h => exact arm_inLoop h
  | second _ _ _ _ h => subst h; exact hs
  | third _ _ _ h => exact arm_inLoop h
  | movedOn _ _ h => subst h; simp [State.InLoop, move_wrap_eq]
  | wrapped _ _ h => subst h; simp [State.InLoop, State.wrap]

theorem step_inLoop {s t : State} (hs : s.InLoop) (h : step s = .next t) : t.InLoop := by
  cases step_cases h with
  | command hq => exact absurd hq (hs _)
  | instruction _ h0 hd he => exact (exec_input_cases (decodeStream_ok hd).1 h0 he).inLoop
  | between h => exact h.inLoop hs

/-- Past the start-up sequence a step adds receptions and draw operations only. -/
theorem step_draws {s t : State} (hs : s.InLoop) (h : step s = .next t) : ∃ E, Went E s t ∧ Draws E := by
  rcases step_went h with ⟨c, cs, hq, -⟩ | ⟨E, went, draws, -⟩
  · exact absurd hq (hs _)
  · exact ⟨E, went, draws⟩

/-- Settles O55: in the loop a step adds receptions and draw operations, and these keep a ready controller ready. -/
theorem stepKeepsControllerOnPath : Obligations.StepKeepsControllerOnPath := by
  intro s t hinv hc hs ⟨p, hp, hready⟩ h
  obtain ⟨E, went, draws⟩ := step_draws hs h
  have hp : s.served = .live p := hp
  obtain ⟨q, hq, hready'⟩ := draws.keepsReady hinv.config hready s.plannedMode
  exact ⟨went.coherent.trans hc, step_inLoop hs h, q, by rw [← hq, ← hp]; exact went.served hc, hready'⟩

/-! ## A wire command and the controller -/

theorem Ran.sameTerminal {ps : List Prim} {s t : State} (h : Ran ps s t) (htodo : t.todo = s.todo) : SameTerminal s t :=
  ⟨h.cfg, h.resets, h.row, h.col, h.phase, h.escHave, h.seq, htodo, h.input, h.ip⟩

/-- What the wire command `i` leaves once it is issued to its end. -/
structure Issued (i : Instr) (s t : State) : Prop where
  same    : SameTerminal s t
  wire    : wireFrom s.dc (t.events.drop s.events.length) = wireItems i
  dc      : t.dc = modeAfter s.dc ((issuePrims i).map Prim.event)
  cs      : t.cs = levelAfter s.cs ((issuePrims i).map Prim.event)
  settled : ∀ p, s.spi.coherent = true → s.settled = .live p → t.settled = panelItems s.cfg (wireItems i) (.live p)

/-- Under a fair environment a wire command is issued to its end. -/
theorem exec_wire_issued {i : Instr} (hi : i.level = .wire) {s : State} (hc : s.CanTransmit) :
    ∃ t, exec i s = .next t ∧ Issued i s t := by
  obtain ⟨t, h, ran, htodo⟩ := exec_wire_completes hi hc
  refine ⟨t, h, ran.sameTerminal htodo, ?_, ran.dc, ran.cs, fun p hcoh hp => ?_⟩
  · rw [ran.events, List.drop_left, wireFrom_issuePrims]
  · rw [ran.settled hcoh, wireFrom_issuePrims, hp]

theorem hiByte_eq (v : Bound) : hiByte v = BitVec.ofNat 8 (v.toNat / 256) := by
  simp [hiByte, BitVec.extractLsb', Nat.shiftRight_eq_div_pow]

theorem loByte_eq (v : Bound) : loByte v = BitVec.ofNat 8 (v.toNat % 256) := by
  apply BitVec.eq_of_toNat_eq
  simp [loByte]

/-- The parameters of a window command, big-endian (30_encoding.md R89). -/
theorem dataItems_boundBytes (a b : Bound) :
    dataItems (boundBytes a b) =
      [.d (BitVec.ofNat 8 (a.toNat / 256)), .d (BitVec.ofNat 8 (a.toNat % 256)),
        .d (BitVec.ofNat 8 (b.toNat / 256)), .d (BitVec.ofNat 8 (b.toNat % 256))] := by
  simp only [dataItems, boundBytes, hiByte_eq, loByte_eq, List.map_cons, List.map_nil]

/-- A window command is complete with its fourth byte (30_encoding.md R87). -/
theorem Panel.complete_of_bounds {p : Panel} {op : Byte} (hop : op = opColAddrSet ∨ op = opRowAddrSet)
    (hcmd : p.current = some op) (hidx : p.idx = 4) : p.complete = true := by
  rcases hop with rfl | rfl <;> simp [Panel.complete, hcmd, hidx]

/-- Settles O18: the command is issued to its end, and its five items set the column range. -/
theorem columnAddressSetSetsColumnRange : Obligations.ColumnAddressSetSetsColumnRange := by
  intro s a b hc
  obtain ⟨t, h, issued⟩ := exec_wire_issued (i := .colAddrSet a b) rfl hc
  refine ⟨t, h, issued.same, issued.wire.trans (congrArg _ (dataItems_boundBytes a b)), issued.dc, issued.cs,
    fun p hcoh hp hcomplete => ?_⟩
  exact ⟨_, (issued.settled p hcoh hp).trans (panelItems_colAddrSet a b hcomplete),
    Panel.complete_of_bounds (.inl rfl) rfl rfl, rfl⟩

/-- Settles O19: the command is issued to its end, and its five items set the row range. -/
theorem rowAddressSetSetsRowRange : Obligations.RowAddressSetSetsRowRange := by
  intro s a b hc
  obtain ⟨t, h, issued⟩ := exec_wire_issued (i := .rowAddrSet a b) rfl hc
  refine ⟨t, h, issued.same, issued.wire.trans (congrArg _ (dataItems_boundBytes a b)), issued.dc, issued.cs,
    fun p hcoh hp hcomplete => ?_⟩
  exact ⟨_, (issued.settled p hcoh hp).trans (panelItems_rowAddrSet a b hcomplete),
    Panel.complete_of_bounds (.inr rfl) rfl rfl, rfl⟩

/-- Settles O21: the command is issued to its end, and its data byte is the register's value. -/
theorem memoryAccessControlSetsMac : Obligations.MemoryAccessControlSetsMac := by
  intro s b hc
  obtain ⟨t, h, issued⟩ := exec_wire_issued (i := .memAccessCtrl b) rfl hc
  exact ⟨t, h, issued.same, issued.wire, issued.dc, issued.cs, fun p hcoh hp hcomplete =>
    (issued.settled p hcoh hp).trans (panelItems_memAccessCtrl b hcomplete)⟩

/-- The commands other than `MEM_WRITE` keep the frame (20_memory.md R57 to R59). -/
theorem panelItems_keepsFrame {i : Instr} (hi : i.level = .wire) (hne : ∀ px, i ≠ .memWrite px) {p : Panel}
    (h : p.complete = true) : (panelItems cfg (wireItems i) (.live p)).frame = p.frame := by
  cases i with
  | exitSleep => exact congrArg PanelState.frame (panelItem_exitSleep h)
  | displayOn => exact congrArg PanelState.frame (panelItem_displayOn h)
  | colAddrSet a b => rw [panelItems_colAddrSet a b h]; rfl
  | rowAddrSet a b => rw [panelItems_rowAddrSet a b h]; rfl
  | memAccessCtrl b => rw [panelItems_memAccessCtrl b h]; rfl
  | memWrite px => exact absurd rfl (hne px)
  | cr => cases hi
  | del => cases hi
  | glyph b1 => cases hi
  | escUp b2 => cases hi
  | escDown b2 => cases hi
  | escRight b2 => cases hi
  | escLeft b2 => cases hi
  | escNone b2 b3 => cases hi

/-- Settles O22: the command is issued to its end, and the controller keeps its whole frame. -/
theorem otherWireCommandsStoreNothing : Obligations.OtherWireCommandsStoreNothing := by
  intro i s t p hi hne hc hcoh hp hcomplete h a
  obtain ⟨u, hu, issued⟩ := exec_wire_issued hi hc
  cases hu.symm.trans h
  rw [issued.settled p hcoh hp, panelItems_keepsFrame hi hne hcomplete]

/-! ## A memory write -/

/-- The controller after `C:2C`: the pointer stands at the window's first pixel (20_memory.md R60). -/
def Panel.beginBurst (p : Panel) : Panel := { p.latch opMemWrite with px := p.xs.toNat, py := p.ys.toNat }

theorem Panel.windowOk_of_le {p : Panel} (hx : p.xs ≤ p.xe) (hy : p.ys ≤ p.ye) (hcols : p.xe.toNat < cfg.panelCols)
    (hrows : p.ye.toNat < cfg.panelRows) : p.windowOk cfg = true := by
  simp [Panel.windowOk, hx, hy, hcols, hrows]

theorem Panel.beginBurst_atPixel {p : Panel} (hawake : p.sleep = false) (hx : p.xs ≤ p.xe) (hy : p.ys ≤ p.ye) :
    p.beginBurst.AtPixel 0 :=
  ⟨rfl, rfl, rfl, hawake, hx, hy, by simp [Panel.beginBurst, Panel.latch], by simp [Panel.beginBurst, Panel.latch]⟩

/-- A burst that fits the window is taken to its last pixel (20_memory.md R60). -/
theorem panelItems_memWrite {p : Panel} {px : List Pixel} (hcomplete : p.complete = true) (hw : p.windowOk cfg = true)
    (hat : p.beginBurst.AtPixel 0) (hfit : px.length ≤ p.width * p.height) :
    panelItems cfg (wireItems (.memWrite px)) (.live p) = .live (p.beginBurst.pixels px) := by
  rw [wireItems, panelItems, panelItem_memWrite hcomplete hw]
  exact panelItems_pixels hat px (by rw [Nat.zero_add]; exact hfit)

/-- Settles O20: the command is issued to its end, and its payload is taken pixel by pixel from the window's first one. -/
theorem memoryWriteFillsWindowRowMajor : Obligations.MemoryWriteFillsWindowRowMajor := by
  intro s px hc
  obtain ⟨t, h, issued⟩ := exec_wire_issued (i := .memWrite px) rfl hc
  have hdc := issued.dc.trans (modeAfter_issue s.dc opMemWrite (px.flatMap pixelBytes))
  have hcs := issued.cs.trans (levelAfter_issue s.cs opMemWrite (px.flatMap pixelBytes))
  refine ⟨t, h, issued.same, issued.wire.trans (congrArg _ (dataItems_flatMap_pixelBytes px)), fun hne => ?_, ?_,
    fun p hcoh hp hready hx hy hcols hrows hfit => ?_⟩
  · have hne := pixelBytes_flatMap_ne hne
    exact ⟨hdc.trans (if_neg hne), hcs.trans (if_neg hne)⟩
  · rintro rfl
    exact ⟨hdc, hcs⟩
  · have hat := Panel.beginBurst_atPixel hready.2 hx hy
    obtain ⟨hpix, hrest⟩ := pixels_frame hat px
    simp only [Nat.zero_add] at hpix hrest
    refine ⟨p.beginBurst.pixels px, (issued.settled p hcoh hp).trans
      (panelItems_memWrite hready.1 (Panel.windowOk_of_le hx hy hcols hrows) hat hfit),
      ⟨Panel.pixels_mac _ px, Panel.pixels_sleep _ px, Panel.pixels_on _ px⟩, Panel.pixels_xs _ px, Panel.pixels_xe _ px,
      Panel.pixels_ys _ px, Panel.pixels_ye _ px, Panel.pixels_fresh _ px, Panel.pixels_cmd _ px, fun k v hv => ?_, hrest⟩
    obtain ⟨hk, rfl⟩ := List.getElem?_eq_some_iff.mp hv
    exact hpix k hk

/-! ## Deliveries and the status queries -/

/-- Settles O51, by `Went.bytes`: what a step adds to the bytes transmitted is added to those delivered or queued. -/
theorem stepKeepsDeliveryOrder : Obligations.StepKeepsDeliveryOrder := by
  intro s t hb h
  obtain ⟨E, went⟩ := step_adds_events h
  exact went.bytes hb

theorem txe_iff (s : State) : s.txe = true ↔ s.spi.q.length < s.cfg.txDepth := by simp [State.txe]

theorem bsy_iff (s : State) : s.bsy = true ↔ s.spi.q ≠ [] := by simp [State.bsy]

theorem drained_iff (s : State) : s.drained = true ↔ s.txe = true ∧ s.bsy = false := by simp [State.drained]

/-- A transport that can hold a byte is drained exactly if it is empty (90_conflicts.md C4). -/
theorem drained_iff_queue {s : State} (h : 1 ≤ s.cfg.txDepth) : s.drained = true ↔ s.spi.q = [] := by
  refine ⟨drained_queue, fun hq => ?_⟩
  rw [drained_iff, txe_iff, hq]
  exact ⟨h, by simp [State.bsy, hq]⟩

/-- With the queue empty, the bytes delivered are all the bytes transmitted. -/
theorem Ran.delivered {ps : List Prim} {s t : State} (h : Ran ps s t) (hq : t.spi.q = [])
    (hb : (s.seen.reverse ++ s.spi.q).map WireItem.byte = txBytes s.events) :
    t.seen.reverse.map WireItem.byte = txBytes t.events := by
  rw [h.events, txBytes_append, ← hb, ← h.bytes, hq, List.append_nil]

/-- Settles O38: a drain that returned is executed, which leaves the queue empty. -/
theorem statusQueriesReadTheQueue : Obligations.StatusQueriesReadTheQueue := by
  intro s
  refine ⟨txe_iff s, bsy_iff s, drained_iff s, drained_iff_queue, fun t h => ?_⟩
  obtain ⟨ran, -, hempty⟩ := prim_done h
  have hq := hempty rfl
  exact ⟨hq, ran.delivered hq⟩

end Sys2Proof.Machine
end

section
/-! SUPPORT. Proofs of the statements of 30_encoding.md: decode and encode at both levels (R81 to R90), the window image of a
cell (R93), the second byte of an escape sequence (R95), and the wire grammar of a run (R96). -/

namespace Sys2Proof.Machine

/-! ## Level IN -/

/-- R83: a stream that begins with 27 and has two more bytes is the escape instruction of those. -/
theorem decodeStream_escape (b2 b3 : Byte) (rest : List Byte) :
    decodeStream (inEsc :: b2 :: b3 :: rest) = .ok (escInstr b2 b3, rest) := rfl

theorem isReservedFirstByte_eq_false_iff (b : Byte) :
    isReservedFirstByte b = false ↔ b ≠ inCr ∧ b ≠ inEsc ∧ b ≠ inDel := by
  simp [isReservedFirstByte, inCr, inEsc, inDel, and_assoc]

theorem isMotionByte_eq_false_iff (b : Byte) :
    isMotionByte b = false ↔ b ≠ inUp ∧ b ≠ inDown ∧ b ≠ inRight ∧ b ≠ inLeft := by
  simp [isMotionByte, inUp, inDown, inRight, inLeft, and_assoc]

theorem escNone_wf_iff (b2 b3 : Byte) : (Instr.escNone b2 b3).wf = true ↔ isMotionByte b3 = false := by simp [Instr.wf]

theorem glyph_wf_iff (b1 : Byte) : (Instr.glyph b1).wf = true ↔ isReservedFirstByte b1 = false := by simp [Instr.wf]

theorem escInstr_of_not_motion (b2 : Byte) {b3 : Byte} (h : isMotionByte b3 = false) :
    escInstr b2 b3 = .escNone b2 b3 := by
  obtain ⟨hup, hdown, hright, hleft⟩ := (isMotionByte_eq_false_iff b3).mp h
  rw [escInstr, if_neg hup, if_neg hdown, if_neg hright, if_neg hleft]

theorem decodeStream_glyph {b1 : Byte} (h : isReservedFirstByte b1 = false) (rest : List Byte) :
    decodeStream (b1 :: rest) = .ok (.glyph b1, rest) := by
  obtain ⟨hcr, hesc, hdel⟩ := (isReservedFirstByte_eq_false_iff b1).mp h
  simp only [decodeStream, if_neg hcr, if_neg hesc, if_neg hdel]

/-- Settles O39: the reserved bytes are tried in order, and a well-formed catch-all instruction has none of them. -/
theorem streamDecodeOfEncode : Obligations.StreamDecodeOfEncode := by
  intro i rest hlevel hwf
  cases i with
  | cr => rfl
  | del => rfl
  | escUp b2 => rfl
  | escDown b2 => rfl
  | escRight b2 => rfl
  | escLeft b2 => rfl
  | escNone b2 b3 =>
    have hself := escInstr_of_not_motion b2 ((escNone_wf_iff b2 b3).mp hwf)
    exact (decodeStream_escape b2 b3 rest).trans (by rw [hself])
  | glyph b1 => exact decodeStream_glyph ((glyph_wf_iff b1).mp hwf) rest
  | exitSleep => cases hlevel
  | displayOn => cases hlevel
  | colAddrSet a b => cases hlevel
  | rowAddrSet a b => cases hlevel
  | memWrite px => cases hlevel
  | memAccessCtrl p => cases hlevel

/-- R83, R94: every first byte but 27 is an instruction of its own. -/
theorem decodeStream_oneByte {b1 : Byte} (h : b1 ≠ inEsc) (bs : List Byte) :
    ∃ i, decodeStream (b1 :: bs) = .ok (i, bs) := by
  simp only [decodeStream, if_neg h]
  split_ifs <;> exact ⟨_, rfl⟩

/-- Settles O42, by the length rule: an escape sequence takes three bytes, everything else one. -/
theorem everyStreamDecodes : Obligations.EveryStreamDecodes := by
  intro b1 bs hlen
  by_cases hesc : b1 = 27
  · subst hesc
    match bs, hlen rfl with
    | b2 :: b3 :: rest, _ => exact ⟨escInstr b2 b3, decodeStream_escape b2 b3 rest⟩
  · rw [if_neg hesc]
    exact decodeStream_oneByte hesc bs

theorem escInstr_wf (b2 b3 : Byte) : (escInstr b2 b3).wf = true := by
  unfold escInstr
  split_ifs with hup hdown hright hleft
  · rfl
  · rfl
  · rfl
  · rfl
  · rw [escNone_wf_iff, isMotionByte_eq_false_iff]
    exact ⟨hup, hdown, hright, hleft⟩

/-- The catch-all rows are reached by no byte of another row (30_encoding.md R85). -/
theorem decodeStream_wf {bs rest : List Byte} {i : Instr} (h : decodeStream bs = .ok (i, rest)) : i.wf = true := by
  unfold decodeStream at h
  split at h
  · cases h
  · split_ifs at h with hcr hesc hdel
    · cases h; rfl
    · split at h
      · cases h; exact escInstr_wf _ _
      · cases h
    · cases h; rfl
    · cases h
      rw [glyph_wf_iff, isReservedFirstByte_eq_false_iff]
      exact ⟨hcr, hesc, hdel⟩

/-! ## Level W -/

/-- The bytes of a bound are its two halves (30_encoding.md R89). -/
@[simp] theorem boundOf_bytes (v : Bound) : boundOf (hiByte v) (loByte v) = v :=
  (BitVec.extractLsb'_append_extractLsb'_eq_extractLsb' (x := v) (start₁ := 0) (len₁ := 8) (len₂ := 8) rfl).trans
    BitVec.extractLsb'_eq_self

@[simp] theorem hiByte_boundOf (hi lo : Byte) : hiByte (boundOf hi lo) = hi := BitVec.extractLsb'_append_eq_left

@[simp] theorem loByte_boundOf (hi lo : Byte) : loByte (boundOf hi lo) = lo := BitVec.extractLsb'_append_eq_right

theorem pixelsOf_pixelBytes (px : List Pixel) : pixelsOf (px.flatMap pixelBytes) = some px := by
  induction px with
  | nil => rfl
  | cons p px ih => simp [pixelBytes, pixelsOf, ih]

theorem pixelBytes_of_pixelsOf {ps : List Byte} {px : List Pixel} (h : pixelsOf ps = some px) :
    px.flatMap pixelBytes = ps := by
  induction ps using pixelsOf.induct generalizing px with
  | case1 => cases h; rfl
  | case2 b g r rest ih =>
    obtain ⟨px', hpx, rfl⟩ := Option.map_eq_some_iff.mp h
    simp [pixelBytes, ih hpx]
  | case3 ps hnil hcons => simp [pixelsOf] at h

/-- The data bytes of a command end where the next item is no data byte (30_encoding.md R87). -/
theorem dataPrefix_dataItems {rest : List WireItem} (h : ∀ b ws, rest ≠ .d b :: ws) (ps : List Byte) :
    dataPrefix (dataItems ps ++ rest) = (ps, rest) := by
  induction ps with
  | nil =>
    match rest, h with
    | [], _ => rfl
    | ⟨.cmd, b⟩ :: ws, _ => rfl
    | ⟨.data, b⟩ :: ws, h => exact absurd rfl (h b ws)
  | cons p ps ih =>
    have hcons : dataPrefix (dataItems (p :: ps) ++ rest) =
        (p :: (dataPrefix (dataItems ps ++ rest)).1, (dataPrefix (dataItems ps ++ rest)).2) := rfl
    rw [hcons, ih]

/-- What `dataPrefix` cuts is what was there. -/
theorem dataItems_dataPrefix (ws : List WireItem) : dataItems (dataPrefix ws).1 ++ (dataPrefix ws).2 = ws := by
  induction ws with
  | nil => rfl
  | cons w ws ih =>
    match w with
    | ⟨.cmd, b⟩ => rfl
    | ⟨.data, b⟩ => exact congrArg (WireItem.d b :: ·) ih

theorem decodeWire_command {op : Byte} {ps : List Byte} {i : Instr} (hi : wireInstr op ps = .ok i) {rest : List WireItem}
    (h : ∀ b ws, rest ≠ .d b :: ws) : decodeWire (.c op :: dataItems ps ++ rest) = .ok (i, rest) := by
  simp only [List.cons_append, decodeWire, dataPrefix_dataItems h, hi]

theorem wireInstr_memWrite (px : List Pixel) : wireInstr opMemWrite (px.flatMap pixelBytes) = .ok (.memWrite px) := by
  simp [wireInstr, pixelsOf_pixelBytes, opMemWrite, opExitSleep, opDisplayOn, opColAddrSet, opRowAddrSet]

/-- R87, R88: the six opcodes with the parameters of their formats. -/
theorem wireInstr_of_wire {i : Instr} (hlevel : i.level = .wire) :
    ∃ op ps, wireItems i = .c op :: dataItems ps ∧ wireInstr op ps = .ok i := by
  cases i with
  | exitSleep => exact ⟨opExitSleep, [], rfl, rfl⟩
  | displayOn => exact ⟨opDisplayOn, [], rfl, rfl⟩
  | colAddrSet a b =>
    refine ⟨opColAddrSet, boundBytes a b, rfl, ?_⟩
    rw [show Instr.colAddrSet a b = .colAddrSet (boundOf (hiByte a) (loByte a)) (boundOf (hiByte b) (loByte b)) by simp]
    rfl
  | rowAddrSet a b =>
    refine ⟨opRowAddrSet, boundBytes a b, rfl, ?_⟩
    rw [show Instr.rowAddrSet a b = .rowAddrSet (boundOf (hiByte a) (loByte a)) (boundOf (hiByte b) (loByte b)) by simp]
    rfl
  | memWrite px => exact ⟨opMemWrite, px.flatMap pixelBytes, rfl, wireInstr_memWrite px⟩
  | memAccessCtrl p => exact ⟨opMemAccessCtrl, [p], rfl, rfl⟩
  | cr => cases hlevel
  | del => cases hlevel
  | glyph b1 => cases hlevel
  | escUp b2 => cases hlevel
  | escDown b2 => cases hlevel
  | escRight b2 => cases hlevel
  | escLeft b2 => cases hlevel
  | escNone b2 b3 => cases hlevel

/-- Settles O40: the items of a command are its opcode and its data bytes, and these end where the continuation begins. -/
theorem wireDecodeOfEncode : Obligations.WireDecodeOfEncode := by
  intro i rest hlevel hrest
  obtain ⟨op, ps, hitems, hi⟩ := wireInstr_of_wire hlevel
  rw [hitems]
  exact decodeWire_command hi hrest

/-- The other direction of `wireInstr_of_wire`. -/
theorem wireInstr_ok {op : Byte} {ps : List Byte} {i : Instr} (h : wireInstr op ps = .ok i) :
    i.level = .wire ∧ i.wf = true ∧ wireItems i = .c op :: dataItems ps := by
  unfold wireInstr at h
  split_ifs at h
  all_goals
    split at h
    on_goal 2 => cases h
    cases h
    subst_vars
    refine ⟨rfl, rfl, ?_⟩
  · rfl
  · rfl
  · simp [wireItems, boundBytes]
  · simp [wireItems, boundBytes]
  · rw [wireItems, pixelBytes_of_pixelsOf ‹pixelsOf ps = some _›]
  · rfl

theorem decodeWire_ok {ws rest : List WireItem} {i : Instr} (h : decodeWire ws = .ok (i, rest)) :
    i.level = .wire ∧ i.wf = true ∧ ws = wireItems i ++ rest := by
  unfold decodeWire at h
  split at h
  · cases h
  · cases h
  · rename_i op items
    split at h
    · rename_i hi
      cases h
      obtain ⟨hlevel, hwf, hitems⟩ := wireInstr_ok hi
      exact ⟨hlevel, hwf, by rw [hitems, List.cons_append, dataItems_dataPrefix]⟩
    · cases h

/-- Settles O41, level by level. -/
theorem encodeOfDecode : Obligations.EncodeOfDecode := by
  refine ⟨fun bs i rest h => ?_, fun ws i rest h => decodeWire_ok h⟩
  obtain ⟨hlevel, hbytes⟩ := decodeStream_ok h
  exact ⟨hlevel, decodeStream_wf h, hbytes⟩

/-! ## Words of the table, and the window of a cell -/

/-- Settles O43, by evaluating the decoder on the seven closed words. -/
theorem sampleWordsDecode : Obligations.SampleWordsDecode :=
  ⟨rfl, rfl, rfl, rfl, rfl, rfl, rfl⟩

theorem wireFrom_setAddressWindow (m : Mode) (w : CellRect) :
    wireFrom m ((setAddressWindow w).map Prim.event) =
      wireItems (.colAddrSet w.colStart w.colEnd) ++ wireItems (.rowAddrSet w.rowStart w.rowEnd) := by
  rw [setAddressWindow, List.map_append, wireFrom_append]
  exact congrArg₂ _ (wireFrom_issue _ opColAddrSet _) (wireFrom_issue _ opRowAddrSet _)

/-- Settles O25: the window is two commands, their bounds are those of the cell, and a pixel row of the grid is below 256. -/
theorem windowImageOfACell : Obligations.WindowImageOfACell := by
  intro m row col hrow hcol
  obtain ⟨hxs, hxe, hys, hye⟩ := cellRect_toNat hrow hcol
  have hhi : 8 * row / 256 = 0 ∧ (8 * row + 7) / 256 = 0 := by omega
  have hlo : 8 * row % 256 = 8 * row ∧ (8 * row + 7) % 256 = 8 * row + 7 := by omega
  simp only [wireFrom_setAddressWindow, wireItems, dataItems_boundBytes, hxs, hxe, hys, hye, hhi, hlo]
  rfl

/-! ## The wire grammar of a run -/

/-- A wire view that is a sequence of the engine's commands (30_encoding.md R96). -/
def EngineCommands (ws : List WireItem) : Prop :=
  ∃ cmds : List Instr, (∀ c ∈ cmds, isEngineCommand c = true) ∧ ws = cmds.flatMap wireItems

theorem wireGrammar_iff (m : Mode) (s : State) : s.WireGrammar m ↔
    EngineCommands (wireFrom m s.plannedEvents) ∧ ∀ cs, s.seq = .init cs → ∀ c ∈ cs, isEngineCommand c = true := Iff.rfl

theorem EngineCommands.nil : EngineCommands [] := ⟨[], by simp, rfl⟩

theorem EngineCommands.append {ws vs : List WireItem} (h : EngineCommands ws) (k : EngineCommands vs) :
    EngineCommands (ws ++ vs) := by
  obtain ⟨cmds, hcmds, rfl⟩ := h
  obtain ⟨cmds', hcmds', rfl⟩ := k
  exact ⟨cmds ++ cmds', List.forall_mem_append.mpr ⟨hcmds, hcmds'⟩, List.flatMap_append.symm⟩

theorem engineCommands_command {c : Instr} (h : isEngineCommand c = true) : EngineCommands (wireItems c) :=
  ⟨[c], by simpa using h, by simp⟩

/-- The window of a cell of the grid is one the engine may set. -/
theorem isEngineCommand_window {row col : Nat} (hr : row < 30) (hc : col < 53) :
    isEngineCommand (.colAddrSet (cellRect row col).colStart (cellRect row col).colEnd) = true ∧
      isEngineCommand (.rowAddrSet (cellRect row col).rowStart (cellRect row col).rowEnd) = true := by
  obtain ⟨hxs, hxe, hys, hye⟩ := cellRect_toNat hr hc
  simp only [isEngineCommand, hxs, hxe, hys, hye, Bool.and_eq_true, decide_eq_true_eq, and_true]
  omega

theorem DrawPixels.isEngineCommand {px : List Pixel} (h : DrawPixels px) : isEngineCommand (.memWrite px) = true := by
  simp only [Machine.isEngineCommand, h.length, h.colors, beq_self_eq_true, Bool.and_self]

/-- A draw operation into a cell of the grid is three of the engine's commands. -/
theorem engineCommands_draw {row col : Int} {px : List Pixel} (hg : inGrid row col = true) (hp : DrawPixels px)
    (m : Mode) : EngineCommands (wireFrom m (drawEvents row col px)) := by
  rw [inGrid_iff] at hg
  obtain ⟨hcols, hrows⟩ := isEngineCommand_window (row := row.toNat) (col := col.toNat) (by omega) (by omega)
  rw [drawEvents, wireFrom_drawCell]
  exact (engineCommands_command hcols).append
    ((engineCommands_command hrows).append (engineCommands_command hp.isEngineCommand))

theorem Draws.engineCommands {E : List Event} (h : Draws E) (m : Mode) : EngineCommands (wireFrom m E) := by
  induction h generalizing m with
  | nil => exact .nil
  | rx b _ ih => exact ih m
  | draw hg hp _ ih =>
    rw [wireFrom_append]
    exact (engineCommands_draw hg hp m).append (ih _)

/-- A step without an instruction comes to the start-up sequence from the same place of it only. -/
theorem BetweenCase.seq_of_init {s t : State} {is : List Instr} (h : BetweenCase s t) (ht : t.seq = .init is) :
    s.seq = .init is := by
  by_cases hs : s.InLoop
  · exact absurd ht (h.inLoop hs is)
  obtain ⟨cs, hcs⟩ : ∃ cs, s.seq = .init cs := by simpa [State.InLoop] using hs
  cases h
  case resumed same => rw [← same.seq, ht]
  case waited env => rw [← env.seq, ht]
  case started h => subst h; cases ht
  all_goals simp_all only [reduceCtorEq]

/-- The start-up commands left after a step are the last of those left before. -/
theorem step_commands_left {s t : State} {is : List Instr} (h : step s = .next t) (ht : t.seq = .init is) :
    ∃ cs, s.seq = .init cs ∧ is <:+ cs := by
  cases step_cases h with
  | @command c cs hs h0 he =>
    cases hc : c.level with
    | input => exact absurd ht ((exec_input_cases hc (s := s.setSeq (.init cs)) h0 he).inLoop is)
    | wire =>
      obtain ⟨-, same⟩ := exec_wire_cases hc (s := s.setSeq (.init cs)) h0 he
      obtain rfl : cs = is := by simpa using same.seq.symm.trans ht
      exact ⟨c :: cs, hs, List.suffix_cons c cs⟩
  | instruction _ h0 hd he => exact absurd ht ((exec_input_cases (decodeStream_ok hd).1 h0 he).inLoop is)
  | between h => exact ⟨is, h.seq_of_init ht, List.suffix_refl is⟩

/-- What a step adds to the wire view is a sequence of the engine's commands, if the start-up commands left are. -/
theorem step_engineCommands {s t : State} (hcmds : ∀ cs, s.seq = .init cs → ∀ c ∈ cs, isEngineCommand c = true)
    (h : step s = .next t) : ∃ E, Went E s t ∧ ∀ m, EngineCommands (wireFrom m E) := by
  rcases step_went h with ⟨c, cs, hs, -, went, -⟩ | ⟨E, went, draws, -⟩
  · refine ⟨_, went, fun m => ?_⟩
    rw [wireFrom_issuePrims]
    exact engineCommands_command (hcmds _ hs c (by simp))
  · exact ⟨E, went, draws.engineCommands⟩

/-- Settles O54: a step adds a start-up command or draw operations to the wire view, and adds no start-up command. -/
theorem stepKeepsWireGrammar : Obligations.StepKeepsWireGrammar := by
  intro m s t _ hdc hgrammar h
  obtain ⟨hwire, hcmds⟩ := (wireGrammar_iff m s).mp hgrammar
  obtain ⟨E, went, hE⟩ := step_engineCommands hcmds h
  refine ⟨went.dc m hdc, (wireGrammar_iff m t).mpr ⟨?_, fun is hs c hc => ?_⟩⟩
  · rw [went.planned, wireFrom_append]
    exact hwire.append (hE _)
  · obtain ⟨cs, hcs, hsuffix⟩ := step_commands_left h hs
    exact hcmds cs hcs c (hsuffix.mem hc)

/-! ## The second byte of an escape sequence -/

/-- `s` with the events `tr` before its own. -/
def State.after (tr : List Event) (s : State) : State := { s with trace := s.trace ++ tr }

/-- `f` changes nothing that DisplayProtocol's primitives and the environment read, and commutes with what they write. -/
structure Unread (f : State → State) : Prop where
  cfg      : ∀ s, (f s).cfg = s.cfg
  spi      : ∀ s, (f s).spi = s.spi
  deliver  : ∀ s, (f s).deliver = f s.deliver
  setSched : ∀ ns s, (f s).setSched ns = f (s.setSched ns)
  setDc    : ∀ m s, (f s).setDc m = f (s.setDc m)
  setCs    : ∀ l s, (f s).setCs l = f (s.setCs l)
  emit     : ∀ e s, (f s).emit e = f (s.emit e)
  pushTx   : ∀ b s, (f s).pushTx b = f (s.pushTx b)
  setTodo  : ∀ ps s, (f s).setTodo ps = f (s.setTodo ps)

/-- Nobody reads the trace (assumption 11). -/
theorem unread_after (tr : List Event) : Unread (State.after tr) where
  cfg _ := rfl
  spi _ := rfl
  deliver s := by
    have hspi : (s.after tr).spi = s.spi := rfl
    unfold State.deliver
    rw [hspi]
    split <;> rfl
  setSched _ _ := rfl
  setDc _ _ := rfl
  setCs _ _ := rfl
  emit _ _ := rfl
  pushTx _ _ := rfl
  setTodo _ _ := rfl

namespace Unread

variable {f : State → State} (h : Unread f)
include h

theorem deliverN (n : Nat) (s : State) : deliverN n (f s) = f (deliverN n s) := by
  induction n generalizing s with
  | zero => rfl
  | succ n ih => simp only [Machine.deliverN, h.deliver, ih]

theorem envTurn (s : State) : (f s).envTurn = f s.envTurn := by
  simp only [State.envTurn, h.spi, h.setSched, h.deliverN]
  split
  · rfl
  · split <;> rfl

theorem txe (s : State) : (f s).txe = s.txe := by simp only [State.txe, h.spi, h.cfg]

theorem drained (s : State) : (f s).drained = s.drained := by simp only [State.drained, State.bsy, h.txe, h.spi]

theorem deliverUntil {ready : State → Bool} (hready : ∀ s, ready (f s) = ready s) (n : Nat) (s : State) :
    deliverUntil ready n (f s) = f (deliverUntil ready n s) := by
  induction n generalizing s with
  | zero => rfl
  | succ n ih => simp only [Machine.deliverUntil, hready, h.deliver, ih, apply_ite f]

theorem pollUntil {ready : State → Bool} (hready : ∀ s, ready (f s) = ready s) (ns : List Nat) (s : State) :
    pollUntil ready ns (f s) = f (pollUntil ready ns s) := by
  induction ns generalizing s with
  | nil =>
    simp only [Machine.pollUntil, h.spi, h.deliverUntil hready]
    split <;> rfl
  | cons n ns ih => simp only [Machine.pollUntil, hready, h.setSched, h.deliverN, ih, apply_ite f]

theorem poll {ready : State → Bool} (hready : ∀ s, ready (f s) = ready s) (s : State) :
    (f s).poll ready = f (s.poll ready) := by
  rw [State.poll, h.spi]
  exact h.pollUntil hready s.spi.sched s

theorem prim (p : Prim) (s : State) : (f s).prim p = (s.prim p).map f := by
  cases p with
  | dc m => simp only [State.prim, Run.map, h.setDc, h.envTurn]
  | cs l => simp only [State.prim, Run.map, h.setCs, h.envTurn]
  | tx b =>
    simp only [State.prim, h.poll h.txe, h.txe, h.pushTx, h.envTurn]
    split <;> rfl
  | drain =>
    simp only [State.prim, h.poll h.drained, h.drained, h.emit, h.envTurn]
    split <;> rfl

theorem runPrims (ps : List Prim) (s : State) : runPrims ps (f s) = (runPrims ps s).map f := by
  induction ps generalizing s with
  | nil => rfl
  | cons p ps ih =>
    simp only [Machine.runPrims, h.prim]
    cases s.prim p with
    | done t => exact ih t
    | parked t => exact congrArg Run.parked (h.setTodo (p :: ps) t)
    | refused e => rfl

end Unread

theorem draw_after (tr : List Event) (op : Option (List Prim)) (s : State) :
    draw op (s.after tr) = (draw op s).map (State.after tr) := by
  cases op with
  | none => rfl
  | some ps => exact (unread_after tr).runPrims ps s

/-- How an escape arm goes does not depend on the events before it. -/
theorem armEscape_after (tr : List Event) (m : Motion) (s : State) :
    armEscape m (s.after tr) = (armEscape m s).map (State.after tr) := by
  have hdraw : draw (eraseCell (s.after tr).cfg (s.after tr).row (s.after tr).col) ((s.after tr).setSeq (.s4 m)) =
      (draw (eraseCell s.cfg s.row s.col) (s.setSeq (.s4 m))).map (State.after tr) :=
    draw_after tr (eraseCell s.cfg s.row s.col) (s.setSeq (.s4 m))
  have hmove (t : State) : ((t.after tr).move m).wrap = ((t.move m).wrap).after tr := by cases m <;> rfl
  unfold armEscape drawThenMove
  rw [hdraw]
  cases draw (eraseCell s.cfg s.row s.col) (s.setSeq (.s4 m)) with
  | done t => exact congrArg Run.done (hmove t)
  | parked t => rfl
  | refused e => rfl

theorem Run.next_of_map {f : State → State} {r : Run} {t : State} (h : (r.map f).outcome = .next t) :
    ∃ u, r.outcome = .next u ∧ t = f u := by
  cases r with
  | done u => cases h; exact ⟨u, rfl, rfl⟩
  | parked u => cases h; exact ⟨u, rfl, rfl⟩
  | refused e => cases h

/-- What the receives of an escape sequence leave, with the events from the second byte's reception back cut off. -/
def escapeReceived (b3 : Byte) (s : State) : State := { receiveEscape 0 b3 s with trace := [.rx b3] }

/-- The second byte is discarded (43_terminal_state_machine.md R162): it is in the trace only. -/
theorem receiveEscape_eq (b2 b3 : Byte) (s : State) :
    receiveEscape b2 b3 s = (escapeReceived b3 s).after (.rx b2 :: s.trace) := rfl

theorem beginIteration_trace {b1 : Byte} {s v : State} (h : beginIteration b1 s = .done v) :
    ∃ before, v.trace = before ++ s.trace := by
  rw [beginIteration] at h
  cases hop : eraseCell s.cfg s.row s.col with
  | none => rw [hop] at h; cases h
  | some ps =>
    rw [hop] at h
    refine ⟨(ps.map Prim.event).reverse ++ [.rx b1], ?_⟩
    rw [(runPrims_done h).1.trace, List.append_assoc]
    rfl

/-- The second bytes of an escape instruction share its arm and its third byte. -/
theorem exec_escape {mk : Byte → Instr}
    (h : mk = .escUp ∨ mk = .escDown ∨ mk = .escRight ∨ mk = .escLeft ∨ ∃ b3, mk = fun b => .escNone b b3) :
    ∃ m b3, ∀ b2 s, exec (mk b2) s =
      ((beginIteration inEsc s).andThen fun u => armEscape m (receiveEscape b2 b3 u)).outcome := by
  rcases h with rfl | rfl | rfl | rfl | ⟨b3, rfl⟩
  · exact ⟨.up, inUp, fun _ _ => rfl⟩
  · exact ⟨.down, inDown, fun _ _ => rfl⟩
  · exact ⟨.right, inRight, fun _ _ => rfl⟩
  · exact ⟨.left, inLeft, fun _ _ => rfl⟩
  · exact ⟨.stay, b3, fun _ _ => rfl⟩

/-- Settles O13: both sequences are blocked alike in step 3, or the same arm runs from states that differ in the trace, in the
second byte's reception, and the arm does not read the trace. -/
theorem escapeSecondByteIsIgnored : Obligations.EscapeSecondByteIsIgnored := by
  intro s t t' b2 b2' mk hmk ht ht'
  obtain ⟨m, b3, hexec⟩ := exec_escape hmk
  rw [hexec] at ht ht'
  cases hbegin : beginIteration inEsc s with
  | refused e => rw [hbegin] at ht; cases ht
  | parked v =>
    rw [hbegin] at ht ht'
    cases ht
    cases ht'
    exact ⟨rfl, .inl rfl⟩
  | done v =>
    obtain ⟨before, hbefore⟩ := beginIteration_trace hbegin
    simp only [hbegin, Run.andThen, receiveEscape_eq, armEscape_after] at ht ht'
    obtain ⟨u, hu, rfl⟩ := Run.next_of_map ht
    obtain ⟨u', hu', rfl⟩ := Run.next_of_map ht'
    obtain rfl : u = u' := by simpa using hu.symm.trans hu'
    refine ⟨rfl, .inr ⟨u.trace, before, ?_, ?_⟩⟩ <;> exact congrArg (u.trace ++ _ :: ·) hbefore

end Sys2Proof.Machine
end

section
/-! SUPPORT. Proofs of the statements of 40_glyph_font.md: the construction of a glyph (R112, R117), the build-time error
(R113), and that no step changes the font (R115). -/

namespace Sys2Proof.Machine

/-! ## The construction of a glyph -/

/-- A bit of a disjunction of bytes is set if one of them has it set. -/
theorem getLsbD_foldl_or (f : Nat → Byte) (rs : List Nat) (acc : Byte) (i : Nat) :
    (rs.foldl (fun acc r => acc ||| f r) acc).getLsbD i = (acc.getLsbD i || rs.any fun r => (f r).getLsbD i) := by
  induction rs generalizing acc with
  | nil => simp
  | cons r rs ih => simp only [List.foldl_cons, ih, BitVec.getLsbD_or, List.any_cons, Bool.or_assoc]

/-- The summand of a row has no bit but that row's. -/
theorem getLsbD_rowMark (on : Bool) (r : Nat) {i : Nat} (hi : i < 8) :
    (if on then (1 : Byte) <<< r else 0).getLsbD i = (on && r == i) := by
  cases on with
  | false => simp
  | true =>
    have hbit : ((1 : Byte) <<< r).getLsbD i = (decide (r < 8) && decide (r = i)) := BitVec.getLsbD_twoPow r i
    have hr : r = i → r < 8 := by omega
    rw [if_pos rfl, hbit, Bool.eq_iff_iff]
    simpa using hr

/-- Of the eight summands of a column, the one of row `r` decides bit `r`. -/
theorem getLsbD_artColumn (art : GlyphArt) (c : Nat) {r : Nat} (hr : r < 8) :
    (artColumn art c).getLsbD r = artOn art r c := by
  simp only [artColumn, getLsbD_foldl_or, getLsbD_rowMark _ _ hr]
  rw [Bool.eq_iff_iff]
  simp [hr]

theorem buildGlyph_eq_some_iff {art : GlyphArt} {bytes : List Byte} :
    buildGlyph art = some bytes ↔ artShape art = true ∧ (List.range 6).map (artColumn art) = bytes := by
  simp [buildGlyph]

/-- Settles O29: byte `c` of a built glyph is its art's column `c`. -/
theorem builtGlyphReproducesItsArt : Obligations.BuiltGlyphReproducesItsArt := by
  intro art bytes h
  obtain ⟨-, rfl⟩ := buildGlyph_eq_some_iff.mp h
  refine ⟨by simp, fun r hr c hc => ?_⟩
  have hbyte : ((List.range 6).map (artColumn art)).getD c 0 = artColumn art c := by simp [hc]
  rw [hbyte, getLsbD_artColumn art c hr]

/-! ## The build-time error -/

theorem artShape_iff (art : GlyphArt) : artShape art = true ↔ art.length = 8 ∧ ∀ line ∈ art, line.length = 6 := by
  simp [artShape]

theorem isSome_buildGlyph (art : GlyphArt) : (buildGlyph art).isSome = artShape art := by
  rw [buildGlyph]
  cases artShape art <;> rfl

/-- The arts are all built, or none is. -/
theorem isSome_mapM_buildGlyph (arts : List GlyphArt) :
    (arts.mapM buildGlyph).isSome = arts.all artShape := by
  induction arts with
  | nil => rfl
  | cons art arts ih =>
    rw [List.mapM_cons, List.all_cons, ← ih, ← isSome_buildGlyph]
    cases buildGlyph art <;> cases arts.mapM buildGlyph <;> rfl

theorem isSome_buildFont (arts : List GlyphArt) :
    (buildFont arts).isSome = true ↔ arts.length = 32 ∧ ∀ art ∈ arts, artShape art = true := by
  rw [buildFont]
  split_ifs with h
  · simp [isSome_mapM_buildGlyph, h]
  · simp [h]

/-- Settles O30: the build fails at the count of the arts or at the shape of one of them, and nowhere else. -/
theorem fontBuildFailsUnlessEightBySix : Obligations.FontBuildFailsUnlessEightBySix := by
  intro arts
  simp only [isSome_buildFont, artShape_iff]

/-! ## The font in a run -/

/-- Settles O49, by `Went.cfg`: a step adds events, and nothing that adds events writes the configuration. -/
theorem stepKeepsConfiguration : Obligations.StepKeepsConfiguration := by
  intro s t h
  obtain ⟨E, went⟩ := step_adds_events h
  exact went.cfg

end Sys2Proof.Machine
end

section
/-! SUPPORT. Proofs of the statements of 41_display_protocol.md: `sendCommand` and `sendData` (R123, R124), the commands
without parameters (R128, R129), the start-up sequence (R127), and chip-select framing (R135). -/

namespace Sys2Proof.Machine

/-! ## Chip-select framing -/

/-- An event puts a condition of its own on where it stands; the rest is framed from the level it leaves. -/
theorem framedFrom_cons (l : Level) (afterDrain : Bool) (e : Event) : ∃ ok, ∀ t,
    framedFrom l afterDrain (e :: t) = (ok && framedFrom (levelAfter l [e]) (decide (e = .drain)) t) := by
  cases e with
  | cs l' =>
    cases l' with
    | low => exact ⟨!afterDrain, fun _ => rfl⟩
    | high => exact ⟨afterDrain, fun _ => rfl⟩
  | tx b => exact ⟨!afterDrain && l == .low, fun _ => rfl⟩
  | drain => exact ⟨!afterDrain, fun _ => rfl⟩
  | dc m => exact ⟨!afterDrain, fun _ => rfl⟩
  | rx b => exact ⟨!afterDrain, fun _ => rfl⟩

/-- A framed trace ends outside a drain, so what follows is framed on its own, from the level the trace leaves. -/
theorem framedFrom_append {l : Level} {afterDrain : Bool} {a : List Event} (h : framedFrom l afterDrain a = true)
    (b : List Event) : framedFrom l afterDrain (a ++ b) = framedFrom (levelAfter l a) false b := by
  induction a generalizing l afterDrain with
  | nil =>
    obtain rfl : afterDrain = false := by simpa [framedFrom] using h
    rfl
  | cons e a ih =>
    obtain ⟨ok, hcons⟩ := framedFrom_cons l afterDrain e
    rw [hcons, Bool.and_eq_true] at h
    obtain ⟨hok, h⟩ := h
    rw [List.cons_append, hcons, hok, Bool.true_and, ih h, ← levelAfter_append, List.singleton_append]

/-- Events that are framed whatever the chip-select level before them: they set it themselves before they transmit. -/
def Framed (E : List Event) : Prop := ∀ l, framedFrom l false E = true

theorem Framed.nil : Framed [] := fun _ => rfl

theorem Framed.append {E F : List Event} (h : Framed E) (k : Framed F) : Framed (E ++ F) := fun l => by
  rw [framedFrom_append (h l), k]

theorem framed_sendCommand (op : Byte) : Framed ((sendCommand op).map Prim.event) := fun _ => rfl

theorem framed_sendData (b : Byte) : Framed ((sendData b).map Prim.event) := fun _ => rfl

theorem framed_sendAll (bs : List Byte) : Framed ((sendAll bs).map Prim.event) := by
  induction bs with
  | nil => exact .nil
  | cons b bs ih => exact (framed_sendData b).append ih

theorem framed_issue (op : Byte) (bs : List Byte) : Framed ((issue op bs).map Prim.event) := by
  rw [issue, List.map_append]
  exact (framed_sendCommand op).append (framed_sendAll bs)

theorem framed_drawEvents (row col : Int) (px : List Pixel) : Framed (drawEvents row col px) := by
  rw [drawEvents, drawCell_issues, List.map_append, List.map_append]
  exact (framed_issue _ _).append ((framed_issue _ _).append (framed_issue _ _))

theorem Draws.framed {E : List Event} (h : Draws E) : Framed E := by
  induction h with
  | nil => exact .nil
  | rx b _ ih => exact ih
  | draw _ _ _ ih => exact (framed_drawEvents _ _ _).append ih

/-- What a step adds to the events done and planned is framed by itself: a start-up command, or receptions and draws. -/
theorem step_framed {s t : State} (h : step s = .next t) : ∃ E, Went E s t ∧ Framed E := by
  rcases step_went h with ⟨c, -, -, hc, went, -⟩ | ⟨E, went, draws, -⟩
  · obtain ⟨op, bs, hissue⟩ := issuePrims_eq_issue hc
    exact ⟨_, went, by rw [hissue]; exact framed_issue op bs⟩
  · exact ⟨E, went, draws.framed⟩

/-- Settles O53: what is done and planned before the step is framed, and so is, from any level, what the step adds. -/
theorem stepKeepsChipSelectFraming : Obligations.StepKeepsChipSelectFraming := by
  intro l s t hcs hframed h
  obtain ⟨E, went, hE⟩ := step_framed h
  exact ⟨went.cs l hcs, by rw [went.planned, framedFrom_append hframed, hE]⟩

/-! ## Where a run of primitives blocks -/

/-- The line primitives wait for nothing (41_display_protocol.md R121, R122). -/
theorem runPrims_dc (m : Mode) (ps : List Prim) (s : State) :
    runPrims (.dc m :: ps) s = runPrims ps (s.setDc m).envTurn := rfl

theorem runPrims_cs (l : Level) (ps : List Prim) (s : State) :
    runPrims (.cs l :: ps) s = runPrims ps (s.setCs l).envTurn := rfl

/-- A blocked run stands at its first primitive or is blocked in the rest. -/
theorem runPrims_cons_parked {p : Prim} {ps : List Prim} {s t : State} (h : runPrims (p :: ps) s = .parked t) :
    t.todo = p :: ps ∨ ∃ u, runPrims ps u = .parked t := by
  rw [runPrims] at h
  split at h
  · exact .inr ⟨_, h⟩
  · cases h
    exact .inl rfl
  · cases h

theorem runPrims_cons_done {p : Prim} {ps : List Prim} {s t : State} (h : runPrims (p :: ps) s = .done t) :
    ∃ u, s.prim p = .done u ∧ runPrims ps u = .done t := by
  rw [runPrims] at h
  split at h
  · exact ⟨_, by assumption, h⟩
  · cases h
  · cases h

/-! ## `sendCommand` -/

/-- `sendCommand` waits at its transmit and at its drain only. -/
theorem sendCommand_parked {op : Byte} {s t : State} (h : runPrims (sendCommand op) s = .parked t) :
    t.todo = [.tx op, .drain, .cs .high] ∨ t.todo = [.drain, .cs .high] := by
  rw [sendCommand, runPrims_dc, runPrims_cs] at h
  rcases runPrims_cons_parked h with h | ⟨u, h⟩
  · exact .inl h
  rcases runPrims_cons_parked h with h | ⟨v, h⟩
  · exact .inr h
  · cases h

/-- The environment only takes from the queue. -/
theorem EnvOnly.queue_nil {s t : State} (h : EnvOnly s t) (hq : s.spi.q = []) : t.spi.q = [] :=
  List.length_eq_zero_iff.mp (by simpa [hq] using h.room)

/-- The drain leaves the queue empty, and raising chip-select hands nothing over. -/
theorem sendCommand_queue {op : Byte} {s t : State} (h : runPrims (sendCommand op) s = .done t) : t.spi.q = [] := by
  rw [sendCommand, runPrims_dc, runPrims_cs] at h
  obtain ⟨u, -, h⟩ := runPrims_cons_done h
  obtain ⟨v, hv, h⟩ := runPrims_cons_done h
  obtain ⟨-, -, hempty⟩ := prim_done hv
  cases h
  exact (envOnly_envTurn (v.setCs .high)).queue_nil (hempty rfl)

/-- With nothing queued there is nothing to settle. -/
theorem settled_of_queue_nil {s : State} (hq : s.spi.q = []) : s.settled = s.pan := by
  rw [State.settled, hq, panelItems]

/-- What `sendCommand(op)` leaves on return (41_display_protocol.md R123). -/
structure CommandSent (op : Byte) (s t : State) : Prop where
  same   : SameTerminal s t
  events : t.events = s.events ++ [.dc .cmd, .cs .low, .tx op, .drain, .cs .high]
  dc     : t.dc = .cmd
  cs     : t.cs = .high
  queue  : t.spi.q = []
  panel  : s.spi.coherent = true → t.pan = panelItem s.cfg (.c op) s.settled

/-- Under a fair environment `sendCommand` returns. -/
theorem sendCommand_completes (op : Byte) {s : State} (hc : s.CanTransmit) :
    ∃ t, runPrims (sendCommand op) s = .done t ∧ CommandSent op s t := by
  obtain ⟨t, h, ran, htodo⟩ := runPrims_completes (sendCommand op) hc
  have hq := sendCommand_queue h
  exact ⟨t, h, ran.sameTerminal htodo, ran.events, ran.dc, ran.cs, hq, fun hcoh =>
    (settled_of_queue_nil hq).symm.trans (ran.settled hcoh)⟩

/-- Settles O23: the run is executed under fairness, its drain empties the queue, and the line primitives never block. -/
theorem sendCommandDrainsAndRaisesChipSelect : Obligations.SendCommandDrainsAndRaisesChipSelect := by
  refine fun s op => ⟨fun hc => ?_, fun t => sendCommand_parked⟩
  obtain ⟨t, h, sent⟩ := sendCommand_completes op hc
  exact ⟨t, h, sent.events, sent.dc, sent.cs, sent.queue, sent.same⟩

/-! ## The commands without parameters -/

/-- A wire command without parameters is `sendCommand` of its opcode, nothing more (30_encoding.md R87). -/
theorem exec_noParameters {i : Instr} {op : Byte} (hi : i.level = .wire) (hprims : issuePrims i = sendCommand op)
    {s : State} (hc : s.CanTransmit) : ∃ t, exec i s = .next t ∧ CommandSent op s t := by
  obtain ⟨t, h, sent⟩ := sendCommand_completes op hc
  exact ⟨t, by rw [exec_wire hi, hprims, h, Run.outcome], sent⟩

/-- Settles O16: the queue is empty on return, so the controller has taken the opcode. -/
theorem exitSleepWakesController : Obligations.ExitSleepWakesController := by
  intro s hc
  obtain ⟨t, h, sent⟩ := exec_noParameters (i := .exitSleep) (op := opExitSleep) rfl rfl hc
  refine ⟨t, h, sent.same, sent.events, sent.dc, sent.cs, sent.queue, fun p hcoh hp hcomplete => ?_⟩
  rw [sent.panel hcoh, hp, panelItem_exitSleep hcomplete]
  rfl

/-- Settles O17: the queue is empty on return, so the controller has taken the opcode. -/
theorem displayOnTurnsDisplayOn : Obligations.DisplayOnTurnsDisplayOn := by
  intro s hc
  obtain ⟨t, h, sent⟩ := exec_noParameters (i := .displayOn) (op := opDisplayOn) rfl rfl hc
  refine ⟨t, h, sent.same, sent.events, sent.dc, sent.cs, sent.queue, fun p hcoh hp hcomplete => ?_⟩
  rw [sent.panel hcoh, hp, panelItem_displayOn hcomplete]
  rfl

/-! ## `sendData` -/

/-- `sendData` waits at its transmit only. -/
theorem sendData_parked {b : Byte} {s t : State} (h : runPrims (sendData b) s = .parked t) : t.todo = [.tx b] := by
  rw [sendData, runPrims_dc, runPrims_cs] at h
  rcases runPrims_cons_parked h with h | ⟨u, h⟩
  · exact h
  · cases h

/-- An environment that delivers only when the engine waits leaves a primitive's state as it is. -/
theorem envTurn_lazy {s : State} (hp : s.spi.pace = .lazy) (hs : s.spi.sched = []) : s.envTurn = s := by
  rw [State.envTurn, hs]
  simp only [hp]

/-- With nothing queued such an environment has nothing to deliver in a wait either. -/
theorem poll_lazy {s : State} (ready : State → Bool) (hp : s.spi.pace = .lazy) (hs : s.spi.sched = [])
    (hq : s.spi.q = []) : s.poll ready = s := by
  rw [State.poll, hs, pollUntil]
  simp only [hp, hq, List.length_nil, deliverUntil]

/-- With nothing queued and such an environment, a byte that is handed over stays queued: nothing drains it. -/
theorem runPrims_sendData_lazy {s : State} (b : Byte) (hd : 1 ≤ s.cfg.txDepth) (hp : s.spi.pace = .lazy)
    (hs : s.spi.sched = []) (hq : s.spi.q = []) :
    runPrims (sendData b) s = .done (((s.setDc .data).setCs .low).pushTx b) := by
  have hready : ((s.setDc .data).setCs .low).txe = true := by
    rw [txe_iff, State.setCs_spi, State.setDc_spi, hq]
    exact hd
  have hpoll : ((s.setDc .data).setCs .low).poll State.txe = (s.setDc .data).setCs .low := poll_lazy _ hp hs hq
  rw [sendData, runPrims_dc, envTurn_lazy (s := s.setDc .data) hp hs, runPrims_cs,
    envTurn_lazy (s := (s.setDc .data).setCs .low) hp hs]
  simp only [runPrims, State.prim, hpoll, hready, if_true]
  rw [envTurn_lazy (s := ((s.setDc .data).setCs .low).pushTx b) hp hs]

/-- Settles O24: the run is executed under fairness, its byte may stay queued, and the line primitives never block. -/
theorem sendDataDoesNotDrain : Obligations.SendDataDoesNotDrain := by
  refine fun s b => ⟨fun hc hroom => ?_, fun t => sendData_parked⟩
  obtain ⟨t, h, ran, htodo⟩ := runPrims_completes (sendData b) hc
  refine ⟨t, h, ran.events, ran.dc, ran.cs, by rw [ran.cfg]; exact ran.queue hroom, ran.sameTerminal htodo,
    fun hp hs hq => ?_⟩
  rw [runPrims_sendData_lazy b hc.2 hp hs hq] at h
  cases h
  simp [hq]

/-! ## The start-up sequence -/

/-- Once the start-up commands are behind the engine, it enters the loop. -/
theorem step_enterLoop {s : State} (hs : s.seq = .init []) (h0 : s.todo = []) : step s = .next s.enterLoop := by
  simp only [step, fetch, between, hs, h0, Run.outcome]

/-- Settles O33: the three commands are issued to their end, and they settle a controller that can take a command. -/
theorem startUpSendsInitializationSequence : Obligations.StartUpSendsInitializationSequence := by
  intro s hs h0 hc
  obtain ⟨t, h, ran, htodo⟩ := run_commands (is := startUpCommands) (by decide) hc hs h0
  refine ⟨t, t.enterLoop, h, ran.dc, ran.cs, ran.events, step_enterLoop ran.seq htodo, ⟨rfl, htodo, rfl, rfl⟩, rfl, rfl,
    rfl, fun p hcoh hp hcomplete => ?_⟩
  have hset := ran.settled hcoh
  rw [wireFrom_issueAll] at hset
  exact ⟨_, hset.trans ((congrArg _ hp).trans (panelItems_startUp hcomplete)), rfl, rfl, rfl, rfl⟩

end Sys2Proof.Machine
end

section
/-! SUPPORT. Proofs of the statements of 42_pixel_streamer.md: the pixels of a glyph (R142, R143), the erase (R145), the draw
outside the grid (R148) and the picture after an iteration (R147). -/

namespace Sys2Proof.Machine

variable {cfg : Config}

/-! ## The pixels of a glyph -/

/-- Settles O27, by the order of the pixels (`glyphPixels_get`): a pixel's colour is read from its font bit. -/
theorem glyphPixelsReproduceTheFont : Obligations.GlyphPixelsReproduceTheFont :=
  fun cfg g => ⟨glyphPixels_length cfg g, fun _ hr _ hc => glyphPixels_get cfg g hr hc⟩

theorem glyphPixels_blank (hw : cfg.wf = true) : glyphPixels cfg blankGlyph = List.replicate 48 colorOff := by
  refine List.eq_replicate_iff.mpr ⟨glyphPixels_length cfg blankGlyph, fun v hv => ?_⟩
  simp only [glyphPixels, List.mem_flatMap, List.mem_map, List.mem_range] at hv
  obtain ⟨r, -, c, hc, rfl⟩ := hv
  exact glyphPixel_blank hw hc r

/-- Settles O28: the erase is a draw of the blank glyph, whose pixels are all black. -/
theorem eraseSendsBlackPixels : Obligations.EraseSendsBlackPixels := by
  intro cfg row col hw hg
  rw [eraseCell_inGrid hg, glyphPixels_blank hw]
  rfl

/-! ## Outside the grid -/

/-- The erase of step 3 has no meaning outside the grid (42_pixel_streamer.md R148). -/
theorem beginIteration_outside {s : State} (hg : inGrid s.row s.col = false) (b1 : Byte) :
    beginIteration b1 s = .refused .drawOutsideGrid := by
  have herase : eraseCell s.cfg s.row s.col = none := by simp [eraseCell, drawGlyphCell, hg]
  rw [beginIteration, herase, draw]

/-- Every input instruction begins with steps 2 and 3 (43_terminal_state_machine.md R158, R159). -/
theorem exec_input_begins {i : Instr} (hi : i.level = .input) :
    ∃ (b1 : Byte) (arm : State → Run), ∀ s, exec i s = ((beginIteration b1 s).andThen arm).outcome := by
  cases i with
  | cr => exact ⟨_, _, fun _ => rfl⟩
  | del => exact ⟨_, _, fun _ => rfl⟩
  | glyph b1 => exact ⟨_, _, fun _ => rfl⟩
  | escUp b2 => exact ⟨_, _, fun _ => rfl⟩
  | escDown b2 => exact ⟨_, _, fun _ => rfl⟩
  | escRight b2 => exact ⟨_, _, fun _ => rfl⟩
  | escLeft b2 => exact ⟨_, _, fun _ => rfl⟩
  | escNone b2 b3 => exact ⟨_, _, fun _ => rfl⟩
  | exitSleep => cases hi
  | displayOn => cases hi
  | colAddrSet a b => cases hi
  | rowAddrSet a b => cases hi
  | memWrite px => cases hi
  | memAccessCtrl b => cases hi

/-- Settles O15: the iteration is refused at the erase of its step 3. -/
theorem drawOutsideGridIsRefused : Obligations.DrawOutsideGridIsRefused := by
  intro i s hi hg
  obtain ⟨b1, arm, hexec⟩ := exec_input_begins hi
  rw [hexec, beginIteration_outside hg, Run.andThen, Run.outcome]

/-! ## The picture of a cell -/

/-- The controller was `p` and is `q` once `colour` has been drawn into the cell: ready for a command, its settings kept, the
cell and no other byte of the frame painted, the window the cell (42_pixel_streamer.md R147). -/
structure CellPainted (row col : Int) (colour : Nat → Nat → Pixel) (p q : Panel) : Prop where
  ready    : q.Ready
  settings : p.SameSettings q
  shows    : CellShows p.frame q.frame row col colour
  xs       : (q.xs.toNat : Int) = 6 * col
  xe       : (q.xe.toNat : Int) = 6 * col + 5
  ys       : (q.ys.toNat : Int) = 8 * row
  ye       : (q.ye.toNat : Int) = 8 * row + 7

/-- Only the colours of the cell's 48 pixels matter. -/
theorem CellShows.congr {before after : List Host.Cell} {row col : Int} {colour colour' : Nat → Nat → Pixel}
    (h : CellShows before after row col colour) (heq : ∀ r < 8, ∀ c < 6, colour r c = colour' r c) :
    CellShows before after row col colour' := by
  obtain ⟨hin, hout⟩ := h
  exact ⟨fun r hr c hc => by rw [hin r hr c hc, heq r hr c hc], hout⟩

/-- A second drawing into the same cell covers the first. -/
theorem CellShows.trans {before between after : List Host.Cell} {row col : Int} {colour colour' : Nat → Nat → Pixel}
    (h : CellShows before between row col colour) (h' : CellShows between after row col colour') :
    CellShows before after row col colour' :=
  ⟨h'.1, fun a ha => (h'.2 a ha).trans (h.2 a ha)⟩

theorem CellPainted.trans {row col : Int} {colour colour' : Nat → Nat → Pixel} {p q r : Panel}
    (h : CellPainted row col colour p q) (h' : CellPainted row col colour' q r) : CellPainted row col colour' p r := by
  obtain ⟨hmac, hsleep, hon⟩ := h.settings
  obtain ⟨hmac', hsleep', hon'⟩ := h'.settings
  exact { h' with
    settings := ⟨hmac'.trans hmac, hsleep'.trans hsleep, hon'.trans hon⟩
    shows := h.shows.trans h'.shows }

/-- Drawing a glyph into a cell of the grid paints it (`panelItems_drawCell`, in signed coordinates). -/
theorem draw_paints {row col : Int} {p : Panel} (hw : cfg.wf = true) (hg : inGrid row col = true) (hp : p.Ready)
    (g : GlyphIndex) (m : Mode) :
    ∃ q, panelItems cfg (wireFrom m (drawEvents row col (glyphPixels cfg g))) (.live p) = .live q ∧
      CellPainted row col (glyphPixel cfg g) p q := by
  rw [inGrid_iff] at hg
  have hr : row.toNat < 30 := by omega
  have hc : col.toNat < 53 := by omega
  obtain ⟨q, hq, ready, settings, hxs, hxe, hys, hye, hin, hout⟩ :=
    panelItems_drawCell hw hp hr hc (glyphPixels_length cfg g) m
  obtain ⟨exs, exe, eys, eye⟩ := cellRect_toNat hr hc
  exact ⟨q, hq, {
    ready
    settings
    shows := ⟨fun r hr c hc => (hin r hr c hc).trans (glyphPixels_get cfg g hr hc), hout⟩
    xs := by rw [hxs, exs]; omega
    xe := by rw [hxe, exe]; omega
    ys := by rw [hys, eys]; omega
    ye := by rw [hye, eye]; omega }⟩

/-! ## The picture after an iteration -/

/-- Under coherence an iteration paints its cell with the glyph its arm draws, over the blank of step 3. -/
theorem Iterated.paints {b1 : Byte} {bs : List Byte} {g : GlyphIndex} {m : Motion} {s t : State} {p : Panel}
    (h : Iterated b1 bs (glyphPixels s.cfg g) m s t) (hg : inGrid s.row s.col = true) (hp : s.PictureOk p) :
    ∃ q, t.settled = .live q ∧ CellPainted s.row s.col (glyphPixel s.cfg g) p q := by
  obtain ⟨hcoh, hw, hlive, hready⟩ := hp
  obtain ⟨u, hu, erased⟩ := draw_paints hw hg hready blankGlyph s.dc
  obtain ⟨q, hq, drawn⟩ := draw_paints hw hg erased.ready g .data
  exact ⟨q, by rw [h.settled hcoh, hlive, hu, hq], erased.trans drawn⟩

/-- Bits 4:0 of the byte are its value modulo 32 (30_encoding.md R86). -/
theorem glyphIndex_eq (b1 : Byte) : glyphIndex b1 = BitVec.ofNat 5 (b1.toNat % 32) := by
  apply BitVec.eq_of_toNat_eq
  simp [glyphIndex]

/-- Settles O11: the glyph is drawn over the blank cell. -/
theorem glyphPaintsItsCell : Obligations.GlyphPaintsItsCell := by
  intro s b1 p hs hp
  obtain ⟨t, hexec, iterated, -⟩ := execGlyph_completes hs b1
  obtain ⟨q, hq, painted⟩ := iterated.paints hs.1 hp
  rw [glyphIndex_eq] at painted
  exact ⟨t, q, hexec, hq, painted.ready, painted.settings, painted.shows, painted.xs, painted.xe, painted.ys, painted.ye⟩

/-- The arm of every input instruction but `GLYPH` draws the blank glyph (43_terminal_state_machine.md R161 to R168). -/
theorem exec_input_blanks {i : Instr} (hi : i.level = .input) (hne : ∀ b, i ≠ .glyph b) {s : State} (hs : s.CanDraw) :
    ∃ b1 bs m t, exec i s = .next t ∧ Iterated b1 bs (glyphPixels s.cfg blankGlyph) m s t := by
  cases i with
  | cr =>
    obtain ⟨t, h, ht, -⟩ := execCr_completes hs
    exact ⟨_, _, _, t, h, ht⟩
  | del =>
    obtain ⟨t, h, ht, -⟩ := execDel_completes hs
    exact ⟨_, _, _, t, h, ht⟩
  | glyph b1 => exact absurd rfl (hne b1)
  | escUp b2 => exact ⟨_, _, _, escape_iterates hs b2 inUp .up⟩
  | escDown b2 => exact ⟨_, _, _, escape_iterates hs b2 inDown .down⟩
  | escRight b2 => exact ⟨_, _, _, escape_iterates hs b2 inRight .right⟩
  | escLeft b2 => exact ⟨_, _, _, escape_iterates hs b2 inLeft .left⟩
  | escNone b2 b3 => exact ⟨_, _, _, escape_iterates hs b2 b3 .stay⟩
  | exitSleep => cases hi
  | displayOn => cases hi
  | colAddrSet a b => cases hi
  | rowAddrSet a b => cases hi
  | memWrite px => cases hi
  | memAccessCtrl b => cases hi

/-- Settles O12: the arm draws the blank glyph again, and its pixels are black. -/
theorem otherInputInstructionsBlankTheirCell : Obligations.OtherInputInstructionsBlankTheirCell := by
  intro i s p hi hne hs hp
  obtain ⟨b1, bs, m, t, hexec, iterated⟩ := exec_input_blanks hi hne hs
  obtain ⟨q, hq, painted⟩ := iterated.paints hs.1 hp
  have hblack : ∀ r < 8, ∀ c < 6, glyphPixel s.cfg blankGlyph r c = colorOff :=
    fun r _ c hc => glyphPixel_blank hp.2.1 hc r
  exact ⟨t, q, hexec, hq, painted.ready, painted.settings, painted.shows.congr hblack, painted.xs, painted.xe, painted.ys,
    painted.ye⟩

end Sys2Proof.Machine
end

section
/-! SUPPORT. Proofs of the statements of 43_terminal_state_machine.md: one iteration from W0 (R161 to R169, R178), the cursor's
table (R173), the highlight (R157), the wrap-around (R170), and the rest a finite stream comes to (R158, R174). -/

namespace Sys2Proof.Machine

/-! ## One iteration, whichever the input instruction -/

/-- The motion of an instruction's arm (43_terminal_state_machine.md R161 to R169). A wire command moves nothing. -/
def armMotion : Instr → Motion
  | .cr => .newline
  | .escUp _ => .up
  | .escDown _ => .down
  | .escRight _ => .right
  | .escLeft _ => .left
  | .escNone _ _ => .stay
  | .del => .left
  | .glyph _ => .right
  | .exitSleep => .stay
  | .displayOn => .stay
  | .colAddrSet _ _ => .stay
  | .rowAddrSet _ _ => .stay
  | .memWrite _ => .stay
  | .memAccessCtrl _ => .stay

/-- The motion and step 5 together are the table of 43_terminal_state_machine.md R173. -/
theorem finalCursor_armMotion (i : Instr) {row col : Int} (hg : inGrid row col = true) :
    finalCursor (armMotion i) row col = nextCursor i row col := by
  cases i with
  | cr => exact finalCursor_newline row col
  | escUp _ => exact finalCursor_up hg
  | escDown _ => exact finalCursor_down hg
  | escRight _ => exact finalCursor_right hg
  | escLeft _ => exact finalCursor_left hg
  | escNone _ _ => exact finalCursor_stay hg
  | del => exact finalCursor_left hg
  | glyph _ => exact finalCursor_right hg
  | exitSleep => exact finalCursor_stay hg
  | displayOn => exact finalCursor_stay hg
  | colAddrSet _ _ => exact finalCursor_stay hg
  | rowAddrSet _ _ => exact finalCursor_stay hg
  | memWrite _ => exact finalCursor_stay hg
  | memAccessCtrl _ => exact finalCursor_stay hg

/-- Under a fair environment an input instruction is executed: its own bytes, its arm's pixels, its arm's motion. -/
theorem exec_input_completes {i : Instr} (hi : i.level = .input) {s : State} (hs : s.CanDraw) :
    ∃ t b1 bs, exec i s = .next t ∧ streamBytes i = b1 :: bs ∧
      Iterated b1 bs (armPixels s.cfg i) (armMotion i) s t := by
  have escape {b2 b3 : Byte} (hb : streamBytes i = [inEsc, b2, b3])
      (hexec : exec i s =
        ((beginIteration inEsc s).andThen fun u => armEscape (armMotion i) (receiveEscape b2 b3 u)).outcome)
      (hpx : armPixels s.cfg i = glyphPixels s.cfg blankGlyph) : ∃ t b1 bs, exec i s = .next t ∧
        streamBytes i = b1 :: bs ∧ Iterated b1 bs (armPixels s.cfg i) (armMotion i) s t := by
    obtain ⟨t, h, ht⟩ := escape_iterates hs b2 b3 (armMotion i)
    exact ⟨t, _, _, hexec.trans h, hb, hpx ▸ ht⟩
  cases i with
  | cr =>
    obtain ⟨t, h, ht, -⟩ := execCr_completes hs
    exact ⟨t, _, _, h, rfl, ht⟩
  | del =>
    obtain ⟨t, h, ht, -⟩ := execDel_completes hs
    exact ⟨t, _, _, h, rfl, ht⟩
  | glyph b1 =>
    obtain ⟨t, h, ht, -⟩ := execGlyph_completes hs b1
    rw [glyphIndex_eq] at ht
    exact ⟨t, _, _, h, rfl, ht⟩
  | escUp b2 => exact escape rfl rfl rfl
  | escDown b2 => exact escape rfl rfl rfl
  | escRight b2 => exact escape rfl rfl rfl
  | escLeft b2 => exact escape rfl rfl rfl
  | escNone b2 b3 => exact escape rfl rfl rfl
  | exitSleep => cases hi
  | displayOn => cases hi
  | colAddrSet a b => cases hi
  | rowAddrSet a b => cases hi
  | memWrite px => cases hi
  | memAccessCtrl b => cases hi

theorem Iterated.iterationEnds {b1 : Byte} {bs : List Byte} {px : List Pixel} {m : Motion} {s t : State}
    (h : Iterated b1 bs px m s t) (h0 : s.todo = []) (hp : t.PhaseNormal) : IterationEnds s t (bs.length + 1) where
  top := ⟨h.seq, h.todo.trans h0, hp⟩
  dc := h.dc
  cs := h.cs
  input := h.input
  ip := h.ip
  cfg := h.cfg
  resets := h.resets
  pace := h.pace
  coherent := h.coherent

theorem Iterated.endsWithDraw {b1 : Byte} {bs : List Byte} {px : List Pixel} {m : Motion} {s t : State}
    (h : Iterated b1 bs px m s t) : EndsWithDraw s t px :=
  ⟨[.rx b1] ++ drawEvents s.row s.col (glyphPixels s.cfg blankGlyph) ++ bs.map .rx, by simp [h.events]⟩

/-- At W0 with a well-formed instruction's bytes next, the step is one whole iteration: the cursor by the table, the bytes
consumed, the arm's draw last. -/
theorem step_iterates {i : Instr} (hi : i.level = .input) (hwf : i.wf = true) {s : State} (hw : s.AtW0) (hc : s.CanDraw)
    {rest : List Byte} (hin : s.input = streamBytes i ++ rest) :
    step s = exec i s ∧ ∃ t, exec i s = .next t ∧ t.row = (nextCursor i s.row s.col).1 ∧
      t.col = (nextCursor i s.row s.col).2 ∧ IterationEnds s t (streamBytes i).length ∧
      EndsWithDraw s t (armPixels s.cfg i) := by
  obtain ⟨hseq, htodo, hphase⟩ := hw
  obtain ⟨t, b1, bs, h, hbytes, iterated⟩ := exec_input_completes hi hc
  have hdec : decodeStream s.input = .ok (i, rest) := by rw [hin, streamDecodeOfEncode i rest hi hwf]
  have hnormal : t.PhaseNormal :=
    ((exec_input_cases hi htodo h).engineOk hc.1 hphase).phaseNormal (by simp [iterated.seq])
  have hcursor := iterated.cursor
  rw [finalCursor_armMotion i hc.1] at hcursor
  refine ⟨step_of_decodeStream hseq htodo hdec, t, h, congrArg Prod.fst hcursor, congrArg Prod.snd hcursor, ?_,
    iterated.endsWithDraw⟩
  rw [hbytes, List.length_cons]
  exact iterated.iterationEnds htodo hnormal

/-! ## The eight input instructions -/

/-- `ESC_RIGHT` and `GLYPH` in the two column cases of the grid (43_terminal_state_machine.md R165). -/
theorem rightward_cases {row col row' col' : Int}
    (hrow : row' = (if col < 52 then (row, col + 1) else (emod (row + 1) 30, 0)).1)
    (hcol : col' = (if col < 52 then (row, col + 1) else (emod (row + 1) 30, 0)).2) :
    (col < 52 → row' = row ∧ col' = col + 1) ∧ (col = 52 → row' = emod (row + 1) 30 ∧ col' = 0) := by
  refine ⟨fun h => ?_, fun h => ?_⟩
  · rw [if_pos h] at hrow hcol
    exact ⟨hrow, hcol⟩
  · rw [if_neg (by omega)] at hrow hcol
    exact ⟨hrow, hcol⟩

/-- `ESC_LEFT` and `DEL` in the two column cases of the grid (43_terminal_state_machine.md R166). -/
theorem leftward_cases {row col row' col' : Int}
    (hrow : row' = (if 0 < col then (row, col - 1) else (emod (row - 1) 30, 52)).1)
    (hcol : col' = (if 0 < col then (row, col - 1) else (emod (row - 1) 30, 52)).2) :
    (0 < col → row' = row ∧ col' = col - 1) ∧ (col = 0 → row' = emod (row - 1) 30 ∧ col' = 52) := by
  refine ⟨fun h => ?_, fun h => ?_⟩
  · rw [if_pos h] at hrow hcol
    exact ⟨hrow, hcol⟩
  · rw [if_neg (by omega)] at hrow hcol
    exact ⟨hrow, hcol⟩

/-- Settles O1: the iteration of `CR`, its line of the table read off. -/
theorem carriageReturnErasesAndStartsNextRow : Obligations.CarriageReturnErasesAndStartsNextRow :=
  fun _ _ hw hc hin => step_iterates (i := .cr) rfl rfl hw hc hin

/-- Settles O2: the iteration of `DEL`, its line of the table in the two column cases. -/
theorem deleteErasesAndMovesLeft : Obligations.DeleteErasesAndMovesLeft := by
  intro s rest hw hc hin
  obtain ⟨hstep, t, h, hrow, hcol, hends, hdraw⟩ := step_iterates (i := .del) rfl rfl hw hc hin
  obtain ⟨hinner, hedge⟩ := leftward_cases hrow hcol
  exact ⟨hstep, t, h, hinner, hedge, hends, hdraw⟩

/-- Settles O3: a byte of no other row is a well-formed `GLYPH`, whose line of the table has two column cases. -/
theorem glyphDrawsAndMovesRight : Obligations.GlyphDrawsAndMovesRight := by
  intro s b1 rest hw hc hcr hesc hdel hin
  have hwf := (glyph_wf_iff b1).mpr ((isReservedFirstByte_eq_false_iff b1).mpr ⟨hcr, hesc, hdel⟩)
  obtain ⟨hstep, t, h, hrow, hcol, hends, hdraw⟩ := step_iterates (i := .glyph b1) rfl hwf hw hc hin
  obtain ⟨hinner, hedge⟩ := rightward_cases hrow hcol
  exact ⟨hstep, t, h, hinner, hedge, hends, hdraw⟩

/-- Settles O4: the iteration of `ESC_UP`, its line of the table read off. -/
theorem escapeUpMovesUp : Obligations.EscapeUpMovesUp :=
  fun _ b2 _ hw hc hin => step_iterates (i := .escUp b2) rfl rfl hw hc hin

/-- Settles O5: the iteration of `ESC_DOWN`, its line of the table read off. -/
theorem escapeDownMovesDown : Obligations.EscapeDownMovesDown :=
  fun _ b2 _ hw hc hin => step_iterates (i := .escDown b2) rfl rfl hw hc hin

/-- Settles O6: the iteration of `ESC_RIGHT`, its line of the table in the two column cases. -/
theorem escapeRightMovesRight : Obligations.EscapeRightMovesRight := by
  intro s b2 rest hw hc hin
  obtain ⟨hstep, t, h, hrow, hcol, hends, hdraw⟩ := step_iterates (i := .escRight b2) rfl rfl hw hc hin
  obtain ⟨hinner, hedge⟩ := rightward_cases hrow hcol
  exact ⟨hstep, t, h, hinner, hedge, hends, hdraw⟩

/-- Settles O7: the iteration of `ESC_LEFT`, its line of the table in the two column cases. -/
theorem escapeLeftMovesLeft : Obligations.EscapeLeftMovesLeft := by
  intro s b2 rest hw hc hin
  obtain ⟨hstep, t, h, hrow, hcol, hends, hdraw⟩ := step_iterates (i := .escLeft b2) rfl rfl hw hc hin
  obtain ⟨hinner, hedge⟩ := leftward_cases hrow hcol
  exact ⟨hstep, t, h, hinner, hedge, hends, hdraw⟩

/-- Settles O8: a third byte that is no motion byte makes a well-formed `ESC_NONE`, whose line of the table moves nothing. -/
theorem escapeNoneKeepsCursor : Obligations.EscapeNoneKeepsCursor := by
  intro s b2 b3 rest hw hc hup hdown hright hleft hin
  have hwf := (escNone_wf_iff b2 b3).mpr ((isMotionByte_eq_false_iff b3).mpr ⟨hup, hdown, hright, hleft⟩)
  exact step_iterates (i := .escNone b2 b3) rfl hwf hw hc hin

/-- Settles O9: the events of an iteration, with the instruction's own bytes and pixels. -/
theorem iterationEmitsItsTrace : Obligations.IterationEmitsItsTrace := by
  intro i s hi hc
  obtain ⟨t, b1, bs, h, hbytes, iterated⟩ := exec_input_completes hi hc
  exact ⟨t, b1, bs, h, hbytes, iterated.events⟩

/-! ## The cursor on p = 53·row + col -/

/-- One column on, with the carry, is one position on in the grid's 1590 (43_terminal_state_machine.md R173). -/
theorem rightward_linear {row col : Int} {c : Int × Int} (hg : inGrid row col = true)
    (hc : c = if col < 52 then (row, col + 1) else (emod (row + 1) 30, 0)) :
    53 * c.1 + c.2 = emod (53 * row + col + 1) 1590 := by
  rw [inGrid_iff] at hg
  subst hc
  split <;> simp only [emod] <;> omega

/-- One column back, with the borrow, is one position back. -/
theorem leftward_linear {row col : Int} {c : Int × Int} (hg : inGrid row col = true)
    (hc : c = if 0 < col then (row, col - 1) else (emod (row - 1) 30, 52)) :
    53 * c.1 + c.2 = emod (53 * row + col - 1) 1590 := by
  rw [inGrid_iff] at hg
  subst hc
  split <;> simp only [emod] <;> omega

/-- Settles O10: the cursor is the table's, and the four lines with a carry are linear. -/
theorem cursorFollowsNetTable : Obligations.CursorFollowsNetTable := by
  intro i s hi hc
  obtain ⟨t, b1, bs, h, -, iterated⟩ := exec_input_completes hi hc
  have hcursor := iterated.cursor
  rw [finalCursor_armMotion i hc.1] at hcursor
  refine ⟨t, h, hcursor, fun b hb => ?_, fun b hb => ?_⟩
  · exact rightward_linear (c := (t.row, t.col)) hc.1 (by rcases hb with rfl | rfl <;> exact hcursor)
  · exact leftward_linear (c := (t.row, t.col)) hc.1 (by rcases hb with rfl | rfl <;> exact hcursor)

/-! ## The highlight -/

/-- At the top of the loop the highlight is drawn to its end under a fair environment, and the engine goes to W0. -/
theorem step_highlight {s : State} (hs : s.AtLoopTop) (hc : s.CanDraw) :
    ∃ u, step s = .next (u.setSeq .s2) ∧
      Ran (drawCell s.row.toNat s.col.toNat cursorPixels) (s.setSeq .s1Draw) u ∧ u.todo = [] := by
  obtain ⟨hseq, htodo, -⟩ := hs
  obtain ⟨u, hu, ran, hrest⟩ :=
    draw_completes (drawCell s.row.toNat s.col.toNat cursorPixels) (s := s.setSeq .s1Draw) hc.2
  refine ⟨u, ?_, ran, hrest.trans htodo⟩
  simp only [step, fetch, between, highlight, hseq, htodo, drawCursorCell_inGrid hc.1, hu, Run.andThen, Run.outcome]

/-- Drawing the cursor block into a cell of the grid makes it red (`panelItems_drawCell`, in signed coordinates). -/
theorem highlight_paints {cfg : Config} {row col : Int} {p : Panel} (hw : cfg.wf = true) (hg : inGrid row col = true)
    (hp : p.Ready) (m : Mode) :
    ∃ q, panelItems cfg (wireFrom m (drawEvents row col cursorPixels)) (.live p) = .live q ∧ q.Ready ∧
      p.SameSettings q ∧ CellShows p.frame q.frame row col fun _ _ => colorCursor := by
  rw [inGrid_iff] at hg
  obtain ⟨q, hq, hready, hsettings, -, -, -, -, hcell, hframe⟩ :=
    panelItems_drawCell hw hp (row := row.toNat) (col := col.toNat) (by omega) (by omega) cursorPixels_length m
  exact ⟨q, hq, hready, hsettings, fun r hr c hc => (hcell r hr c hc).trans (cursorPixels_get (by omega)), hframe⟩

/-- Settles O32: the highlight is executed, and a controller that can take it shows it. -/
theorem highlightPaintsCursorCell : Obligations.HighlightPaintsCursorCell := by
  intro s hs hc
  obtain ⟨u, hstep, ran, htodo⟩ := step_highlight hs hc
  have hpixels : cursorPixels ≠ [] := by decide
  refine ⟨u.setSeq .s2, hstep, ⟨rfl, htodo, ran.phase.trans hs.2.2.1, ran.escHave.trans hs.2.2.2⟩, ran.row, ran.col,
    ran.input, ran.ip, ran.cfg, ran.dc.trans (modeAfter_drawCell _ _ _ hpixels),
    ran.cs.trans (levelAfter_drawCell _ _ _ hpixels), ran.events, fun p ⟨hcoh, hw, hlive, hready⟩ => ?_⟩
  obtain ⟨q, hq, painted⟩ := highlight_paints hw hc.1 hready s.dc
  exact ⟨q, (ran.settled hcoh).trans ((congrArg _ hlive).trans hq), painted⟩

/-! ## Step 5 -/

theorem step_wrap {s : State} (hseq : s.seq = .s5) (htodo : s.todo = []) : step s = .next s.wrap := by
  simp only [step, fetch, between, hseq, htodo, Run.outcome]

theorem wrap_row (s : State) :
    s.wrap.row = emod (if 53 ≤ s.col then s.row + 1 else if s.col < 0 then s.row - 1 else s.row) 30 := rfl

/-- Settles O34: the carry in its three column ranges. -/
theorem wrapCarriesOnceThenReduces : Obligations.WrapCarriesOnceThenReduces := by
  intro s
  refine ⟨rfl, fun hover => ?_, fun hunder => ?_, fun hlo hhi => ?_, fun hseq htodo => ⟨step_wrap hseq htodo, rfl⟩⟩
  · rw [wrap_row, if_pos hover]
  · rw [wrap_row, if_neg (not_le.mpr (hunder.trans (by decide))), if_pos hunder]
  · rw [wrap_row, if_neg (not_le.mpr hhi), if_neg (not_lt.mpr hlo)]

/-! ## Waiting with no byte there -/

theorem waitPoint_isSome {s : State} (h : s.waitPoint.isSome = true) :
    s.todo = [] ∧ (s.seq = .s2 ∨ s.seq = .s4Wait) := by
  unfold State.waitPoint at h
  split at h
  · exact ⟨by assumption, .inl (by assumption)⟩
  · exact ⟨by assumption, .inr (by assumption)⟩
  · cases h

/-- At each of the three wait points a step with no byte there is the environment's (43_terminal_state_machine.md R158). -/
theorem step_waiting {s : State} (hw : s.waitPoint.isSome = true) (hin : s.input = []) :
    step s = .next s.idleTurn := by
  have hdec : decodeStream [] = .error .noInput := rfl
  obtain ⟨htodo, hseq | hseq⟩ := waitPoint_isSome hw
  · simp only [step, fetch, between, partialIteration, hseq, htodo, hin, hdec, Run.outcome]
  · simp only [step, fetch, between, escapeWait, hseq, htodo, hin, Run.outcome]

/-- Settles O36: the environment touches no field of the engine. -/
theorem waitingEngineEmitsNothing : Obligations.WaitingEngineEmitsNothing :=
  fun s hw hin => ⟨s.idleTurn, step_waiting hw hin, (envOnly_idleTurn s).engine⟩

/-- A schedule that is used up and an empty queue leave the environment nothing to do. -/
theorem idleTurn_of_idle {s : State} (hsched : s.spi.sched = []) (hq : s.spi.q = []) : s.idleTurn = s := by
  simp only [State.idleTurn, hsched, hq, List.length_nil, deliverN]
  split <;> rfl

theorem quiescent_iff (s : State) :
    s.quiescent = true ↔ s.waitPoint.isSome = true ∧ s.input = [] ∧ s.spi.q = [] := by
  simp [State.quiescent, and_assoc]

/-- Settles O59, by induction on the number of steps: each is the environment's idle turn. -/
theorem quiescentStateIsARest : Obligations.QuiescentStateIsARest := by
  intro s hs hsched k
  obtain ⟨hw, hin, hq⟩ := (quiescent_iff s).mp hs
  have hstep : step s = .next s := by rw [step_waiting hw hin, idleTurn_of_idle hsched hq]
  induction k with
  | zero => rfl
  | succ k ih => rw [run_next hstep, ih]

/-! ## Coming to rest -/

/-- Some number of steps from `s` answers a quiescent state at wait point `w` with the cursor `c`. -/
def RestsAt (s : State) (w : WaitPoint) (c : Int × Int) : Prop :=
  ∃ k t, core.run k s = .next t ∧ t.quiescent = true ∧ t.waitPoint = some w ∧ (t.row, t.col) = c

theorem RestsAt.of_step {s u : State} {w : WaitPoint} {c : Int × Int} (h : step s = .next u) (hu : RestsAt u w c) :
    RestsAt s w c := by
  obtain ⟨k, t, hrun, hrest⟩ := hu
  exact ⟨k + 1, t, (run_next h).trans hrun, hrest⟩

theorem EnvOnly.waitPoint {s t : State} (h : EnvOnly s t) : t.waitPoint = s.waitPoint := by
  simp only [State.waitPoint, h.todo, h.seq, h.escHave]

/-- With its schedule used up a fair environment delivers everything in one idle turn (20_memory.md R64). -/
theorem idleTurn_empties {s : State} (hf : s.Fair) (hsched : s.spi.sched = []) : s.idleTurn.spi.q = [] := by
  have hturn : s.idleTurn = deliverN s.spi.q.length s := by
    simp only [State.idleTurn, hsched]
    split
    · rfl
    · rfl
    · contradiction
  rw [← List.length_eq_zero_iff, hturn, deliverN_length, Nat.sub_self]

theorem idleTurn_sched {s : State} {n : Nat} {ns : List Nat} (hsched : s.spi.sched = n :: ns) :
    s.idleTurn.spi.sched = ns := by
  simp only [State.idleTurn, hsched, deliverN_sched, State.setSched_spi_sched]

/-- A waiting engine with no byte to come rests where it is: its steps use up the environment's schedule, and one more
empties the queue. -/
theorem restsAt_of_waiting {s : State} {w : WaitPoint} (hf : s.Fair) (hw : s.waitPoint = some w) (hin : s.input = []) :
    RestsAt s w (s.row, s.col) := by
  generalize hsched : s.spi.sched = ns
  induction ns generalizing s with
  | nil =>
    have env := envOnly_idleTurn s
    have hw' := env.waitPoint.trans hw
    refine ⟨1, s.idleTurn, run_next (step_waiting (by simp [hw]) hin), ?_, hw', by rw [env.row, env.col]⟩
    exact (quiescent_iff _).mpr ⟨by simp [hw'], env.input.trans hin, idleTurn_empties hf hsched⟩
  | cons n ns ih =>
    have env := envOnly_idleTurn s
    have hrest := ih (s := s.idleTurn) (fun hp => hf (env.pace.symm.trans hp)) (env.waitPoint.trans hw)
      (env.input.trans hin) (idleTurn_sched hsched)
    rw [env.row, env.col] at hrest
    exact .of_step (step_waiting (by simp [hw]) hin) hrest

/-! ## A stream that ends inside an escape sequence -/

/-- At W1 with at most one byte to come, the engine rests at W1 or, that byte received, at W2. -/
theorem restsAt_of_escapeWait {s : State} {tl : List Byte} (hf : s.Fair) (hseq : s.seq = .s4Wait) (htodo : s.todo = [])
    (hhave : s.escHave = 0) (hin : s.input = tl) (hlen : tl.length ≤ 1) :
    RestsAt s (endsAt 2 tl) (s.row, s.col) := by
  match tl, hlen with
  | [], _ => exact restsAt_of_waiting hf (by simp only [State.waitPoint, htodo, hseq, hhave]; rfl) hin
  | [b2], _ =>
    have hw : (s.receiveSecond b2).waitPoint = some .w2 := by
      simp only [State.waitPoint, State.receiveSecond, State.setPhase_todo, State.receive_todo, htodo,
        State.setPhase_seq, State.receive_seq, hseq]
      rfl
    have hin' : (s.receiveSecond b2).input = [] := congrArg List.tail hin
    exact .of_step (step_second hseq htodo hhave hin) (restsAt_of_waiting (s := s.receiveSecond b2) hf hw hin')

theorem decodeStream_lone {tl : List Byte} (hlen : tl.length ≤ 1) :
    decodeStream (inEsc :: tl) = .error .escapeIncomplete := by
  match tl, hlen with
  | [], _ => rfl
  | [_], _ => rfl

/-- At W0 with an escape byte and too few bytes after it, steps 2 and 3 are executed and the engine comes to W1. -/
theorem step_escapeIncomplete {s : State} {tl : List Byte} (hw : s.AtW0) (hc : s.CanDraw) (hin : s.input = inEsc :: tl)
    (hlen : tl.length ≤ 1) :
    ∃ u, step s = .next u ∧ u.seq = .s4Wait ∧ u.todo = [] ∧ u.escHave = 0 ∧ u.input = tl ∧ u.row = s.row ∧
      u.col = s.col := by
  obtain ⟨hseq, htodo, -⟩ := hw
  obtain ⟨v, ran, htodo', hbegin⟩ := beginIteration_completes hc inEsc
  have hv : beginIteration inEsc s = .done (v.setInput tl) := by
    rw [← hbegin tl, ← hin]
    rfl
  refine ⟨(v.setInput tl).enterEscape, ?_, rfl, htodo'.trans htodo, rfl, rfl, ran.row, ran.col⟩
  simp only [step, fetch, hseq, htodo, hin, decodeStream_lone hlen, between, partialIteration, hv, Run.andThen]
  rfl

/-- A stream is cut no further only where it is empty or ends inside an escape sequence (30_encoding.md R83). -/
theorem decodeStream_error {bs : List Byte} {e : DecodeError} (h : decodeStream bs = .error e) :
    bs = [] ∨ ∃ tl, bs = inEsc :: tl ∧ tl.length ≤ 1 := by
  match bs with
  | [] => exact .inl rfl
  | b1 :: tl =>
    by_cases hesc : b1 = inEsc
    · subst hesc
      match tl with
      | [] => exact .inr ⟨[], rfl, by simp⟩
      | [b2] => exact .inr ⟨[b2], rfl, by simp⟩
      | b2 :: b3 :: rest => rw [decodeStream_escape] at h; cases h
    · obtain ⟨i, hi⟩ := decodeStream_oneByte hesc tl
      rw [hi] at h
      cases h

/-! ## The cut of a stream -/

/-- Only the third byte of an escape sequence moves the cursor (30_encoding.md R95). -/
theorem nextCursor_escInstr (b2 b2' b3 : Byte) (row col : Int) :
    nextCursor (escInstr b2 b3) row col = nextCursor (escInstr b2' b3) row col := by
  unfold escInstr
  split_ifs <;> rfl

theorem streamBytes_ne_nil {i : Instr} (hi : i.level = .input) (hwf : i.wf = true) : streamBytes i ≠ [] := by
  intro hnil
  have hdec := streamDecodeOfEncode i [] hi hwf
  rw [hnil] at hdec
  cases hdec

/-- A whole instruction at the front of a stream is cut off: the rest ends where the stream does. -/
theorem endsAt_streamBytes {i : Instr} (hwf : i.wf = true) (rest : List Byte) :
    endsAt 0 (streamBytes i ++ rest) = endsAt 0 rest := by
  cases i with
  | glyph b1 =>
    obtain ⟨-, hesc, -⟩ := (isReservedFirstByte_eq_false_iff b1).mp ((glyph_wf_iff b1).mp hwf)
    exact if_neg hesc
  | _ => rfl

/-- The cursor after a whole instruction and the rest of the stream is that after the rest, from the table's. -/
theorem cursorAfter_streamBytes {i : Instr} (hwf : i.wf = true) (rest : List Byte) (c : Int × Int) :
    cursorAfter 0 (streamBytes i ++ rest) c = cursorAfter 0 rest (nextCursor i c.1 c.2) := by
  cases i with
  | glyph b1 =>
    obtain ⟨hcr, hesc, hdel⟩ := (isReservedFirstByte_eq_false_iff b1).mp ((glyph_wf_iff b1).mp hwf)
    exact (if_neg hesc).trans ((if_neg hcr).trans (if_neg hdel))
  | escNone b2 b3 =>
    have hmove := nextCursor_escInstr 0 b2 b3 c.1 c.2
    rw [escInstr_of_not_motion b2 ((escNone_wf_iff b2 b3).mp hwf)] at hmove
    exact congrArg (cursorAfter 0 rest) hmove
  | _ => rfl

/-! ## A whole stream -/

theorem State.Inv.canDraw {s : State} (hs : s.Inv) (hf : s.Fair) (h5 : s.seq ≠ .s5) : s.CanDraw :=
  ⟨hs.engineOk.inGrid h5, hf, wf_txDepth hs.config⟩

theorem step_fair {s t : State} (hf : s.Fair) (h : step s = .next t) : t.Fair := by
  obtain ⟨E, went⟩ := step_adds_events h
  exact fun hp => hf (went.pace.symm.trans hp)

/-- At W0 with too few bytes for an instruction, the engine rests where the stream ends. -/
theorem restsAt_of_decodeStream_error {s : State} {e : DecodeError} (hw : s.AtW0) (hc : s.CanDraw)
    (hdec : decodeStream s.input = .error e) :
    RestsAt s (endsAt 0 s.input) (cursorAfter 0 s.input (s.row, s.col)) := by
  have hf : s.Fair := hc.2.1
  rcases decodeStream_error hdec with hin | ⟨tl, hin, hlen⟩
  · rw [hin]
    exact restsAt_of_waiting hf (by simp only [State.waitPoint, hw.1, hw.2.1]; rfl) hin
  · obtain ⟨u, hstep, hseq, htodo, hhave, hin', hrow, hcol⟩ := step_escapeIncomplete hw hc hin hlen
    have hcursor : cursorAfter 0 s.input (s.row, s.col) = (u.row, u.col) := by
      rw [hin, hrow, hcol]
      match tl, hlen with
      | [], _ => rfl
      | [_], _ => rfl
    rw [hcursor, hin]
    exact .of_step hstep (restsAt_of_escapeWait (step_fair hf hstep) hseq htodo hhave hin' hlen)

/-- From the top of the loop the engine rests where the stream ends, by induction on the stream's length: the highlight,
then one iteration and the rest of the stream, or what is too short for an instruction. -/
theorem restsAt_of_loopTop {s : State} (hs : s.Inv) (hf : s.Fair) (htop : s.AtLoopTop) :
    RestsAt s (endsAt 0 s.input) (cursorAfter 0 s.input (s.row, s.col)) := by
  induction hn : s.input.length using Nat.strong_induction_on generalizing s with
  | _ n ih =>
    obtain ⟨u, hlit, hw, hrow, hcol, hin, -⟩ := highlightPaintsCursorCell s htop (hs.canDraw hf (by simp [htop.1]))
    have hu := stepKeepsInvariant s u hs hlit
    have hfu := step_fair hf hlit
    have hc := hu.canDraw hfu (by simp [hw.1])
    rw [← hin] at hn
    rw [← hin, ← hrow, ← hcol]
    refine .of_step hlit ?_
    match hdec : decodeStream u.input with
    | .error e => exact restsAt_of_decodeStream_error hw hc hdec
    | .ok (i, rest) =>
      obtain ⟨hi, hbytes⟩ := decodeStream_ok hdec
      have hwf := decodeStream_wf hdec
      obtain ⟨hruns, t, hexec, hrow', hcol', hends, -⟩ := step_iterates hi hwf hw hc hbytes
      have hiterate : step u = .next t := hruns.trans hexec
      have hrest : t.input = rest := by rw [hends.input, hbytes, List.drop_left]
      have hshorter : t.input.length < n := by
        have hpos := List.length_pos_iff.mpr (streamBytes_ne_nil hi hwf)
        rw [← hn, hbytes, hrest, List.length_append]
        omega
      have hrests := ih _ hshorter (stepKeepsInvariant u t hu hiterate) (step_fair hfu hiterate) hends.top rfl
      rw [hrest, hrow', hcol'] at hrests
      rw [hbytes, endsAt_streamBytes hwf, cursorAfter_streamBytes hwf]
      exact .of_step hiterate hrests

theorem core_run_refused (M : Host.Core) {k : Nat} {s : M.State} {r : M.Refusal} (h : M.step s = .refused r) :
    M.run (k + 1) s = .refused r := by
  rw [Host.Core.run, h]

/-- The first of a number of steps. -/
theorem run_succ_next {k : Nat} {s t : State} (h : core.run (k + 1) s = .next t) :
    ∃ u, step s = .next u ∧ core.run k u = .next t := by
  match hstep : step s with
  | .next u => exact ⟨u, rfl, (run_next hstep).symm.trans h⟩
  | .fault r => cases r
  | .refused r =>
    cases (core_run_refused core hstep).symm.trans h

/-- The bytes received and those to come are the same after any number of steps. -/
theorem run_received {k : Nat} {s t : State} (hs : s.EngineOk) (h : core.run k s = .next t) :
    rxBytes t.events ++ t.input = rxBytes s.events ++ s.input := by
  induction k generalizing s with
  | zero => cases h; rfl
  | succ k ih =>
    obtain ⟨u, hstep, hrun⟩ := run_succ_next h
    obtain ⟨bs, hin, -, hrx⟩ := stepConsumesStreamInOrder s u hs.position hstep
    rw [ih (step_engineOk hs hstep) hrun, hrx, hin, List.append_assoc]

/-- Settles O58: the engine rests where the stream ends, and with no byte to come every byte has been received. -/
theorem finiteStreamComesToRest : Obligations.FiniteStreamComesToRest := by
  intro s hs hf htop
  obtain ⟨k, t, hrun, hq, hw, hcursor⟩ := restsAt_of_loopTop hs hf htop
  refine ⟨k, t, hrun, hq, hw, hcursor, ?_⟩
  obtain ⟨-, hin, -⟩ := (quiescent_iff t).mp hq
  simpa [hin] using run_received hs.engineOk hrun

end Sys2Proof.Machine
end

section
/-! SUPPORT. Proofs of the statements of 60_exceptions.md: every step has an outcome (R190), a hang is for ever (R193), and the
external reset (R204, 70_reset_and_hazards.md R221). -/

namespace Sys2Proof.Machine

/-! ## Every step has an outcome -/

/-- The run is executed or blocked, not refused: it leaves a state. -/
def Run.Answers (r : Run) : Prop := ∃ t, r.outcome = .next t

theorem Run.Answers.done (s : State) : (Run.done s).Answers := ⟨s, rfl⟩

theorem Run.Answers.parked (s : State) : (Run.parked s).Answers := ⟨s, rfl⟩

theorem Run.Answers.andThen {r : Run} {f : State → Run} (h : r.Answers) (hf : ∀ t, r = .done t → (f t).Answers) :
    (r.andThen f).Answers := by
  cases r with
  | done t => exact hf t rfl
  | parked t => exact .parked t
  | refused e =>
    obtain ⟨t, ht⟩ := h
    cases ht

theorem runPrims_answers (ps : List Prim) (s : State) : (runPrims ps s).Answers := by
  match h : runPrims ps s with
  | .done t => exact .done t
  | .parked t => exact .parked t
  | .refused e => exact absurd h (runPrims_not_refused ps s e)

section
variable {s : State} (hg : inGrid s.row s.col = true)
include hg

/-- An arm that draws a glyph, be it the blank one, into a cell of the grid. -/
theorem drawThenMove_answers (g : GlyphIndex) (m : Motion) :
    (drawThenMove (drawGlyphCell s.cfg s.row s.col g) m s).Answers := by
  rw [drawThenMove, drawGlyphCell_inGrid hg]
  exact (runPrims_answers _ _).andThen fun t _ => .done _

theorem armGlyph_answers (b1 : Byte) : (armGlyph b1 s).Answers := drawThenMove_answers hg (glyphIndex b1) .right

/-- The arms of `CR` and `DEL` are this one with their motions. -/
theorem armEscape_answers (m : Motion) : (armEscape m s).Answers := drawThenMove_answers hg blankGlyph m

theorem dispatch_answers (b1 : Byte) : (dispatch b1 s).Answers := by
  unfold dispatch
  split_ifs
  · exact armEscape_answers hg .newline
  · exact .done _
  · exact armEscape_answers hg .left
  · exact armGlyph_answers hg b1

theorem highlight_answers : (highlight s).Answers := by
  rw [highlight, drawCursorCell_inGrid hg]
  exact (runPrims_answers _ _).andThen fun t _ => .done _

theorem beginIteration_answers (b1 : Byte) : (beginIteration b1 s).Answers := by
  rw [beginIteration, eraseCell_inGrid hg]
  exact runPrims_answers _ _

/-- Steps 2 and 3 leave the cursor where it is, so what follows them draws into the grid too. -/
theorem iteration_answers (h0 : s.todo = []) (b1 : Byte) {arm : State → Run}
    (harm : ∀ u : State, inGrid u.row u.col = true → (arm u).Answers) : ((beginIteration b1 s).andThen arm).Answers := by
  refine (beginIteration_answers hg b1).andThen fun u hu => harm u ?_
  have hgives := beginIteration_gives h0 b1
  rw [hu] at hgives
  obtain ⟨began, -⟩ := hgives
  rw [began.row, began.col, hg]

theorem exec_input_answers (h0 : s.todo = []) {i : Instr} (hi : i.level = .input) : ∃ t, exec i s = .next t := by
  have escape (b2 b3 : Byte) (m : Motion) :
      ((beginIteration inEsc s).andThen fun u => armEscape m (receiveEscape b2 b3 u)).Answers :=
    iteration_answers hg h0 inEsc fun u hu => armEscape_answers (s := receiveEscape b2 b3 u) hu m
  cases i with
  | cr => exact iteration_answers hg h0 inCr fun u hu => armEscape_answers hu .newline
  | del => exact iteration_answers hg h0 inDel fun u hu => armEscape_answers hu .left
  | glyph b1 => exact iteration_answers hg h0 b1 fun u hu => armGlyph_answers hu b1
  | escUp b2 => exact escape b2 inUp .up
  | escDown b2 => exact escape b2 inDown .down
  | escRight b2 => exact escape b2 inRight .right
  | escLeft b2 => exact escape b2 inLeft .left
  | escNone b2 b3 => exact escape b2 b3 .stay
  | exitSleep => cases hi
  | displayOn => cases hi
  | colAddrSet a b => cases hi
  | rowAddrSet a b => cases hi
  | memWrite px => cases hi
  | memAccessCtrl b => cases hi

theorem partialIteration_answers (h0 : s.todo = []) : (partialIteration s).Answers := by
  unfold partialIteration
  split
  · exact .done _
  · exact iteration_answers hg h0 _ fun u hu => dispatch_answers hu _

theorem escapeWait_answers : (escapeWait s).Answers := by
  unfold escapeWait
  split
  · exact .done _
  · split_ifs
    · exact .done _
    · exact armEscape_answers (s := s.receiveThird _) hg _

end

/-- A wire command draws no cell, so it is refused nowhere. -/
theorem exec_wire_answers {i : Instr} (hi : i.level = .wire) (s : State) : ∃ t, exec i s = .next t := by
  rw [exec_wire hi]
  exact runPrims_answers _ _

/-- Step 5 is the only position the cursor may be outside the grid at, and it draws nothing. -/
theorem between_answers {s : State} (hs : s.EngineOk) : (between s).Answers := by
  unfold between
  split
  · exact runPrims_answers _ _
  next h0 =>
    split
    next => exact .done _
    next hq => exact highlight_answers (hs.inGrid (by simp [hq]))
    next => exact .done _
    next hq => exact partialIteration_answers (hs.inGrid (by simp [hq])) h0
    next hq => exact dispatch_answers (hs.inGrid (by simp [hq])) _
    next hq => exact escapeWait_answers (hs.inGrid (by simp [hq]))
    next => exact .done _
    next => exact .done _

/-- The two places an instruction is fetched from (10_state.md R24, R26). -/
theorem fetch_cases {s u : State} {i : Instr} (h : fetch s = some (i, u)) :
    s.todo = [] ∧ ((∃ cs, s.seq = .init (i :: cs)) ∨
      s.seq = .s2 ∧ u = s ∧ ∃ rest, decodeStream s.input = .ok (i, rest)) := by
  unfold fetch at h
  split at h
  next h0 hq =>
    cases h
    exact ⟨h0, .inl ⟨_, hq⟩⟩
  next h0 hq =>
    split at h
    next hd =>
      cases h
      exact ⟨h0, .inr ⟨hq, rfl, _, hd⟩⟩
    next => cases h
  next => cases h

/-- Only the registers' part of the invariant is needed: a start-up command is a wire command, and what W0 decodes is an
input instruction that finds the cursor in the grid. -/
theorem step_answers {s : State} (hs : s.EngineOk) : ∃ t, step s = .next t := by
  unfold step
  split
  next i u hf =>
    obtain ⟨h0, ⟨cs, hq⟩ | ⟨hq, rfl, rest, hd⟩⟩ := fetch_cases hf
    · exact exec_wire_answers (hs.commands hq i (by simp)) u
    · exact exec_input_answers (hs.inGrid (by simp [hq])) h0 (decodeStream_ok hd).1
  next => exact between_answers hs

/-- Settles O48: the one refusal of a step is a draw outside the grid, and the invariant has the cursor in it. -/
theorem stepNeverStops : Obligations.StepNeverStops := fun _ hs => step_answers hs.engineOk

/-! ## A hang is for ever -/

/-- A state that steps to itself is where any number of steps ends. -/
theorem run_of_step_self {s : State} (h : step s = .next s) (k : Nat) : core.run k s = .next s := by
  induction k with
  | zero => rfl
  | succ k ih => rw [run_next h, ih]

/-- A control flow whose next primitive blocks at once stays there. -/
theorem step_blocked {s : State} {p : Prim} {ps : List Prim} (htodo : s.todo = p :: ps)
    (hp : (s.setTodo []).prim p = .parked (s.setTodo [])) : step s = .next s := by
  have hback : (s.setTodo []).setTodo (p :: ps) = s := by rw [← htodo]; rfl
  simp only [step, fetch, between, resume, htodo, runPrims, hp, hback, Run.outcome]

section
variable {s : State} (hpace : s.spi.pace = .stalled) (hsched : s.spi.sched = [])
include hpace hsched

/-- A transmit waits for room in the transport (20_memory.md R62). -/
theorem prim_tx_stalled (hfull : s.cfg.txDepth ≤ s.spi.q.length) (b : Byte) : s.prim (.tx b) = .parked s := by
  have hwait : ¬ s.txe = true := by rwa [txe_iff, not_lt]
  simp only [State.prim, poll_stalled _ hpace hsched, if_neg hwait]

/-- A drain waits for the queue to empty (20_memory.md R63). -/
theorem prim_drain_stalled (hq : s.spi.q ≠ []) : s.prim .drain = .parked s := by
  have hwait : ¬ s.drained = true := fun h => hq (drained_queue h)
  simp only [State.prim, poll_stalled _ hpace hsched, if_neg hwait]

theorem idleTurn_stalled : s.idleTurn = s := by simp only [State.idleTurn, hsched, hpace]

end

/-- Settles O37: at each blocking point a step leaves the state as it is, and so does any number of them. -/
theorem hangIsForever : Obligations.HangIsForever := by
  intro s hpace hsched hblocked k
  refine run_of_step_self ?_ k
  rcases hblocked with ⟨⟨b, ps, htodo⟩, hfull⟩ | ⟨⟨ps, htodo⟩, hq⟩ | ⟨hwait, hin⟩
  · exact step_blocked htodo (prim_tx_stalled (s := s.setTodo []) hpace hsched hfull b)
  · exact step_blocked htodo (prim_drain_stalled (s := s.setTodo []) hpace hsched hq)
  · rw [step_waiting hwait hin, idleTurn_stalled hpace hsched]

/-! ## The external reset -/

theorem externalReset_pan_of_live {s : State} {p : Panel} (h : s.pan = .live p) :
    s.externalReset.pan = .live { p with fresh := true } := by
  rw [State.externalReset_pan, h, PanelState.newRun]

theorem externalReset_pan_of_lost {s : State} {why : PanelLoss} (h : s.pan = .lost why) :
    s.externalReset.pan = .live (Panel.unknown (s.resets + 1)) := by
  rw [State.externalReset_pan, h, PanelState.newRun]

/-- Settles O45: the engine's registers are set to their values, and the controller is in a new run, live or lost before. -/
theorem externalResetLeavesController : Obligations.ExternalResetLeavesController :=
  fun _ => ⟨rfl, rfl, rfl, rfl, rfl, rfl, rfl, rfl, rfl, rfl, fun _ h => externalReset_pan_of_live h,
    fun _ h => ⟨_, externalReset_pan_of_lost h, rfl, rfl⟩⟩

end Sys2Proof.Machine
end

section
/-! SUPPORT. Proofs of the statements of 70_reset_and_hazards.md: the hazard of a command/data line that changes under bytes in
flight (R226), on the schedule of 95_test_vectors.md 2.8. -/

namespace Sys2Proof.Machine

/-! ## What the controller has taken stays taken -/

/-- From `s` to `t` the controller took the items `ws`, in order, under whatever mode, and did with each what it does with an
item (20_memory.md R56). -/
structure Takes (ws : List WireItem) (s t : State) : Prop where
  cfg  : t.cfg = s.cfg
  seen : t.seen = ws.reverse ++ s.seen
  pan  : t.pan = panelItems s.cfg ws s.pan

theorem Takes.trans {vs ws : List WireItem} {s t u : State} (h : Takes vs s t) (k : Takes ws t u) :
    Takes (vs ++ ws) s u where
  cfg := k.cfg.trans h.cfg
  seen := by rw [k.seen, h.seen, List.reverse_append, List.append_assoc]
  pan := by rw [k.pan, h.pan, h.cfg, panelItems_append]

/-- From `s` to `t` the controller took some items. -/
def TakesSome (s t : State) : Prop := ∃ ws, Takes ws s t

namespace TakesSome

/-- What leaves the controller and its history alone takes nothing. -/
theorem of_same {s t : State} (hcfg : t.cfg = s.cfg) (hseen : t.seen = s.seen) (hpan : t.pan = s.pan) : TakesSome s t :=
  ⟨[], hcfg, hseen, hpan⟩

theorem refl (s : State) : TakesSome s s := of_same rfl rfl rfl

theorem trans {s t u : State} : TakesSome s t → TakesSome t u → TakesSome s u
  | ⟨_, h⟩, ⟨_, k⟩ => ⟨_, h.trans k⟩

theorem mem_seen {s t : State} {w : WireItem} (hw : w ∈ s.seen) : TakesSome s t → w ∈ t.seen
  | ⟨_, h⟩ => by rw [h.seen]; exact List.mem_append_right _ hw

/-- A controller off its path stays off it (20_memory.md R61). -/
theorem lost {s t : State} {why : PanelLoss} (hp : s.pan = .lost why) : TakesSome s t → t.pan = .lost why
  | ⟨_, h⟩ => by rw [h.pan, hp, panelItems_lost]

end TakesSome

theorem takesSome_deliver (s : State) : TakesSome s s.deliver := by
  unfold State.deliver
  split
  · exact .refl s
  next w ws _ => exact ⟨[s.takenAs w], rfl, rfl, rfl⟩

theorem takesSome_setSched (ns : List Nat) (s : State) : TakesSome s (s.setSched ns) := .of_same rfl rfl rfl

theorem takesSome_deliverN (n : Nat) (s : State) : TakesSome s (deliverN n s) := by
  induction n generalizing s with
  | zero => exact .refl s
  | succ n ih => exact (takesSome_deliver s).trans (ih _)

theorem takesSome_envTurn (s : State) : TakesSome s s.envTurn := by
  unfold State.envTurn
  split
  · exact (takesSome_setSched _ s).trans (takesSome_deliverN _ _)
  · split
    · exact takesSome_deliverN _ s
    · exact .refl s
    · exact .refl s

theorem takesSome_deliverUntil (ready : State → Bool) (n : Nat) (s : State) : TakesSome s (deliverUntil ready n s) := by
  induction n generalizing s with
  | zero => exact .refl s
  | succ n ih =>
    unfold deliverUntil
    split
    · exact .refl s
    · exact (takesSome_deliver s).trans (ih _)

theorem takesSome_pollUntil (ready : State → Bool) (ns : List Nat) (s : State) : TakesSome s (pollUntil ready ns s) := by
  induction ns generalizing s with
  | nil =>
    unfold pollUntil
    split
    · exact takesSome_deliverUntil _ _ s
    · exact takesSome_deliverUntil _ _ s
    · exact .refl s
  | cons n ns ih =>
    unfold pollUntil
    split
    · exact .refl s
    · exact ((takesSome_setSched ns s).trans (takesSome_deliverN n _)).trans (ih _)

/-- A primitive itself gives the controller nothing: the environment does, at its polls and after it. -/
theorem prim_takesSome {p : Prim} {s t : State} (h : s.prim p = .done t) : TakesSome s t := by
  have own {u v : State} (hpoll : TakesSome s u) (hcfg : v.cfg = u.cfg) (hseen : v.seen = u.seen) (hpan : v.pan = u.pan) :
      TakesSome s v.envTurn :=
    (hpoll.trans (.of_same hcfg hseen hpan)).trans (takesSome_envTurn v)
  cases p with
  | dc m =>
    cases h
    exact own (.refl s) rfl rfl rfl
  | cs l =>
    cases h
    exact own (.refl s) rfl rfl rfl
  | tx b =>
    simp only [State.prim] at h
    split at h
    · cases h
      exact own (takesSome_pollUntil _ _ s) rfl rfl rfl
    · cases h
  | drain =>
    simp only [State.prim] at h
    split at h
    · cases h
      exact own (takesSome_pollUntil _ _ s) rfl rfl rfl
    · cases h

theorem runPrims_takesSome {ps : List Prim} {s t : State} (h : runPrims ps s = .done t) : TakesSome s t := by
  induction ps generalizing s with
  | nil =>
    cases h
    exact .refl _
  | cons p ps ih =>
    simp only [runPrims] at h
    split at h
    next u hu => exact (prim_takesSome hu).trans (ih h)
    next => cases h
    next => cases h

/-! ## The coherent twin -/

/-- The same state with `TRANSPORT_DC_COHERENT`. -/
def State.coherentTwin (s : State) : State := { s with spi := { s.spi with coherent := true } }

/-- Neither the invariant nor what the controller is still to be sent speaks of coherence, so in the loop the twin of a state
with a served controller keeps its controller live (`stepKeepsControllerOnPath`). -/
theorem step_coherentTwin_live {s : State} (hs : s.Inv) (hl : s.InLoop) (hp : s.PanelServed) :
    ∃ t, step s.coherentTwin = .next t ∧ ∃ q, t.pan = .live q := by
  have hinv : s.coherentTwin.Inv := ⟨hs.config, hs.cursor, hs.phase, hs.position, hs.queue, hs.memory⟩
  obtain ⟨t, h⟩ := stepNeverStops _ hinv
  obtain ⟨-, -, _, hq, -⟩ := stepKeepsControllerOnPath _ _ hinv rfl hl hp h
  exact ⟨t, h, panelItems_live hq⟩

/-! ## The schedule of 95_test_vectors.md 2.8 -/

/-- Blank glyphs, and `TX_DEPTH` = 2 as in the schedule. -/
def hazardConfig : Config where
  font       := List.replicate 32 [0, 0, 0, 0, 0, 0]
  txDepth    := 2
  dcCmdLevel := .low
  curW       := 7
  baud       := 1
  panelCols  := 318
  panelRows  := 240

/-- The controller as the start-up sequence leaves it (10_state.md R37). -/
def startedPanel : Panel :=
  { Panel.reset with on := true, mac := 0xE0, fresh := false, cmd := some opMemAccessCtrl, idx := 1 }

/-- The top of the loop after the start-up sequence, everything delivered. The transport is incoherent, and slow: it delivers
only what the engine waits for, so two bytes are queued when the engine reaches `sendCommand(2B)`. -/
def hazardTop : State :=
  { State.reset with
    cfg := hazardConfig, seq := .s1, dc := .data, cs := .low
    spi := { q := [], sched := [], pace := .lazy, coherent := false }
    pan := .live startedPanel
    trace := (initializationSequence.map Prim.event).reverse
    seen := [.d 0xE0, .c 0x36, .c 0x29, .c 0x11] }

theorem hazardTop_inv : hazardTop.Inv := ⟨by decide, by decide, by decide, by decide, by decide, by decide⟩

theorem hazardTop_served : hazardTop.PanelServed := ⟨startedPanel, rfl, by decide⟩

/-- The window of the cell (0, 0) as far as the row command's own opcode. -/
def hazardWindow : List Prim := sendCommand 0x2A ++ sendAll [0x00, 0x00, 0x00, 0x05] ++ sendCommand 0x2B

theorem drawCell_begins_hazardWindow (px : List Pixel) : ∃ rest, drawCell 0 0 px = hazardWindow ++ rest := by
  refine ⟨sendAll [0x00, 0x00, 0x00, 0x07] ++ beginMemoryWrite ++ sendAll (px.flatMap pixelBytes), ?_⟩
  have hwindow : setAddressWindow (cellRect 0 0) = hazardWindow ++ sendAll [0x00, 0x00, 0x00, 0x07] := rfl
  simp only [drawCell, hwindow, List.append_assoc]

/-- Two column bytes are still queued when the line goes to command mode: they are taken as opcodes, the first of them where
the controller awaits a parameter. -/
def hazardStruck : State :=
  { hazardTop with
    seq := .s1Draw, dc := .cmd, cs := .high
    pan := .lost .cutShort
    trace := (hazardWindow.map Prim.event).reverse ++ hazardTop.trace
    seen := [.c 0x2B, .c 0x05, .c 0x00, .d 0x00, .d 0x00, .c 0x2A] ++ hazardTop.seen }

theorem runPrims_hazardWindow : runPrims hazardWindow (hazardTop.setSeq .s1Draw) = .done hazardStruck := by decide

/-- The rest of the draw operation is executed, and the controller stays where the window left it. -/
theorem runPrims_hazard (px : List Pixel) :
    ∃ u, runPrims (drawCell 0 0 px) (hazardTop.setSeq .s1Draw) = .done u ∧ TakesSome hazardStruck u := by
  obtain ⟨rest, hdraw⟩ := drawCell_begins_hazardWindow px
  obtain ⟨u, hu, -⟩ := runPrims_completes rest (s := hazardStruck) (by decide)
  exact ⟨u, by rw [hdraw, runPrims_append, runPrims_hazardWindow, ← hu], runPrims_takesSome hu⟩

/-- The highlight that ends executed is the whole step from the top of the loop (43_terminal_state_machine.md R157). -/
theorem step_of_highlight {s u : State} (hs : s.AtLoopTop) (hg : inGrid s.row s.col = true)
    (hu : runPrims (drawCell s.row.toNat s.col.toNat cursorPixels) (s.setSeq .s1Draw) = .done u) :
    step s = .next (u.setSeq .s2) := by
  obtain ⟨hseq, htodo, -⟩ := hs
  simp only [step, fetch, between, highlight, hseq, htodo, drawCursorCell_inGrid hg, draw, hu, Run.andThen, Run.outcome]

/-- Settles O56, by the highlight of the cell (0, 0): the window's column bytes strike the incoherent controller as opcodes, and
the coherent twin is served as O55 says. -/
theorem incoherentTransportCanLoseController : Obligations.IncoherentTransportCanLoseController := by
  have htop : hazardTop.AtLoopTop := by decide
  obtain ⟨u, hu, taken⟩ := runPrims_hazard cursorPixels
  obtain ⟨t', htwin, hlive⟩ := step_coherentTwin_live hazardTop_inv (fun _ h => nomatch h) hazardTop_served
  have hsent : WireItem.d 0x05 ∈ wireFrom hazardTop.dc (u.events.drop hazardTop.events.length) := by
    have hevents : u.events = hazardTop.events ++ (drawCell 0 0 cursorPixels).map Prim.event := (runPrims_done hu).1.events
    rw [hevents, List.drop_left, wireFrom_drawCell]
    exact List.mem_append_left _ (by decide)
  have hseen : WireItem.c 0x05 ∈ u.seen := taken.mem_seen (by decide)
  have hlost : u.pan = .lost .cutShort := taken.lost rfl
  exact ⟨hazardTop, u.setSeq .s2, t', hazardTop_inv, htop, rfl, hazardTop_served, by decide,
    step_of_highlight htop (by decide) hu, hsent, hseen, ⟨_, hlost⟩, htwin, hlive⟩

end Sys2Proof.Machine
end
